-- ==== Sys2Proof/Word.lean ====
section
/-! DEFINITION. The word types of the machine (00_scope.md rules R7, R8): all values are unsigned bit vectors. -/

namespace Sys2Proof

/-- A 32-bit word: a debug register, a linear address, a general register, EIP (R7). -/
abbrev W32 := BitVec 32

/-- A 16-bit word: a selector, a 16-bit image or offset. -/
abbrev W16 := BitVec 16

/-- One byte of memory, or an interrupt vector. -/
abbrev Byte := BitVec 8

end Sys2Proof
end

