-- ==== Sys2Proof/Syntax.lean ====
section
/-! DEFINITION. The instructions of spec/opcode_table.json, one constructor a row (30_encoding.md rule R69), their
operands, and the ordinary instructions of class Other that the programs of 95_test_vectors.md use (GK30). -/

namespace Sys2Proof

/-- A 32-bit general register by name, numbers 0 to 7 in this order (10_state.md rule R28). -/
inductive Reg where
  | eax | ecx | edx | ebx | esp | ebp | esi | edi
deriving DecidableEq, Repr

/-- A debug register number 0 to 7 as a MOV can name it (R62); numbers 4 and 5 name no state (R10, R82). -/
inductive DReg where
  | dr0 | dr1 | dr2 | dr3 | dr4 | dr5 | dr6 | dr7
deriving DecidableEq, Repr

/-- A segment register by name, for override prefixes. -/
inductive SegName where
  | es | cs | ss | ds | fs | gs
deriving DecidableEq, Repr

/-- The operand-size attribute (R61). -/
inductive OpSize where
  | s16 | s32
deriving DecidableEq, Repr

/-- The displacement of a 16-bit address. -/
inductive Disp16 where
  | zero
  | byte (d : Byte)
  | word (d : W16)
deriving DecidableEq, Repr

/-- The displacement of a 32-bit address. -/
inductive Disp32 where
  | zero
  | byte (d : Byte)
  | dword (d : W32)
deriving DecidableEq, Repr

/-- The base registers of a 16-bit address, in the order of their r/m numbers. -/
inductive Base16 where
  | bxsi | bxdi | bpsi | bpdi | si | di | bp | bx
deriving DecidableEq, Repr

/-- The scale of an index register. -/
inductive Scale where
  | x1 | x2 | x4 | x8
deriving DecidableEq, Repr

/-- A memory operand named by a ModRM byte (R65: decoded by the base machine; PRESUMED the family's, log 13). -/
inductive MemOp where
  | direct16 (d : W16)
  | based16 (b : Base16) (d : Disp16)
  | direct32 (d : W32)
  | based32 (b : Reg) (d : Disp32)
  | sib (b : Option Reg) (index : Option (Reg × Scale)) (d : Disp32)
deriving DecidableEq, Repr

/-- A far pointer in the instruction: a 16- or 32-bit offset and a selector (R65). -/
inductive FarPtr where
  | ptr16 (off : W16) (sel : W16)
  | ptr32 (off : W32) (sel : W16)
deriving DecidableEq, Repr

/-- The instructions of spec/opcode_table.json. -/
inductive Instr where
  /-- `MOV r32, DRn` (R75). -/
  | movFromDR (r : Reg) (n : DReg)
  /-- `MOV DRn, r32` (R76). -/
  | movToDR (n : DReg) (r : Reg)
  /-- `INT 3`, the breakpoint instruction (R85). -/
  | int3
  /-- `INT n` (R86). -/
  | intN (v : Byte)
  /-- `INTO` (R87). -/
  | into
  /-- `IRET`, 16-bit (R96). -/
  | iret
  /-- `IRETD`, 32-bit (R95). -/
  | iretd
  /-- `POPF`, 16-bit (R99). -/
  | popf
  /-- `POPFD`, 32-bit (R98). -/
  | popfd
  /-- `JMP ptr16:16 / ptr16:32` (R100). -/
  | jmpPtr (p : FarPtr)
  /-- `JMP m16:16 / m16:32` (R100). -/
  | jmpMem (os : OpSize) (seg : Option SegName) (m : MemOp)
  /-- `CALL ptr16:16 / ptr16:32` (R101). -/
  | callPtr (p : FarPtr)
  /-- `CALL m16:16 / m16:32` (R101). -/
  | callMem (os : OpSize) (seg : Option SegName) (m : MemOp)
deriving DecidableEq, Repr

/-- A register or memory operand. -/
inductive RegMem where
  | reg (r : Reg)
  | mem (m : MemOp)
deriving DecidableEq, Repr

/-- The instructions of class Other (R104) whose opcode and semantics 93 GK30 names: the ordinary instructions of
the programs of 95_test_vectors.md. An immediate holds its low half for operand size 16. -/
inductive Ordinary where
  /-- B8+r: MOV r, imm. -/
  | movImm (os : OpSize) (r : Reg) (imm : W32)
  /-- 40+r: INC r. -/
  | inc (os : OpSize) (r : Reg)
  /-- 31 /r: XOR r/m, r. -/
  | xor (os : OpSize) (seg : Option SegName) (dst : RegMem) (src : Reg)
  /-- 68: PUSH imm. -/
  | push (os : OpSize) (imm : W32)
  /-- A1: MOV (E)AX, moffs. -/
  | movMoffs (os : OpSize) (seg : Option SegName) (off : W32)
  /-- C6 /0: MOV r/m8, imm8; a register operand is an 8-bit register number. -/
  | movByte (seg : Option SegName) (dst : RegMem) (imm : Byte)
  /-- 81 /4: AND r/m, imm. -/
  | and (os : OpSize) (seg : Option SegName) (dst : RegMem) (imm : W32)
deriving DecidableEq, Repr

end Sys2Proof
end

