-- ==== Sys2Proof/WellFormed.lean ====
section
/-! DEFINITION. Which terms of Instr an encoding exists for: the memory operands the ModRM and SIB bytes of
30_encoding.md rule R65 can name (log 13). Every other operand is well formed by its type. -/

namespace Sys2Proof

/-- A memory operand that some ModRM (and SIB) byte names: [BP] and [EBP] need a displacement, [ESP] needs a SIB
byte, ESP is no index, and a SIB byte without base has a 32-bit displacement. -/
def MemOp.wellFormed : MemOp → Bool
  | .direct16 _ => true
  | .based16 b d => !(b == .bp && d == .zero)
  | .direct32 _ => true
  | .based32 b d => b != .esp && !(b == .ebp && d == .zero)
  | .sib b index d =>
    (match index with
      | none => true
      | some (r, _) => r != .esp)
    && (match b with
      | none => (match d with
        | .dword _ => true
        | _ => false)
      | some r => !(r == .ebp && d == .zero))

/-- The instructions an encoding exists for. -/
def Instr.wellFormed : Instr → Bool
  | .movFromDR _ _ => true
  | .movToDR _ _ => true
  | .int3 => true
  | .intN _ => true
  | .into => true
  | .iret => true
  | .iretd => true
  | .popf => true
  | .popfd => true
  | .jmpPtr _ => true
  | .jmpMem _ _ m => m.wellFormed
  | .callPtr _ => true
  | .callMem _ _ m => m.wellFormed

end Sys2Proof
end

