-- ==== Sys2Proof/Decode.lean ====
section
/-! DEFINITION. Decoding bytes into instructions (30_encoding.md rules R60 to R67; all opcode bytes are general
knowledge there, GK7), the encoder written from the same tables, and the host's reading of a table word. -/

namespace Sys2Proof

/-! ## Register numbers (10_state.md rule R28, 30_encoding.md rule R62) -/

/-- The number of a general register. -/
def Reg.num : Reg → BitVec 3
  | .eax => 0 | .ecx => 1 | .edx => 2 | .ebx => 3 | .esp => 4 | .ebp => 5 | .esi => 6 | .edi => 7

/-- The general register with a number. -/
def Reg.ofNum (n : BitVec 3) : Reg :=
  match n.toNat with
  | 0 => .eax | 1 => .ecx | 2 => .edx | 3 => .ebx | 4 => .esp | 5 => .ebp | 6 => .esi | _ => .edi

/-- The number of a debug register. -/
def DReg.num : DReg → BitVec 3
  | .dr0 => 0 | .dr1 => 1 | .dr2 => 2 | .dr3 => 3 | .dr4 => 4 | .dr5 => 5 | .dr6 => 6 | .dr7 => 7

/-- The debug register with a number. -/
def DReg.ofNum (n : BitVec 3) : DReg :=
  match n.toNat with
  | 0 => .dr0 | 1 => .dr1 | 2 => .dr2 | 3 => .dr3 | 4 => .dr4 | 5 => .dr5 | 6 => .dr6 | _ => .dr7

/-- The r/m number of a 16-bit base. -/
def Base16.num : Base16 → BitVec 3
  | .bxsi => 0 | .bxdi => 1 | .bpsi => 2 | .bpdi => 3 | .si => 4 | .di => 5 | .bp => 6 | .bx => 7

/-- The 16-bit base with an r/m number. -/
def Base16.ofNum (n : BitVec 3) : Base16 :=
  match n.toNat with
  | 0 => .bxsi | 1 => .bxdi | 2 => .bpsi | 3 => .bpdi | 4 => .si | 5 => .di | 6 => .bp | _ => .bx

/-- The scale bits of a SIB byte. -/
def Scale.num : Scale → BitVec 2
  | .x1 => 0 | .x2 => 1 | .x4 => 2 | .x8 => 3

/-- The scale with given bits. -/
def Scale.ofNum (n : BitVec 2) : Scale :=
  match n.toNat with
  | 0 => .x1 | 1 => .x2 | 2 => .x4 | _ => .x8

/-! ## Bytes and fields -/

/-- The bytes of a 16-bit word, low byte first (20_memory.md rule R48). -/
def bytes16 (w : W16) : List Byte := [w.extractLsb' 0 8, w.extractLsb' 8 8]

/-- The bytes of a 32-bit word, low byte first (R48). -/
def bytes32 (w : W32) : List Byte :=
  [w.extractLsb' 0 8, w.extractLsb' 8 8, w.extractLsb' 16 8, w.extractLsb' 24 8]

/-- The 16-bit word of two bytes, the low byte given first (R48). -/
def word16 (b0 b1 : Byte) : W16 := b1 ++ b0

/-- The 32-bit word of four bytes, the low byte given first (R48). -/
def word32 (b0 b1 b2 b3 : Byte) : W32 := b3 ++ b2 ++ b1 ++ b0

/-- The mod field of a ModRM byte, or the scale of a SIB byte: bits 7:6. -/
def fieldMod (b : Byte) : BitVec 2 := b.extractLsb' 6 2

/-- The reg field of a ModRM byte, or the index of a SIB byte: bits 5:3. -/
def fieldReg (b : Byte) : BitVec 3 := b.extractLsb' 3 3

/-- The r/m field of a ModRM byte, or the base of a SIB byte: bits 2:0. -/
def fieldRM (b : Byte) : BitVec 3 := b.extractLsb' 0 3

/-- A byte of three fields `mm nnn rrr`. -/
def packByte (m : BitVec 2) (n r : BitVec 3) : Byte := m ++ n ++ r

/-! ## What decoding answers -/

/-- What a byte sequence is. The three refusals by name are `unlisted`, `movDebugMod` and `truncated`. -/
inductive Decoded where
  /-- An instruction of the opcode table, with its length in bytes, prefixes included. -/
  | instr (i : Instr) (len : Nat)
  /-- An ordinary instruction of class Other that GK30 names, with its length. -/
  | ordinary (o : Ordinary) (len : Nat)
  /-- Any other instruction: class Other of the base machine (R69, R104). -/
  | unlisted
  /-- A MOV to or from a debug register whose mod field is not 11: refused (R62, R67 (b), D25). -/
  | movDebugMod
  /-- The bytes end before the instruction does. -/
  | truncated
deriving DecidableEq, Repr

/-- The prefix bytes read so far: whether 66 and 67 were among them, the last segment override, whether a LOCK or
repeat prefix was among them, and how many there were. -/
structure PrefixBytes where
  opSize   : Bool
  addrSize : Bool
  seg      : Option SegName
  lockRep  : Bool
  count    : Nat
deriving DecidableEq, Repr

/-- The segment a prefix byte overrides to, if it is a segment override. -/
def overrideOf (b : Byte) : Option SegName :=
  if b = 0x26 then some .es
  else if b = 0x2E then some .cs
  else if b = 0x36 then some .ss
  else if b = 0x3E then some .ds
  else if b = 0x64 then some .fs
  else if b = 0x65 then some .gs
  else none

/-- The override prefix byte of a segment. -/
def overrideByte : SegName → Byte
  | .es => 0x26 | .cs => 0x2E | .ss => 0x36 | .ds => 0x3E | .fs => 0x64 | .gs => 0x65

/-- Read the prefixes in front of an opcode (R60): 66, 67, segment overrides, LOCK and repeat. A repeated 66 or 67 counts
once, which R61 leaves open (N12): PRESUMED, the family's (log 13). -/
def readPrefixes (p : PrefixBytes) : List Byte → PrefixBytes × List Byte
  | [] => (p, [])
  | b :: rest =>
    if b = 0x66 then readPrefixes { p with opSize := true, count := p.count + 1 } rest
    else if b = 0x67 then readPrefixes { p with addrSize := true, count := p.count + 1 } rest
    else if b = 0xF0 || b = 0xF2 || b = 0xF3 then
      readPrefixes { p with lockRep := true, count := p.count + 1 } rest
    else
      match overrideOf b with
      | some g => readPrefixes { p with seg := some g, count := p.count + 1 } rest
      | none => (p, b :: rest)

/-! ## Operands -/

/-- A 16-bit word from the front of the bytes. -/
def take16 : List Byte → Option (W16 × List Byte)
  | b0 :: b1 :: rest => some (word16 b0 b1, rest)
  | _ => none

/-- A 32-bit word from the front of the bytes. -/
def take32 : List Byte → Option (W32 × List Byte)
  | b0 :: b1 :: b2 :: b3 :: rest => some (word32 b0 b1 b2 b3, rest)
  | _ => none

/-- The displacement that mod 00, 01 or 10 calls for after a 32-bit address form. -/
def takeDisp32 (m : BitVec 2) (bs : List Byte) : Option (Disp32 × Nat × List Byte) :=
  if m = 0 then some (.zero, 0, bs)
  else if m = 1 then
    match bs with
    | d :: rest => some (.byte d, 1, rest)
    | [] => none
  else
    match take32 bs with
    | some (d, rest) => some (.dword d, 4, rest)
    | none => none

/-- The displacement that mod 00, 01 or 10 calls for after a 16-bit address form. -/
def takeDisp16 (m : BitVec 2) (bs : List Byte) : Option (Disp16 × Nat × List Byte) :=
  if m = 0 then some (.zero, 0, bs)
  else if m = 1 then
    match bs with
    | d :: rest => some (.byte d, 1, rest)
    | [] => none
  else
    match take16 bs with
    | some (d, rest) => some (.word d, 2, rest)
    | none => none

/-- The index register a SIB byte names; number 100 is no index. -/
def sibIndex (s : Byte) : Option (Reg × Scale) :=
  if fieldReg s = 4 then none else some (Reg.ofNum (fieldReg s), Scale.ofNum (fieldMod s))

/-- A memory operand with a SIB byte `s`, mod `m`: base number 101 with mod 00 is no base and a 32-bit displacement. -/
def takeSib (m : BitVec 2) (s : Byte) (bs : List Byte) : Option (MemOp × Nat × List Byte) :=
  if m = 0 ∧ fieldRM s = 5 then
    match take32 bs with
    | some (d, rest) => some (.sib none (sibIndex s) (.dword d), 4, rest)
    | none => none
  else
    match takeDisp32 m bs with
    | some (d, k, rest) => some (.sib (some (Reg.ofNum (fieldRM s))) (sibIndex s) d, k, rest)
    | none => none

/-- A memory operand in 32-bit addressing: mod `m` is not 11, `rm` is the r/m field. The number is how many bytes
after the ModRM byte it takes. -/
def takeMem32 (m : BitVec 2) (rm : BitVec 3) (bs : List Byte) : Option (MemOp × Nat × List Byte) :=
  if rm = 4 then
    match bs with
    | s :: rest =>
      match takeSib m s rest with
      | some (o, k, rest') => some (o, k + 1, rest')
      | none => none
    | [] => none
  else if m = 0 ∧ rm = 5 then
    match take32 bs with
    | some (d, rest) => some (.direct32 d, 4, rest)
    | none => none
  else
    match takeDisp32 m bs with
    | some (d, k, rest) => some (.based32 (Reg.ofNum rm) d, k, rest)
    | none => none

/-- A memory operand in 16-bit addressing: mod `m` is not 11, `rm` is the r/m field. -/
def takeMem16 (m : BitVec 2) (rm : BitVec 3) (bs : List Byte) : Option (MemOp × Nat × List Byte) :=
  if m = 0 ∧ rm = 6 then
    match take16 bs with
    | some (d, rest) => some (.direct16 d, 2, rest)
    | none => none
  else
    match takeDisp16 m bs with
    | some (d, k, rest) => some (.based16 (Base16.ofNum rm) d, k, rest)
    | none => none

/-- A memory operand named by a ModRM byte with mod other than 11, in the address size given. -/
def takeMem (addr32 : Bool) (modrm : Byte) (bs : List Byte) : Option (MemOp × Nat × List Byte) :=
  if addr32 then takeMem32 (fieldMod modrm) (fieldRM modrm) bs
  else takeMem16 (fieldMod modrm) (fieldRM modrm) bs

/-- A register or memory operand named by a ModRM byte. -/
def takeRegMem (addr32 : Bool) (modrm : Byte) (bs : List Byte) : Option (RegMem × Nat × List Byte) :=
  if fieldMod modrm = 3 then some (.reg (Reg.ofNum (fieldRM modrm)), 0, bs)
  else
    match takeMem addr32 modrm bs with
    | some (m, k, rest) => some (.mem m, k, rest)
    | none => none

/-- An immediate of the operand size, zero-extended to 32 bits, and its number of bytes. -/
def takeImm (os : OpSize) (bs : List Byte) : Option (W32 × Nat) :=
  match os with
  | .s16 => match take16 bs with
    | some (w, _) => some (w.setWidth 32, 2)
    | none => none
  | .s32 => match take32 bs with
    | some (w, _) => some (w, 4)
    | none => none

/-- A far pointer of the operand size, offset first, and its number of bytes (R65). -/
def takeFarPtr (os : OpSize) (bs : List Byte) : Option (FarPtr × Nat) :=
  match os with
  | .s16 => match take16 bs with
    | some (off, rest) => match take16 rest with
      | some (sel, _) => some (.ptr16 off sel, 4)
      | none => none
    | none => none
  | .s32 => match take32 bs with
    | some (off, rest) => match take16 rest with
      | some (sel, _) => some (.ptr32 off sel, 6)
      | none => none
    | none => none

/-! ## Opcodes -/

/-- The MOV to or from a debug register after 0F 21 or 0F 23 (R62): mod must be 11. `n` counts the prefixes. -/
def decodeMovDebug (toDebug : Bool) (n : Nat) : List Byte → Decoded
  | [] => .truncated
  | modrm :: _ =>
    if fieldMod modrm = 3 then
      if toDebug then
        .instr (.movToDR (DReg.ofNum (fieldReg modrm)) (Reg.ofNum (fieldRM modrm))) (n + 3)
      else
        .instr (.movFromDR (Reg.ofNum (fieldRM modrm)) (DReg.ofNum (fieldReg modrm))) (n + 3)
    else .movDebugMod

/-- The group FF: /5 is the far JMP and /3 the far CALL through memory (R65); the other numbers are unlisted. So is mod 11,
which names no memory operand and of which R65 and R66 do not speak (PRESUMED, the family's, log 13). -/
def decodeGroupFF (seg : Option SegName) (os : OpSize) (addr32 : Bool) (n : Nat) : List Byte → Decoded
  | [] => .truncated
  | modrm :: rest =>
    if fieldMod modrm = 3 then .unlisted
    else if fieldReg modrm = 5 then
      match takeMem addr32 modrm rest with
      | some (m, k, _) => .instr (.jmpMem os seg m) (n + 2 + k)
      | none => .truncated
    else if fieldReg modrm = 3 then
      match takeMem addr32 modrm rest with
      | some (m, k, _) => .instr (.callMem os seg m) (n + 2 + k)
      | none => .truncated
    else .unlisted

/-- The ordinary instructions of class Other with an opcode GK30 names. -/
def decodeOrdinary (seg : Option SegName) (os : OpSize) (addr32 : Bool) (n : Nat) (op : Byte)
    (rest : List Byte) : Decoded :=
  if op.extractLsb' 3 5 = 0x17 then
    match takeImm os rest with
    | some (v, k) => .ordinary (.movImm os (Reg.ofNum (fieldRM op)) v) (n + 1 + k)
    | none => .truncated
  else if op.extractLsb' 3 5 = 0x08 then
    .ordinary (.inc os (Reg.ofNum (fieldRM op))) (n + 1)
  else if op = 0x31 then
    match rest with
    | [] => .truncated
    | modrm :: rest' =>
      match takeRegMem addr32 modrm rest' with
      | some (d, k, _) => .ordinary (.xor os seg d (Reg.ofNum (fieldReg modrm))) (n + 2 + k)
      | none => .truncated
  else if op = 0x68 then
    match takeImm os rest with
    | some (v, k) => .ordinary (.push os v) (n + 1 + k)
    | none => .truncated
  else if op = 0xA1 then
    match takeImm (if addr32 then .s32 else .s16) rest with
    | some (v, k) => .ordinary (.movMoffs os seg v) (n + 1 + k)
    | none => .truncated
  else if op = 0xC6 then
    match rest with
    | [] => .truncated
    | modrm :: rest' =>
      if fieldReg modrm = 0 then
        match takeRegMem addr32 modrm rest' with
        | some (d, k, imm :: _) => .ordinary (.movByte seg d imm) (n + 3 + k)
        | _ => .truncated
      else .unlisted
  else if op = 0x81 then
    match rest with
    | [] => .truncated
    | modrm :: rest' =>
      if fieldReg modrm = 4 then
        match takeRegMem addr32 modrm rest' with
        | some (d, k, rest'') =>
          match takeImm os rest'' with
          | some (v, j) => .ordinary (.and os seg d v) (n + 2 + k + j)
          | none => .truncated
        | none => .truncated
      else .unlisted
  else .unlisted

/-- The operand-size attribute: the default of the code segment, inverted by the prefix 66 (R61). -/
def operandSize (big override : Bool) : OpSize := if big != override then .s32 else .s16

/-- The instruction whose opcode comes first in the bytes, after the prefixes `p`, in a code segment whose default
size is 32 bits when `big` (R61 to R65). The bytes after ANY prefixes encode a row of the table (section 2), so LOCK and
repeat prefixes are skipped before those rows (log 13); before another opcode they make it class Other. -/
def decodeOpcode (big : Bool) (p : PrefixBytes) : List Byte → Decoded
  | [] => .truncated
  | op :: rest =>
    let os := operandSize big p.opSize
    let addr32 := big != p.addrSize
    if op = 0x0F then
      match rest with
      | [] => .truncated
      | op2 :: rest' =>
        if op2 = 0x21 then decodeMovDebug false p.count rest'
        else if op2 = 0x23 then decodeMovDebug true p.count rest'
        else .unlisted
    else if op = 0xCC then .instr .int3 (p.count + 1)
    else if op = 0xCD then
      match rest with
      | [] => .truncated
      | v :: _ => .instr (.intN v) (p.count + 2)
    else if op = 0xCE then .instr .into (p.count + 1)
    else if op = 0xCF then
      match os with
      | .s16 => .instr .iret (p.count + 1)
      | .s32 => .instr .iretd (p.count + 1)
    else if op = 0x9D then
      match os with
      | .s16 => .instr .popf (p.count + 1)
      | .s32 => .instr .popfd (p.count + 1)
    else if op = 0xEA then
      match takeFarPtr os rest with
      | some (ptr, k) => .instr (.jmpPtr ptr) (p.count + 1 + k)
      | none => .truncated
    else if op = 0x9A then
      match takeFarPtr os rest with
      | some (ptr, k) => .instr (.callPtr ptr) (p.count + 1 + k)
      | none => .truncated
    else if op = 0xFF then decodeGroupFF p.seg os addr32 p.count rest
    else if p.lockRep then .unlisted
    else decodeOrdinary p.seg os addr32 p.count op rest

/-- The instruction at the front of the bytes, in a code segment of default size 32 when `big`, else 16 (R61). -/
def decode (big : Bool) (bs : List Byte) : Decoded :=
  let (p, rest) := readPrefixes ⟨false, false, none, false, 0⟩ bs
  decodeOpcode big p rest

/-! ## The encoder -/

/-- The prefixes an operand size, an address size and a segment override need in a code segment of default size
32 when `big`. -/
def encodePrefixes (big : Bool) (os : OpSize) (addr32 : Bool) (seg : Option SegName) : List Byte :=
  (match seg with
    | some g => [overrideByte g]
    | none => [])
  ++ (if operandSize big false = os then [] else [0x66])
  ++ (if big = addr32 then [] else [0x67])

/-- Whether a memory operand needs 32-bit addressing. -/
def MemOp.addr32 : MemOp → Bool
  | .direct16 _ => false
  | .based16 _ _ => false
  | .direct32 _ => true
  | .based32 _ _ => true
  | .sib _ _ _ => true

/-- The mod field that calls for a 16-bit form's displacement. -/
def Disp16.mod : Disp16 → BitVec 2
  | .zero => 0
  | .byte _ => 1
  | .word _ => 2

/-- The bytes of a 16-bit form's displacement. -/
def Disp16.bytes : Disp16 → List Byte
  | .zero => []
  | .byte d => [d]
  | .word d => bytes16 d

/-- The mod field that calls for a 32-bit form's displacement. -/
def Disp32.mod : Disp32 → BitVec 2
  | .zero => 0
  | .byte _ => 1
  | .dword _ => 2

/-- The bytes of a 32-bit form's displacement. -/
def Disp32.bytes : Disp32 → List Byte
  | .zero => []
  | .byte d => [d]
  | .dword d => bytes32 d

/-- The SIB byte of an index and a base number. -/
def encodeSib (index : Option (Reg × Scale)) (base : BitVec 3) : Byte :=
  match index with
  | none => packByte 0 4 base
  | some (r, s) => packByte s.num r.num base

/-- The ModRM byte with reg field `n`, and what follows it, for a memory operand. -/
def encodeMem (n : BitVec 3) : MemOp → List Byte
  | .direct16 d => packByte 0 n 6 :: bytes16 d
  | .based16 b d => packByte d.mod n b.num :: d.bytes
  | .direct32 d => packByte 0 n 5 :: bytes32 d
  | .based32 b d => packByte d.mod n b.num :: d.bytes
  | .sib none index d => packByte 0 n 4 :: encodeSib index 5 :: d.bytes
  | .sib (some b) index d => packByte d.mod n 4 :: encodeSib index b.num :: d.bytes

/-- The operand size a far pointer has. -/
def FarPtr.opSize : FarPtr → OpSize
  | .ptr16 _ _ => .s16
  | .ptr32 _ _ => .s32

/-- The bytes of a far pointer: offset, then selector (R65). -/
def FarPtr.bytes : FarPtr → List Byte
  | .ptr16 off sel => bytes16 off ++ bytes16 sel
  | .ptr32 off sel => bytes32 off ++ bytes16 sel

/-- The bytes of a well-formed instruction in a code segment of default size 32 when `big` (R62 to R65). -/
def encode (big : Bool) : Instr → List Byte
  | .movFromDR r n => [0x0F, 0x21, packByte 3 n.num r.num]
  | .movToDR n r => [0x0F, 0x23, packByte 3 n.num r.num]
  | .int3 => [0xCC]
  | .intN v => [0xCD, v]
  | .into => [0xCE]
  | .iret => encodePrefixes big .s16 big none ++ [0xCF]
  | .iretd => encodePrefixes big .s32 big none ++ [0xCF]
  | .popf => encodePrefixes big .s16 big none ++ [0x9D]
  | .popfd => encodePrefixes big .s32 big none ++ [0x9D]
  | .jmpPtr p => encodePrefixes big p.opSize big none ++ 0xEA :: p.bytes
  | .jmpMem os seg m => encodePrefixes big os m.addr32 seg ++ 0xFF :: encodeMem 5 m
  | .callPtr p => encodePrefixes big p.opSize big none ++ 0x9A :: p.bytes
  | .callMem os seg m => encodePrefixes big os m.addr32 seg ++ 0xFF :: encodeMem 3 m

/-! ## The host's table words -/

/-- The longest instruction, in bytes: as many as a fetch reads (log 39). -/
def maxLength : Nat := 15

/-- The `k` bytes of a table word, the first byte of the instruction its most significant one: the order in which
spec/opcode_table.json numbers the bits of a row. -/
def tableBytesHigh : Nat → Nat → List Byte
  | 0, _ => []
  | k + 1, w => BitVec.ofNat 8 (w / 256 ^ k) :: tableBytesHigh k w

/-- The `k` bytes of a table word, the first byte of the instruction its least significant one. -/
def tableBytesLow : Nat → Nat → List Byte
  | 0, _ => []
  | k + 1, w => BitVec.ofNat 8 w :: tableBytesLow k (w / 256)

/-- The instruction that a list of bytes followed by zero bytes is, if it takes at least those bytes (16-bit default
size, the machine's after reset). -/
def decodeTableBytes (bs : List Byte) : Option Instr :=
  match decode false (bs ++ List.replicate (maxLength - bs.length) 0) with
  | .instr i len => if bs.length ≤ len then some i else none
  | _ => none

/-- The bytes of a table word in memory order. The rows' "fixed" fields number the first byte highest; a word that
is no instruction so is read with the first byte lowest (log 18). -/
def tableBytes (nbits w : Nat) : List Byte :=
  let k := (nbits + 7) / 8
  if (decodeTableBytes (tableBytesHigh k w)).isSome then tableBytesHigh k w else tableBytesLow k w

/-- The instruction the decoder reads from a table word. -/
def decodeTableWord (nbits w : Nat) : Option Instr := decodeTableBytes (tableBytes nbits w)

end Sys2Proof
end

