-- ==== Sys2Proof/Machine/Base.lean ====
section
/-! DEFINITION. The data of the base machine of 00_scope.md rule R6, as plain data: what its functions
`LinIP`, `Exec`, `HandlerKind`, `HandlerEntry` and `CPL` answer from. Only types stand here; the operations
are in Ops.lean, Flags.lean and Operands.lean. -/

namespace Sys2Proof.Machine

/-- The eight 32-bit general registers, 10_state.md rule R28. -/
structure Regs where
  eax : W32
  ecx : W32
  edx : W32
  ebx : W32
  esp : W32
  ebp : W32
  esi : W32
  edi : W32
deriving DecidableEq, Repr, Inhabited

/-- EFLAGS by its named flags (10_state.md rules R24, R25, R36). The 32-bit image that software sees is
`Flags.image` (Flags.lean); bits without a name are fixed there (log 6). -/
structure Flags where
  /-- CF, bit 0. -/
  cf : Bool
  /-- PF, bit 2. -/
  pf : Bool
  /-- AF, bit 4. -/
  af : Bool
  /-- ZF, bit 6. -/
  zf : Bool
  /-- SF, bit 7. -/
  sf : Bool
  /-- TF, the trap flag, bit 8 (R24). -/
  tf : Bool
  /-- IF, the interrupt-enable flag, bit 9 (base machine). -/
  intf : Bool
  /-- DF, bit 10. -/
  df : Bool
  /-- OF, the overflow flag that INTO tests, bit 11 (R87). -/
  ovf : Bool
  /-- IOPL, bits 13:12 (base machine). -/
  iopl : BitVec 2
  /-- NT, the nested-task flag, bit 14 (base machine, GK32). -/
  nt : Bool
  /-- RF, the resume flag, bit 16 (R25). -/
  rf : Bool
  /-- VM, the virtual-8086 flag, bit 17 (base machine). -/
  vm : Bool
deriving DecidableEq, Repr, Inhabited

/-- A segment register: its selector, the base its addresses are added to, and whether its default size is 32
bits (CS: operand size, rule R61; SS: stack pointer width). -/
structure Seg where
  sel  : W16
  base : W32
  big  : Bool
deriving DecidableEq, Repr, Inhabited

/-- A task state segment: its selector, its linear base, and whether it has the 80386 format (R6, R29). -/
structure TssRef where
  sel    : W16
  base   : W32
  is386  : Bool
deriving DecidableEq, Repr, Inhabited

/-- How control reaches a procedure handler (`HandlerEntry` of R6): its code segment, entry, privilege level,
frame width, whether entry clears IF, and the stack it gets when it is entered from a less privileged level. -/
structure Handler where
  cs       : Seg
  eip      : W32
  cpl      : BitVec 2
  wide     : Bool
  clearsIF : Bool
  ss       : Seg
  esp      : W32
deriving DecidableEq, Repr, Inhabited

/-- `HandlerKind` with its `HandlerEntry` (R6, R136): a procedure, or a task. -/
inductive Gate where
  | procedure (h : Handler)
  | task (t : TssRef)
deriving DecidableEq, Repr, Inhabited

/-- The handler installed for one vector, and the least privileged level whose INT may reach it. -/
structure GateEntry where
  vec  : Byte
  dpl  : BitVec 2
  gate : Gate
deriving DecidableEq, Repr, Inhabited

/-- What a selector names (30_encoding.md rule R65): code, data, a TSS, a task gate or a call gate. -/
inductive Desc where
  | code (base : W32) (big : Bool)
  | data (base : W32) (big : Bool)
  | tss (base : W32) (is386 : Bool)
  | taskGate (t : TssRef)
  | callGate (h : Handler)
deriving DecidableEq, Repr, Inhabited

/-- One descriptor: the selector that names it (its low two bits are ignored), its privilege level, its kind. -/
structure DescEntry where
  sel  : W16
  dpl  : BitVec 2
  desc : Desc
deriving DecidableEq, Repr, Inhabited

/-- One page of one address space: where it lies in physical memory and whether it is present
(10_state.md rule R12, 20_memory.md rules R40, R41, R52). -/
structure PageEntry where
  space   : W32
  page    : BitVec 20
  frame   : BitVec 20
  present : Bool
deriving DecidableEq, Repr, Inhabited

/-- Whether a data access reads or writes (R6). -/
inductive AccessKind where
  | read
  | write
deriving DecidableEq, Repr, Inhabited

/-- One data access of an instruction: linear address, size in bytes, kind (`c.accesses` of R6). -/
structure Access where
  addr : W32
  size : Nat
  kind : AccessKind
deriving DecidableEq, Repr, Inhabited

/-- The state of the base machine but for its memory: registers, segments, flags, privilege, mode, paging, the
current task, and the tables its answers come from. -/
structure Cpu where
  regs  : Regs
  eip   : W32
  flags : Flags
  cs    : Seg
  ss    : Seg
  ds    : Seg
  es    : Seg
  fs    : Seg
  gs    : Seg
  /-- The current privilege level in protected mode (R26). -/
  cpl   : BitVec 2
  /-- Protected mode (with VM = 1: virtual-8086 mode); otherwise real mode (R9). -/
  protectedMode : Bool
  /-- Paging enabled (R40). -/
  paging : Bool
  /-- The address space in use (the family's CR3, R41). -/
  space : W32
  /-- The linear address of the last page fault (the family's CR2). -/
  cr2   : W32
  /-- The current task (R29). -/
  task  : TssRef
  gates : List GateEntry
  descs : List DescEntry
  pages : List PageEntry
deriving DecidableEq, Repr, Inhabited

/-- An exception of the base machine (`Fault(v, info)` of R6): its vector, the error code it pushes if any, and
the linear address a page fault records. -/
structure BaseFault where
  vec  : Byte
  code : Option W32
  addr : Option W32
deriving DecidableEq, Repr, Inhabited

/-- What the base machine answers for an instruction of class Other (42 rule R104): it completes with a new base
state, bytes written at linear addresses and the data accesses it made, or it faults. -/
inductive OtherAnswer where
  | complete (cpu : Cpu) (writes : List (W32 × Byte)) (accesses : List Access)
  | fault (f : BaseFault)
deriving DecidableEq, Repr, Inhabited

/-- The arithmetic flags that a MOV to or from a debug register leaves undefined (R36). -/
structure ArithFlags where
  cf  : Bool
  pf  : Bool
  af  : Bool
  zf  : Bool
  sf  : Bool
  ovf : Bool
deriving DecidableEq, Repr, Inhabited

/-- What becomes of a data breakpoint match while neither LE nor GE is set (60 rule R121). -/
inductive ReportChoice where
  | now
  | next
  | never
deriving DecidableEq, Repr, Inhabited

end Sys2Proof.Machine
end

