-- ==== Sys2Proof/Config.lean ====
section
/-! DEFINITION. What is fixed for one machine: the bit layout of DR6, DR7, EFLAGS and the TSS in one
record (10_state.md rules R22 to R25, R29; decision D3), and the free values, opaque constants of which nothing is
known (00_scope.md rule R7, OPEN parameters and `draw`). -/

namespace Sys2Proof

/-- Bit and byte positions (R22, R23, R24, R25, R29): every rule names fields, and only this record holds numbers. -/
structure Layout where
  /-- DR6.B[n] is bit `b0 + n`. -/
  b0 : Nat
  bd : Nat
  bs : Nat
  bt : Nat
  /-- DR7.L[n] is bit `l0 + 2n`. -/
  l0 : Nat
  /-- DR7.G[n] is bit `g0 + 2n`. -/
  g0 : Nat
  le : Nat
  ge : Nat
  /-- DR7.RW[n] is the two bits from `rw0 + 4n` up. -/
  rw0 : Nat
  /-- DR7.LEN[n] is the two bits from `len0 + 4n` up. -/
  len0 : Nat
  /-- EFLAGS.TF. -/
  tf : Nat
  /-- EFLAGS.RF. -/
  rf : Nat
  /-- The byte offset of the word of a TSS whose bit 0 is the T-bit. -/
  tbit : Nat
  /-- The byte offset of the flags image of an 80386 TSS. -/
  tssFlags : Nat
deriving DecidableEq, Repr

/-- The standard layout of the 80386 (R22, R23, R24, R25, R29). -/
def Config.layout : Layout :=
  { b0 := 0, bd := 13, bs := 14, bt := 15,
    l0 := 0, g0 := 1, le := 8, ge := 9, rw0 := 16, len0 := 18, tf := 8, rf := 16,
    tbit := 0x64, tssFlags := 0x24 }

/-- `SS_AFTER_INT` (R7, R91): whether a single-step trap follows an INT that began with TF = 1. FREE (log 9). -/
opaque Config.ssAfterInt : Bool

/-- `GD_VS_GP` (R7, R123): whether general detect comes before general protection. FREE (log 9). -/
opaque Config.gdFirst : Bool

/-- `RF_ON_ENTRY` (R7, R136): whether delivery to a procedure clears EFLAGS.RF. FREE (log 9). -/
opaque Config.rfClearedOnEntry : Bool

/-- `REPORT_BOTH` (R7, R134): whether the faults of the next instruction are merged into a trap's delivery; may
differ per delivery, so it is applied to the step counter. FREE (log 9). -/
opaque Config.reportMerged : Nat → Bool

/-- The arithmetic flags after a MOV to or from a debug register (R36, D34), per step. FREE (log 8). -/
opaque Config.movDebugFlags : Nat → Machine.ArithFlags

/-- What the reserved bits of DR6 read as (R35, D4), per step. FREE (log 7). -/
opaque Config.reservedDR6 : Nat → W32

/-- What the reserved bits of DR7 read as (R35, D4), per step. FREE (log 7). -/
opaque Config.reservedDR7 : Nat → W32

/-- When the match of a data breakpoint condition is reported while `exact` is false (R121, D20): per step and
condition. FREE (log 10). -/
opaque Config.reportChoice : Nat → Fin 4 → Machine.ReportChoice

/-- Whether a report put off by one instruction is then made (R121, the second draw). FREE (log 10). -/
opaque Config.lateReport : Nat → Fin 4 → Bool

/-- What an instruction of class Other does, per step (R104, D1). FREE (log 11). -/
opaque Config.otherAnswer : Nat → Machine.OtherAnswer

/-- How many bytes an instruction of class Other has, per step (R60, N12): its length decides which bytes its fetch needs
(R56). FREE (log 11). -/
opaque Config.otherLength : Nat → Nat

/-- AF after a logical instruction (general knowledge calls it undefined), per step. FREE (log 12). -/
opaque Config.logicAF : Nat → Bool

/-- The handler of a vector that no table entry names, in protected mode (`HandlerEntry` of R6, D30). FREE (log 23). -/
opaque Config.handlerOf : Byte → Machine.Gate

/-- The base and size of a segment whose selector no descriptor names (base machine). FREE (log 27). -/
opaque Config.segmentOf : W16 → Machine.Seg

end Sys2Proof
end

