-- ==== Sys2Proof/Machine/State.lean ====
section
/-! DEFINITION. The machine's state (10_state.md; 00_scope.md rule R6), why a step can stop, and the state after
reset. -/

namespace Sys2Proof.Machine

/-- A set of breakpoint conditions, a subset of 0..3. -/
structure CondSet where
  c0 : Bool
  c1 : Bool
  c2 : Bool
  c3 : Bool
deriving DecidableEq, Repr, Inhabited

/-- The six debug registers (10_state.md rule R10). -/
structure Debug where
  dr0 : W32
  dr1 : W32
  dr2 : W32
  dr3 : W32
  /-- The debug status register (R20); its reserved bits hold what was written (R35). -/
  dr6 : W32
  /-- The debug control register (R13); its reserved bits hold what was written (R35). -/
  dr7 : W32
deriving DecidableEq, Repr, Inhabited

/-- Physical memory: the bytes that are not 0, by rising address, and the addresses a store of the machine has
written, rising (20_memory.md rules R40, R56). -/
structure Memory where
  cells   : List Host.Cell
  written : List Nat
deriving DecidableEq, Repr, Inhabited

/-- What the environment does at one instruction boundary: whether ICE-386 uses the debug registers from then on (R32),
and the external interrupt then pending (R33). -/
structure EnvInput where
  ice : Bool
  irq : Option Byte
deriving DecidableEq, Repr, Inhabited

/-- What a completed instruction tells the report point (60 rule R139 step 5): its data accesses, and whether it
was an INT 3, an INT n or a taken INTO. The MODEL's own. -/
structure Boundary where
  accesses : List Access
  isInt    : Bool
deriving DecidableEq, Repr, Inhabited

/-- The state of the machine. -/
structure State where
  /-- The base machine (R6). -/
  cpu : Cpu
  mem : Memory
  /-- DR0 to DR3, DR6, DR7. -/
  dbg : Debug
  /-- TF at the beginning of the instruction (R30). -/
  tf0 : Bool
  /-- Data breakpoint reports put off by one instruction (R31). -/
  deferred : CondSet
  /-- A task switch to an 80386 TSS with T = 1 has not been reported yet (R39). -/
  pendingBT : Bool
  /-- ICE-386 uses the debug registers (R32). -/
  iceActive : Bool
  /-- The pending external interrupt, if any (R33). -/
  extInt : Option Byte
  /-- What the environment will do, one entry an instruction boundary; the MODEL's own. -/
  inputs : List EnvInput
  /-- Whether the base machine defines the fetch of a byte a store has written (R56); the MODEL's own. -/
  coherentFetch : Bool
  /-- Whether the premise "software only writes 0 to reserved bits" is taken (R35); the MODEL's own. -/
  reservedAsWritten : Bool
  /-- The offset of the next instruction, latched before an instruction runs; the MODEL's own. -/
  nip : W32
  /-- What the report point is to look at; none between steps; the MODEL's own. -/
  boundary : Option Boundary
  /-- How many steps were taken: the argument of the free values; the MODEL's own. -/
  tick : Nat
deriving DecidableEq, Repr

/-- Why the machine stops. It has no constructor: the spec names no event that stops the processor (a debug handler
task with T = 1 is an infinite run, R131), and every exception is taken as a next state. Safe. -/
inductive Fault where
deriving DecidableEq, Repr

/-- Why the model gives a situation no meaning. -/
inductive Refusal where
  /-- Raised by no arm of `exec`: kept for an instruction without a meaning. Safe. -/
  | notModelled (mnemonic : String)
  /-- Raised by the step while some DR7.RW[n] is 10, "undefined" (R14, R44, R81; U1). Safe. -/
  | undefinedRW
  /-- Raised by the step while some DR7.LEN[n] is 10, "undefined" (R15, R81; U2). Safe. -/
  | undefinedLEN
  /-- Raised by the step while some DR7.RW[n] is 00 with LEN[n] other than 00, "undefined" (R16, R45, R81; U3). Safe. -/
  | undefinedExecuteLEN
  /-- Raised by the MOV forms that name DR4 or DR5, for which nothing is defined (R82; U7). Safe. -/
  | undefinedDebugRegister
  /-- Raised by the step for a MOV to or from a debug register whose mod field is not 11 (R62, R67; U15). Safe. -/
  | movDebugMod
  /-- Raised by the step when an instruction byte was written by a store and the base machine does not define that
  fetch (R56; U16). Safe. -/
  | writtenCodeFetched
deriving DecidableEq, Repr

/-- No breakpoint condition. -/
def CondSet.empty : CondSet := ⟨false, false, false, false⟩

/-- A segment register after reset, except CS: selector 0, base 0, 16-bit (PRESUMED the family's, log 2). -/
def Seg.zero : Seg := ⟨0, 0, false⟩

/-- The general registers after reset: EDX holds the component identifier (PRESUMED the family's, log 2). -/
def Regs.reset : Regs :=
  { eax := 0, ecx := 0, edx := 0x303, ebx := 0, esp := 0, ebp := 0, esi := 0, edi := 0 }

/-- The flags after reset: all 0, so that the image is 00000002h (PRESUMED the family's, log 2; the premise
NoSingleStepAtLaunch of R160). -/
def Flags.reset : Flags :=
  { cf := false, pf := false, af := false, zf := false, sf := false, tf := false, intf := false, df := false,
    ovf := false, iopl := 0, nt := false, rf := false, vm := false }

/-- The base machine after reset: real mode at F000:FFF0 with the code segment's base at FFFF0000h (PRESUMED the
family's, log 2). The tables of gates, descriptors and pages are empty, and the current task is at 0 with the 80386
format (`is386`): the spec says nothing of them, DESIGN CHOICE (log 44). -/
def Cpu.reset : Cpu :=
  { regs := Regs.reset, eip := 0xFFF0, flags := Flags.reset,
    cs := ⟨0xF000, 0xFFFF0000, false⟩, ss := Seg.zero, ds := Seg.zero, es := Seg.zero, fs := Seg.zero,
    gs := Seg.zero, cpl := 0, protectedMode := false, paging := false, space := 0, cr2 := 0,
    task := ⟨0, 0, true⟩, gates := [], descs := [], pages := [] }

/-- The debug registers after reset: 0 (the premises DebugDisabledAtLaunch and DR6ClearAtLaunch of R34, R160; DR7 is
the family's, GK17; log 3). -/
def Debug.reset : Debug := { dr0 := 0, dr1 := 0, dr2 := 0, dr3 := 0, dr6 := 0, dr7 := 0 }

/-- The machine right after reset. The spec states no reset value (R34, R160): the launch premises it offers and the
family's values stand for them (log 2, log 3). -/
def State.reset : State :=
  { cpu := Cpu.reset, mem := ⟨[], []⟩, dbg := Debug.reset, tf0 := false, deferred := CondSet.empty,
    pendingBT := false, iceActive := false, extInt := none, inputs := [], coherentFetch := false,
    reservedAsWritten := false, nip := 0, boundary := none, tick := 0 }

end Sys2Proof.Machine
end

