-- ==== Sys2Proof/Machine/Flags.lean ====
section
/-! DEFINITION. EFLAGS and its memory images (10_state.md rules R24, R25; 42 rules R95 to R99), the flags a
load of an image takes, and the flag results of the instructions that compute them. -/

namespace Sys2Proof.Machine

/-- The word with one bit set when `b` holds. -/
def bitAt (b : Bool) (pos : Nat) : W32 := if b then 1#32 <<< pos else 0#32

/-- The 32-bit image of EFLAGS: TF and RF where the layout has them (R24, R25), bit 1 always 1 (GK25), the other
flags where the family has them, every other bit 0 (log 6). -/
def Flags.image (f : Flags) : W32 :=
  2#32 ||| bitAt f.cf 0 ||| bitAt f.pf 2 ||| bitAt f.af 4 ||| bitAt f.zf 6 ||| bitAt f.sf 7
    ||| bitAt f.tf Config.layout.tf ||| bitAt f.intf 9 ||| bitAt f.df 10 ||| bitAt f.ovf 11
    ||| (f.iopl.setWidth 32 <<< 12) ||| bitAt f.nt 14 ||| bitAt f.rf Config.layout.rf ||| bitAt f.vm 17

/-- The flags a 32-bit image holds. -/
def Flags.ofImage (v : W32) : Flags :=
  { cf := v.getLsbD 0, pf := v.getLsbD 2, af := v.getLsbD 4, zf := v.getLsbD 6, sf := v.getLsbD 7,
    tf := v.getLsbD Config.layout.tf, intf := v.getLsbD 9, df := v.getLsbD 10, ovf := v.getLsbD 11,
    iopl := v.extractLsb' 12 2, nt := v.getLsbD 14, rf := v.getLsbD Config.layout.rf, vm := v.getLsbD 17 }

/-- The current privilege level (R26): the level in protected mode, 0 in real mode and 3 in virtual-8086 mode (R77,
D35). -/
def Cpu.privilege (c : Cpu) : BitVec 2 :=
  if c.protectedMode then (if c.flags.vm then 3 else c.cpl) else 0

/-- Virtual-8086 mode. -/
def Cpu.isV86 (c : Cpu) : Bool := c.protectedMode && c.flags.vm

/-- The default operand and address size of the code being run is 32 bits (R61): that of the code segment in protected
mode; 16 bits in real mode, and in virtual-8086 mode as the family has it (log 13). -/
def Cpu.codeBig (c : Cpu) : Bool := c.protectedMode && !c.flags.vm && c.cs.big

/-- The flags after IRET or POPF loads an image (R95, R96, R98, R99): TF always; RF from a 32-bit image only (a
16-bit image has none: unchanged); IF only when CPL ≤ IOPL and IOPL only at level 0 (the family's, log 25); VM never. -/
def loadFlags (c : Cpu) (wide : Bool) (new : Flags) : Flags :=
  { cf := new.cf, pf := new.pf, af := new.af, zf := new.zf, sf := new.sf, tf := new.tf,
    intf := if c.privilege ≤ c.flags.iopl then new.intf else c.flags.intf,
    df := new.df, ovf := new.ovf,
    iopl := if c.privilege = 0 then new.iopl else c.flags.iopl,
    nt := new.nt, rf := if wide then new.rf else c.flags.rf, vm := c.flags.vm }

/-- The flags after a MOV to or from a debug register: OF, SF, ZF, AF, PF, CF take the free values (R36, D34). -/
def Flags.withArith (f : Flags) (a : ArithFlags) : Flags :=
  { f with cf := a.cf, pf := a.pf, af := a.af, zf := a.zf, sf := a.sf, ovf := a.ovf }

/-- Even parity of the low byte (the family's PF). -/
def parityOf (v : W32) : Bool :=
  ((List.range 8).filter v.getLsbD).length % 2 == 0

/-- The sign bit of a result of a size. -/
def signOf (os : OpSize) (v : W32) : Bool :=
  match os with
  | .s16 => v.getLsbD 15
  | .s32 => v.getLsbD 31

/-- A result cut to its size, zero-extended. -/
def cut (os : OpSize) (v : W32) : W32 :=
  match os with
  | .s16 => v &&& 0xFFFF
  | .s32 => v

/-- The flags of a logical result `v` (AND, XOR): CF and OF 0, AF free (log 12). -/
def logicFlags (f : Flags) (af : Bool) (os : OpSize) (v : W32) : Flags :=
  { f with cf := false, ovf := false, af := af, zf := cut os v == 0, sf := signOf os v, pf := parityOf v }

/-- The flags of `v + 1` (INC): CF is unchanged (log 12). -/
def incFlags (f : Flags) (os : OpSize) (v : W32) : Flags :=
  { f with
    ovf := !signOf os v && signOf os (v + 1)
    af := (v &&& 0xF) == 0xF
    zf := cut os (v + 1) == 0
    sf := signOf os (v + 1)
    pf := parityOf (v + 1) }

end Sys2Proof.Machine
end

