-- ==== Sys2Proof/Machine/Match.lean ====
section
/-! DEFINITION. The fields of DR6 and DR7 (10_state.md rules R13 to R23) and breakpoint field recognition
(20_memory.md rules R42 to R45). -/

namespace Sys2Proof.Machine

/-! ## Sets of conditions -/

/-- The four breakpoint conditions. -/
def conditions : List (Fin 4) := [0, 1, 2, 3]

/-- Whether condition n is in the set. -/
def CondSet.has (c : CondSet) (n : Fin 4) : Bool :=
  match n with
  | 0 => c.c0
  | 1 => c.c1
  | 2 => c.c2
  | 3 => c.c3

/-- The conditions for which `f` holds. -/
def CondSet.collect (f : Fin 4 → Bool) : CondSet := ⟨f 0, f 1, f 2, f 3⟩

/-- The conditions of either set. -/
def CondSet.union (a b : CondSet) : CondSet := CondSet.collect fun n => a.has n || b.has n

/-! ## Fields of DR7 and DR6 -/

/-- The address register of condition n (R11). -/
def Debug.addr (d : Debug) (n : Fin 4) : W32 :=
  match n with
  | 0 => d.dr0
  | 1 => d.dr1
  | 2 => d.dr2
  | 3 => d.dr3

/-- DR7.L[n] (R13). -/
def Debug.localEnable (d : Debug) (n : Fin 4) : Bool := d.dr7.getLsbD (Config.layout.l0 + 2 * n.val)

/-- DR7.G[n] (R13). -/
def Debug.globalEnable (d : Debug) (n : Fin 4) : Bool := d.dr7.getLsbD (Config.layout.g0 + 2 * n.val)

/-- Condition n is enabled: L[n] or G[n] (R17). -/
def Debug.enabled (d : Debug) (n : Fin 4) : Bool := d.localEnable n || d.globalEnable n

/-- `exact`: LE or GE (R18). -/
def Debug.exact (d : Debug) : Bool := d.dr7.getLsbD Config.layout.le || d.dr7.getLsbD Config.layout.ge

/-- DR7.RW[n] (R14). -/
def Debug.rw (d : Debug) (n : Fin 4) : BitVec 2 := d.dr7.extractLsb' (Config.layout.rw0 + 4 * n.val) 2

/-- DR7.LEN[n] (R15). -/
def Debug.len (d : Debug) (n : Fin 4) : BitVec 2 := d.dr7.extractLsb' (Config.layout.len0 + 4 * n.val) 2

/-- The bits of DR6 that have a name (R20, R22); the others are reserved (R35). -/
def definedDR6 : W32 :=
  (0xF#32 <<< Config.layout.b0) ||| bitAt true Config.layout.bd ||| bitAt true Config.layout.bs
    ||| bitAt true Config.layout.bt

/-- The bits of DR7 that belong to the fields of condition n. -/
def definedDR7Of (n : Nat) : W32 :=
  bitAt true (Config.layout.l0 + 2 * n) ||| bitAt true (Config.layout.g0 + 2 * n)
    ||| (3#32 <<< (Config.layout.rw0 + 4 * n)) ||| (3#32 <<< (Config.layout.len0 + 4 * n))

/-- The bits of DR7 that have a name (R13, R23); the others are reserved (R35). -/
def definedDR7 : W32 :=
  definedDR7Of 0 ||| definedDR7Of 1 ||| definedDR7Of 2 ||| definedDR7Of 3
    ||| bitAt true Config.layout.le ||| bitAt true Config.layout.ge

/-- The bits of DR7 a task switch clears: L[0] to L[3] and LE (R19). -/
def localBitsDR7 : W32 :=
  bitAt true Config.layout.l0 ||| bitAt true (Config.layout.l0 + 2) ||| bitAt true (Config.layout.l0 + 4)
    ||| bitAt true (Config.layout.l0 + 6) ||| bitAt true Config.layout.le

/-- The debug registers after a task switch: L[n] and LE cleared, nothing else changed (R19). -/
def Debug.afterTaskSwitch (d : Debug) : Debug := { d with dr7 := d.dr7 &&& ~~~localBitsDR7 }

/-- What one delivery of interrupt 1 records in DR6 (R132). -/
structure Cause where
  b  : CondSet
  bd : Bool
  bs : Bool
  bt : Bool
deriving DecidableEq, Repr

/-- The DR6 bits of a cause (R22). -/
def Cause.mask (k : Cause) : W32 :=
  bitAt k.b.c0 Config.layout.b0 ||| bitAt k.b.c1 (Config.layout.b0 + 1) ||| bitAt k.b.c2 (Config.layout.b0 + 2)
    ||| bitAt k.b.c3 (Config.layout.b0 + 3) ||| bitAt k.bd Config.layout.bd ||| bitAt k.bs Config.layout.bs
    ||| bitAt k.bt Config.layout.bt

/-- DR6 after a report: the bits of the cause are OR-ed in, none is cleared (R21, R132). -/
def Debug.report (d : Debug) (k : Cause) : Debug := { d with dr6 := d.dr6 ||| k.mask }

/-! ## Undefined codes (R14, R15, R16; R81) -/

/-- Which undefined code DR7 holds in some condition, enabled or not, if any (R81, D23). -/
def Debug.undefinedCode (d : Debug) : Option Refusal :=
  if conditions.any fun n => d.rw n == 2 then some .undefinedRW
  else if conditions.any fun n => d.len n == 2 then some .undefinedLEN
  else if conditions.any fun n => d.rw n == 0 && d.len n != 0 then some .undefinedExecuteLEN
  else none

/-! ## Recognition (20_memory.md) -/

/-- `len(n) - 1` for a LEN code 00, 01 or 11 (R15): the low address bits that are masked. Code 10 is undefined and
never gets here: the step is refused first (R81). -/
def lenMask (code : BitVec 2) : W32 :=
  if code = 0 then 0 else if code = 1 then 1 else 3

/-- `base(n)`: the address with the low bits masked by the length (R42). -/
def Debug.base (d : Debug) (n : Fin 4) : W32 := d.addr n &&& ~~~lenMask (d.len n)

/-- Whether a byte address is in `field(n)` (R42): from base(n) to base(n) + len(n) - 1. -/
def Debug.inField (d : Debug) (n : Fin 4) (a : W32) : Bool :=
  d.base n ≤ a && a ≤ d.base n + lenMask (d.len n)

/-- Some byte of the access is in the field of condition n; addresses wrap modulo 2^32 (R43, D22). -/
def Debug.overlaps (d : Debug) (n : Fin 4) (a : Access) : Bool :=
  (List.range a.size).any fun i => d.inField n (a.addr + BitVec.ofNat 32 i)

/-- The kinds of access that RW[n] breaks on (R44): 01 writes, 11 reads and writes, 00 none. -/
def Debug.kindOk (d : Debug) (n : Fin 4) (a : Access) : Bool :=
  if d.rw n = 1 then a.kind == .write
  else d.rw n == 3

/-- `data_match` (R43): the access overlaps the field and is of a kind the condition breaks on. -/
def Debug.dataMatch (d : Debug) (n : Fin 4) (a : Access) : Bool := d.overlaps n a && d.kindOk n a

/-- The conditions some access of the list matches: `DB` of R119. -/
def Debug.dataMatches (d : Debug) (accesses : List Access) : CondSet :=
  CondSet.collect fun n => accesses.any (d.dataMatch n)

/-- `instr_match` (R45): an execution breakpoint at the address of the first byte of the instruction. -/
def Debug.instrMatch (d : Debug) (n : Fin 4) (linIP : W32) : Bool :=
  d.rw n == 0 && d.len n == 0 && d.addr n == linIP

/-- The conditions that match an instruction address: `IB` of R113. -/
def Debug.instrMatches (d : Debug) (linIP : W32) : CondSet := CondSet.collect fun n => d.instrMatch n linIP

/-- Some condition of the set is enabled (R17). -/
def Debug.anyEnabled (d : Debug) (c : CondSet) : Bool := conditions.any fun n => c.has n && d.enabled n

end Sys2Proof.Machine
end

