-- ==== Sys2Proof/Machine/Ops.lean ====
section
/-! DEFINITION. The named operations over memory, paging, registers, the stack, segments and tasks, and TAKING AN
EXCEPTION (60 rules R114, R132, R136) as one shared operation. -/

namespace Sys2Proof.Machine

/-! ## Physical memory (20_memory.md rule R40). An unlisted byte reads as 0 (log 5). -/

/-- The byte listed for an address, 0 where none is listed. -/
def readCells : List Host.Cell → Nat → Byte
  | [], _ => 0#8
  | (k, v) :: rest, a => if k = a then v else readCells rest a

/-- The cells with the byte at `a` set, rising and without zero bytes. -/
def putCell : List Host.Cell → Nat → Byte → List Host.Cell
  | [], a, b => if b = 0#8 then [] else [(a, b)]
  | (k, v) :: rest, a, b =>
    if k = a then (if b = 0#8 then rest else (a, b) :: rest)
    else if a < k then (if b = 0#8 then (k, v) :: rest else (a, b) :: (k, v) :: rest)
    else (k, v) :: putCell rest a b

/-- The addresses with `a` among them, rising. -/
def markAddress : List Nat → Nat → List Nat
  | [], a => [a]
  | k :: rest, a => if k = a then k :: rest else if a < k then a :: k :: rest else k :: markAddress rest a

/-- The byte at a physical address. -/
def Memory.read (m : Memory) (a : Nat) : Byte := readCells m.cells a

/-- A store of one byte: the byte changes, and the address is one that a store has written (R56). Every physical address
is plain memory, without side effects and never read-only (R50 leaves that open, N7): DESIGN CHOICE (log 41). -/
def Memory.write (m : Memory) (a : Nat) (b : Byte) : Memory :=
  { cells := putCell m.cells a b, written := markAddress m.written a }

/-- A byte placed from outside the machine (a loader): no store has written it. -/
def Memory.place (m : Memory) (a : Nat) (b : Byte) : Memory :=
  { cells := putCell m.cells a b, written := m.written.filter fun k => k != a }

/-- Whether a store has written the byte (R56). -/
def Memory.isWritten (m : Memory) (a : Nat) : Bool := m.written.any fun k => k == a

/-- Whether the addresses of the cells rise strictly, lie in the address space, and no cell holds 0. -/
def cellsWf : List Host.Cell → Bool
  | [] => true
  | [(k, v)] => k < 2 ^ 32 && v != 0#8
  | (k, v) :: (k', v') :: rest => k < k' && k < 2 ^ 32 && v != 0#8 && cellsWf ((k', v') :: rest)

/-- Whether the written addresses rise strictly and lie in the address space. -/
def writtenWf : List Nat → Bool
  | [] => true
  | [k] => k < 2 ^ 32
  | k :: k' :: rest => k < k' && k < 2 ^ 32 && writtenWf (k' :: rest)

/-- The canonical form of memory. -/
def Memory.wf (m : Memory) : Bool := cellsWf m.cells && writtenWf m.written

/-! ## Linear memory: paging (10_state.md rule R12, 20_memory.md rules R40, R41, R52) -/

/-- The entry of the page a linear address lies in, in the current address space. -/
def pageOf (c : Cpu) (a : W32) : Option PageEntry :=
  c.pages.find? fun e => e.space == c.space && e.page == a.extractLsb' 12 20

/-- The physical address of a linear address: the same when paging is disabled (R12); a page without entry maps to
itself (log 19). -/
def physical (c : Cpu) (a : W32) : Nat :=
  if c.paging then
    match pageOf c a with
    | some e => (e.frame ++ a.extractLsb' 0 12).toNat
    | none => a.toNat
  else a.toNat

/-- Whether the page of a linear address is present. -/
def pagePresent (c : Cpu) (a : W32) : Bool :=
  !c.paging ||
    match pageOf c a with
    | some e => e.present
    | none => true

/-- The byte at a linear address. -/
def readByte (c : Cpu) (m : Memory) (a : W32) : Byte := m.read (physical c a)

/-- `MemRead(a, k)` (R8): `k` bytes at a linear address, little-endian (R48), zero-extended. -/
def loadLE (c : Cpu) (m : Memory) (a : W32) : Nat → W32
  | 0 => 0
  | k + 1 => (readByte c m a).setWidth 32 ||| (loadLE c m (a + 1) k <<< 8)

/-- `MemWrite(a, k, v)` (R8): the low `k` bytes of `v` at a linear address, little-endian (R48). -/
def storeLE (c : Cpu) (m : Memory) (a : W32) : Nat → W32 → Memory
  | 0, _ => m
  | k + 1, v => storeLE c (m.write (physical c a) (v.setWidth 8)) (a + 1) k (v >>> 8)

/-- The bytes a class Other instruction answers, stored in order. -/
def storeBytes (c : Cpu) (m : Memory) : List (W32 × Byte) → Memory
  | [] => m
  | (a, b) :: rest => storeBytes c (m.write (physical c a) b) rest

/-! ## General registers (10_state.md rule R28) -/

/-- `x[r]` (R8). -/
def Regs.get (g : Regs) : Reg → W32
  | .eax => g.eax | .ecx => g.ecx | .edx => g.edx | .ebx => g.ebx
  | .esp => g.esp | .ebp => g.ebp | .esi => g.esi | .edi => g.edi

/-- `x[r] <- v` (R8). -/
def Regs.set (g : Regs) (r : Reg) (v : W32) : Regs :=
  match r with
  | .eax => { g with eax := v } | .ecx => { g with ecx := v }
  | .edx => { g with edx := v } | .ebx => { g with ebx := v }
  | .esp => { g with esp := v } | .ebp => { g with ebp := v }
  | .esi => { g with esi := v } | .edi => { g with edi := v }

/-! ## Debug registers (40 rules R75, R76, R80 to R82; 10_state.md rule R35) -/

/-- A register with reserved bits as MOV reads it (R35): its named bits as written, its reserved bits a draw; under
the premise that software only writes 0 to the reserved bits, they read as written. -/
def readReserved (premise : Bool) (v defined draw : W32) : W32 :=
  if premise && (v &&& ~~~defined) == 0 then v else (v &&& defined) ||| (draw &&& ~~~defined)

/-- The value a MOV from a debug register reads; none for DR4 and DR5 (R75, R82). -/
def readDebug (s : State) : DReg → Option W32
  | .dr0 => some s.dbg.dr0
  | .dr1 => some s.dbg.dr1
  | .dr2 => some s.dbg.dr2
  | .dr3 => some s.dbg.dr3
  | .dr4 => none
  | .dr5 => none
  | .dr6 => some (readReserved s.reservedAsWritten s.dbg.dr6 definedDR6 (Config.reservedDR6 s.tick))
  | .dr7 => some (readReserved s.reservedAsWritten s.dbg.dr7 definedDR7 (Config.reservedDR7 s.tick))

/-- The debug registers after a MOV to one of them, all 32 bits stored; none for DR4 and DR5 (R76, R80, R81, R82). -/
def writeDebug (d : Debug) (n : DReg) (v : W32) : Option Debug :=
  match n with
  | .dr0 => some { d with dr0 := v }
  | .dr1 => some { d with dr1 := v }
  | .dr2 => some { d with dr2 := v }
  | .dr3 => some { d with dr3 := v }
  | .dr4 => none
  | .dr5 => none
  | .dr6 => some { d with dr6 := v }
  | .dr7 => some { d with dr7 := v }

/-! ## The stack (the base machine's; PRESUMED the family's, log 21) -/

/-- A stack offset in the width of the stack segment: 32 bits, or 16 and then wrapping. -/
def wrapStack (c : Cpu) (off : W32) : W32 := if c.ss.big then off else off &&& 0xFFFF

/-- The offset of the top of the stack. -/
def stackTop (c : Cpu) : W32 := wrapStack c c.regs.esp

/-- The linear address of the byte `off` bytes above the top of the stack. -/
def stackAddr (c : Cpu) (off : W32) : W32 := c.ss.base + wrapStack c (stackTop c + off)

/-- The machine with the top of the stack at an offset; a 16-bit stack leaves the high half of ESP. -/
def setStackTop (c : Cpu) (off : W32) : Cpu :=
  { c with regs := { c.regs with
      esp := if c.ss.big then off else (c.regs.esp &&& 0xFFFF0000) ||| (off &&& 0xFFFF) } }

/-- The linear address of the `i`-th of several values of `k` bytes pushed from here, counting from 1. -/
def pushSlot (c : Cpu) (k i : Nat) : W32 := stackAddr c (- BitVec.ofNat 32 (k * i))

/-- The accesses of pushing `n` values of `k` bytes (log 29). -/
def pushAccesses (c : Cpu) (k n : Nat) : List Access :=
  (List.range n).map fun i => ⟨pushSlot c k (i + 1), k, .write⟩

/-- Push values of `k` bytes in order, the first at the highest address. -/
def pushAll (c : Cpu) (m : Memory) (k : Nat) : List W32 → Cpu × Memory
  | [] => (c, m)
  | v :: rest =>
    let c' := setStackTop c (stackTop c - BitVec.ofNat 32 k)
    pushAll c' (storeLE c' m (stackAddr c' 0) k v) k rest

/-- The machine after popping `n` bytes. -/
def popBytes (c : Cpu) (n : Nat) : Cpu := setStackTop c (stackTop c + BitVec.ofNat 32 n)

/-! ## Segments and descriptors (the base machine's tables, log 20) -/

/-- A segment register in real and virtual-8086 mode: base 16 times the selector. -/
def segReal (sel : W16) : Seg := ⟨sel, sel.setWidth 32 <<< 4, false⟩

/-- A selector without its low two bits (the requested privilege level). -/
def selIndex (sel : W16) : W16 := sel &&& 0xFFFC

/-- The descriptor a selector names. -/
def findDesc (c : Cpu) (sel : W16) : Option DescEntry :=
  c.descs.find? fun e => selIndex e.sel == selIndex sel

/-- A segment register loaded without a check (from a TSS or a frame, log 27): its base and size from the
descriptor; selector 0 gives base 0; a selector that no descriptor names gives a free segment. -/
def segFor (c : Cpu) (v86 : Bool) (sel : W16) : Seg :=
  if !c.protectedMode || v86 then segReal sel
  else if selIndex sel = 0 then ⟨sel, 0, false⟩
  else
    match findDesc c sel with
    | some ⟨_, _, .code b g⟩ => ⟨sel, b, g⟩
    | some ⟨_, _, .data b g⟩ => ⟨sel, b, g⟩
    | _ => { Config.segmentOf sel with sel := sel }

/-- The privilege level in the low two bits of a selector. -/
def selLevel (sel : W16) : BitVec 2 := sel.extractLsb' 0 2

/-- `LinIP(s)` (R6, R27): the linear address of the first byte of the instruction at CS:EIP. -/
def linIP (c : Cpu) : W32 := c.cs.base + c.eip

/-! ## Base faults (R6; the numbers are the family's, log 33) -/

/-- A general protection exception with an error code: vector 13 (R140, D31). -/
def gpFault (code : W32) : BaseFault := ⟨13, some code, none⟩

/-- A general protection exception about a selector: the error code is the selector without its low two bits. -/
def gpSelector (sel : W16) : BaseFault := gpFault ((selIndex sel).setWidth 32)

/-- A page fault: vector 14, its error code (bit 1 a write, bit 2 level 3) and its address (log 19). -/
def pageFault (c : Cpu) (kind : AccessKind) (a : W32) : BaseFault :=
  ⟨14, some (bitAt (kind == .write) 1 ||| bitAt (c.privilege == 3) 2), some a⟩

/-- The page fault an access takes, if a page of one of its bytes is not present. No access faults for its alignment
(R49 leaves that to the base machine, N6): DESIGN CHOICE (log 42). -/
def accessFault (c : Cpu) (a : Access) : Option BaseFault :=
  ((List.range a.size).find? fun i => !pagePresent c (a.addr + BitVec.ofNat 32 i)).map
    fun i => pageFault c a.kind (a.addr + BitVec.ofNat 32 i)

/-- The page fault the first faulting access of a list takes. -/
def accessesFault (c : Cpu) : List Access → Option BaseFault
  | [] => none
  | a :: rest =>
    match accessFault c a with
    | some f => some f
    | none => accessesFault c rest

/-! ## Task switch (42 rule R102; the TSS formats are the family's, log 27) -/

/-- Store fields (offset, size, value) of a structure at a linear address. -/
def storeFields (c : Cpu) (m : Memory) (base : W32) : List (W32 × Nat × W32) → Memory
  | [] => m
  | (off, k, v) :: rest => storeFields c (storeLE c m (base + off) k v) base rest

/-- The fields a switch saves in an outgoing 80386 TSS: the flags image lies at 24h (R29). -/
def savedFields386 (c : Cpu) (image ret : W32) : List (W32 × Nat × W32) :=
  [(0x20, 4, ret), (BitVec.ofNat 32 Config.layout.tssFlags, 4, image),
   (0x28, 4, c.regs.eax), (0x2C, 4, c.regs.ecx), (0x30, 4, c.regs.edx), (0x34, 4, c.regs.ebx),
   (0x38, 4, c.regs.esp), (0x3C, 4, c.regs.ebp), (0x40, 4, c.regs.esi), (0x44, 4, c.regs.edi),
   (0x48, 2, c.es.sel.setWidth 32), (0x4C, 2, c.cs.sel.setWidth 32), (0x50, 2, c.ss.sel.setWidth 32),
   (0x54, 2, c.ds.sel.setWidth 32), (0x58, 2, c.fs.sel.setWidth 32), (0x5C, 2, c.gs.sel.setWidth 32)]

/-- The fields a switch saves in an outgoing 80286 TSS: 16 bits each. -/
def savedFields286 (c : Cpu) (image ret : W32) : List (W32 × Nat × W32) :=
  [(0x0E, 2, ret), (0x10, 2, image),
   (0x12, 2, c.regs.eax), (0x14, 2, c.regs.ecx), (0x16, 2, c.regs.edx), (0x18, 2, c.regs.ebx),
   (0x1A, 2, c.regs.esp), (0x1C, 2, c.regs.ebp), (0x1E, 2, c.regs.esi), (0x20, 2, c.regs.edi),
   (0x22, 2, c.es.sel.setWidth 32), (0x24, 2, c.cs.sel.setWidth 32), (0x26, 2, c.ss.sel.setWidth 32),
   (0x28, 2, c.ds.sel.setWidth 32)]

/-- The outgoing task's state saved in its TSS, with a flags image and a return offset. -/
def saveTask (c : Cpu) (m : Memory) (image ret : W32) : Memory :=
  storeFields c m c.task.base
    (if c.task.is386 then savedFields386 c image ret else savedFields286 c image ret)

/-- A 16-bit field of a structure in memory. -/
def load16 (c : Cpu) (m : Memory) (a : W32) : W16 := (loadLE c m a 2).setWidth 16

/-- `ts.new_flags` (R6): the flags image of an incoming TSS. The 16-bit image of an 80286 TSS holds no RF and no VM, and is
zero-extended, so that both become 0 (DESIGN CHOICE, log 50). -/
def tssFlagsImage (c : Cpu) (m : Memory) (t : TssRef) : W32 :=
  if t.is386 then loadLE c m (t.base + BitVec.ofNat 32 Config.layout.tssFlags) 4
  else loadLE c m (t.base + 0x10) 2

/-- `ts.new_T` (R6, R29): the T-bit of an incoming TSS, 0 for a format without one. -/
def tssTrapBit (c : Cpu) (m : Memory) (t : TssRef) : Bool :=
  t.is386 && (loadLE c m (t.base + BitVec.ofNat 32 Config.layout.tbit) 2).getLsbD 0

/-- The general registers an incoming TSS holds; an 80286 TSS gives the low halves, and the high halves become 0 (DESIGN
CHOICE, log 50). -/
def tssRegs (c : Cpu) (m : Memory) (t : TssRef) : Regs :=
  if t.is386 then
    { eax := loadLE c m (t.base + 0x28) 4, ecx := loadLE c m (t.base + 0x2C) 4,
      edx := loadLE c m (t.base + 0x30) 4, ebx := loadLE c m (t.base + 0x34) 4,
      esp := loadLE c m (t.base + 0x38) 4, ebp := loadLE c m (t.base + 0x3C) 4,
      esi := loadLE c m (t.base + 0x40) 4, edi := loadLE c m (t.base + 0x44) 4 }
  else
    { eax := loadLE c m (t.base + 0x12) 2, ecx := loadLE c m (t.base + 0x14) 2,
      edx := loadLE c m (t.base + 0x16) 2, ebx := loadLE c m (t.base + 0x18) 2,
      esp := loadLE c m (t.base + 0x1A) 2, ebp := loadLE c m (t.base + 0x1C) 2,
      esi := loadLE c m (t.base + 0x1E) 2, edi := loadLE c m (t.base + 0x20) 2 }

/-- The offset of the next instruction of the task a TSS holds; that of an 80286 TSS is zero-extended (DESIGN CHOICE,
log 50). -/
def tssEip (c : Cpu) (m : Memory) (t : TssRef) : W32 :=
  if t.is386 then loadLE c m (t.base + 0x20) 4 else loadLE c m (t.base + 0x0E) 2

/-- The selector of CS that a TSS holds. -/
def tssCS (c : Cpu) (m : Memory) (t : TssRef) : W16 := load16 c m (t.base + if t.is386 then 0x4C else 0x24)

/-- The base machine with the state of an incoming task: EFLAGS is the flags image of its TSS (R102), with NT set
when the task is nested; CS:EIP is its entry point; the privilege level is that of its CS. An 80286 TSS holds no CR3: the
outgoing task's address space stays in use (DESIGN CHOICE, log 50). -/
def loadTask (c : Cpu) (m : Memory) (t : TssRef) (nested : Bool) : Cpu :=
  let f := Flags.ofImage (tssFlagsImage c m t)
  let sel (wideOff narrowOff : W32) : W16 := load16 c m (t.base + if t.is386 then wideOff else narrowOff)
  let csSel := tssCS c m t
  { c with
    regs := tssRegs c m t
    eip := tssEip c m t
    flags := { f with nt := f.nt || nested }
    es := segFor c f.vm (sel 0x48 0x22)
    cs := segFor c f.vm csSel
    ss := segFor c f.vm (sel 0x50 0x26)
    ds := segFor c f.vm (sel 0x54 0x28)
    fs := if t.is386 then segFor c f.vm (load16 c m (t.base + 0x58)) else ⟨0, 0, false⟩
    gs := if t.is386 then segFor c f.vm (load16 c m (t.base + 0x5C)) else ⟨0, 0, false⟩
    cpl := selLevel csSel
    space := if t.is386 then loadLE c m (t.base + 0x1C) 4 else c.space
    task := t }

/-- The memory after the outgoing task is saved and, for a nested switch, the link to it is stored in the incoming
TSS. -/
def taskSwitchMemory (c : Cpu) (m : Memory) (t : TssRef) (nested : Bool) (image ret : W32) : Memory :=
  let m' := saveTask c m image ret
  if nested then storeLE c m' t.base 2 (c.task.sel.setWidth 32) else m'

/-- The bytes a task switch stores to and reads (log 27): the saved fields of the outgoing TSS, the link of a nested
switch, and the incoming TSS, 68h bytes in the 80386 format and 2Ch in the 80286 format. No data breakpoint is matched
against them (R44, D26). -/
def switchAccesses (c : Cpu) (t : TssRef) (nested : Bool) : List Access :=
  ((if c.task.is386 then savedFields386 c 0 0 else savedFields286 c 0 0).map
    fun f => ⟨c.task.base + f.1, f.2.1, .write⟩)
  ++ (if nested then [⟨t.base, 2, .write⟩] else [])
  ++ [⟨t.base, if t.is386 then 0x68 else 0x2C, .read⟩]

/-- A completed task switch (R102): the outgoing task is saved with a flags image and a return offset, EFLAGS
is loaded from the incoming TSS, L[n] and LE are cleared (R19), and a set T-bit of an 80386 TSS is to be reported
(R130). Both TSSs are stored to and read through the outgoing task's page mapping; the incoming task's address space is
in use from its first instruction on (PRESUMED, log 27; R52 leaves translation to the base machine). -/
def switchTask (t : TssRef) (nested : Bool) (image ret : W32) (s : State) : State :=
  let m := taskSwitchMemory s.cpu s.mem t nested image ret
  { s with
    cpu := loadTask s.cpu m t nested
    mem := m
    dbg := s.dbg.afterTaskSwitch
    pendingBT := s.pendingBT || tssTrapBit s.cpu m t }

/-! ## Taking an exception or interrupt (60 rule R136) -/

/-- The class of a delivery (R136). `merged` is a trap that also reports faults of the next instruction (R134). -/
inductive Delivery where
  | fault
  | trap
  | merged
  | interrupt
deriving DecidableEq, Repr

/-- RF of the saved flags image (R114, R134): set for a fault and for a merged report, else as it is in EFLAGS. -/
def Delivery.imageRF (k : Delivery) (rf : Bool) : Bool :=
  match k with
  | .fault => true
  | .merged => true
  | .trap => rf
  | .interrupt => rf

/-- The flags whose image is saved. -/
def savedFlags (k : Delivery) (f : Flags) : Flags := { f with rf := k.imageRF f.rf }

/-- The handler of a vector in real mode, from the vector table at address 0 (the family's, log 21). -/
def realModeHandler (c : Cpu) (m : Memory) (v : Byte) : Handler :=
  let a : W32 := v.setWidth 32 <<< 2
  { cs := segReal (load16 c m (a + 2)), eip := loadLE c m a 2, cpl := 0, wide := false, clearsIF := true,
    ss := Seg.zero, esp := 0 }

/-- The table entry of a vector. -/
def gateEntry (c : Cpu) (v : Byte) : Option GateEntry := c.gates.find? fun e => e.vec == v

/-- `HandlerKind(v)` and `HandlerEntry(s, v)` (R6): the installed gate, a free handler where none is (log 23); in real
mode the vector table, whose handlers are 16-bit procedures, so that IP and FLAGS are saved as words (R27, R114). -/
def gateOf (c : Cpu) (m : Memory) (v : Byte) : Gate :=
  if c.protectedMode then
    match gateEntry c v with
    | some e => e.gate
    | none => Config.handlerOf v
  else .procedure (realModeHandler c m v)

/-- Entering the handler switches to its own stack: it is more privileged, or entered from virtual-8086 mode. -/
def switchesStack (c : Cpu) (h : Handler) : Bool := c.protectedMode && (c.flags.vm || h.cpl < c.cpl)

/-- The values pushed on entry to a procedure handler, the first at the highest address: the segment registers of
virtual-8086 mode, SS and ESP when the stack is switched, the flags image, CS, EIP, and an error code outside
real mode (R136, 42 R95, GK12, GK32; log 21). -/
def entryFrame (c : Cpu) (h : Handler) (image ret : W32) (code : Option W32) : List W32 :=
  (if c.isV86 then
    [c.gs.sel.setWidth 32, c.fs.sel.setWidth 32, c.ds.sel.setWidth 32, c.es.sel.setWidth 32] else [])
  ++ (if switchesStack c h then [c.ss.sel.setWidth 32, c.regs.esp] else [])
  ++ [image, c.cs.sel.setWidth 32, ret]
  ++ (match code with
    | some v => if c.protectedMode then [v] else []
    | none => [])

/-- The machine whose stack the entry frame is pushed on. -/
def entryStack (c : Cpu) (h : Handler) : Cpu :=
  if switchesStack c h then { c with ss := h.ss, regs := { c.regs with esp := h.esp } } else c

/-- The width in bytes of an entry frame's values. -/
def frameWidth (h : Handler) : Nat := if h.wide then 4 else 2

/-- The flags in a procedure handler (R136): TF cleared (R125, R127, R88), RF cleared or not as the OPEN parameter
`RF_ON_ENTRY` says, IF cleared by an interrupt gate, NT and VM cleared in protected mode (log 21). -/
def entryFlags (c : Cpu) (h : Handler) : Flags :=
  { c.flags with
    tf := false
    rf := if Config.rfClearedOnEntry then false else c.flags.rf
    intf := if h.clearsIF then false else c.flags.intf
    nt := if c.protectedMode then false else c.flags.nt
    vm := false }

/-- Enter a procedure handler: push the frame, set the flags, go to the entry point (R136). The handler of an exception
or an external interrupt that is less privileged than the current level is entered at the current level: DESIGN CHOICE
(log 22); a software interrupt takes a fault there before this runs (`handlerFault`). -/
def enterProcedure (h : Handler) (k : Delivery) (ret : W32) (code : Option W32) (s : State) : State :=
  let c := s.cpu
  let frame := entryFrame c h (savedFlags k c.flags).image ret code
  let p := pushAll (entryStack c h) s.mem (frameWidth h) frame
  { s with
    cpu := { p.1 with
      cs := h.cs
      eip := h.eip
      cpl := if switchesStack c h then h.cpl else c.cpl
      flags := entryFlags c h
      ds := if c.isV86 then Seg.zero else c.ds
      es := if c.isV86 then Seg.zero else c.es
      fs := if c.isV86 then Seg.zero else c.fs
      gs := if c.isV86 then Seg.zero else c.gs }
    mem := p.2 }

/-- Enter a handler that is a task (R136): a nested task switch with the image and return offset saved in the
outgoing TSS. An error code, of which R136 says nothing in this case, is pushed on the new task's stack, as a doubleword
for an 80386 TSS and a word for an 80286 one (PRESUMED, the family's, log 47). -/
def enterTask (t : TssRef) (k : Delivery) (ret : W32) (code : Option W32) (s : State) : State :=
  let s' := switchTask t true (savedFlags k s.cpu.flags).image ret s
  match code with
  | none => s'
  | some v =>
    let p := pushAll s'.cpu s'.mem (if t.is386 then 4 else 2) [v]
    { s' with cpu := p.1, mem := p.2 }

/-- `Deliver(v, class, ret)` (R136): save the flags image and CS:ret, enter the handler of the vector. A fault drops
the deferred data breakpoint reports (R121). -/
def deliver (v : Byte) (k : Delivery) (ret : W32) (code : Option W32) (s : State) : State :=
  let s' : State := { s with deferred := if k = .fault then CondSet.empty else s.deferred }
  match gateOf s.cpu s.mem v with
  | .procedure h => enterProcedure h k ret code s'
  | .task t => enterTask t k ret code s'

/-- Take a base fault of the instruction at CS:EIP (R114): nothing of the instruction is done, and there is no
boundary at which traps are reported. -/
def raise (f : BaseFault) (s : State) : State :=
  deliver f.vec .fault s.cpu.eip f.code
    { s with
      boundary := none
      cpu := match f.addr with
        | some a => { s.cpu with cr2 := a }
        | none => s.cpu }

/-! ## Completion (60 rule R116) -/

/-- The instruction completed with these accesses: the report point is to look at it. -/
def complete (accesses : List Access) (s : State) : State :=
  { s with boundary := some ⟨accesses, false⟩ }

/-- The machine with RF as given. -/
def Cpu.setRF (c : Cpu) (rf : Bool) : Cpu := { c with flags := { c.flags with rf := rf } }

/-- The completion of an ordinary instruction: EIP advances and RF is cleared (R116). -/
def retire (accesses : List Access) (s : State) : State :=
  complete accesses { s with cpu := { s.cpu with eip := s.nip }.setRF false }

/-- The state `done` if the accesses of the instruction can be made, else the page fault. -/
def attempt (accesses : List Access) (s done : State) : State :=
  match accessesFault s.cpu accesses with
  | some f => raise f s
  | none => done

end Sys2Proof.Machine
end

