-- ==== Sys2Proof/Machine/Operands.lean ====
section
/-! DEFINITION. Operand forms: the linear address of a memory operand, far pointers in memory, register and
memory operands of the ordinary instructions (30_encoding.md rules R62, R65, R66; the addressing forms are the
family's, log 13). -/

namespace Sys2Proof.Machine

/-- The segment register with a name. -/
def Cpu.seg (c : Cpu) : SegName → Seg
  | .es => c.es | .cs => c.cs | .ss => c.ss | .ds => c.ds | .fs => c.fs | .gs => c.gs

/-- The value of a 16-bit displacement: a byte is sign-extended. -/
def disp16Value : Disp16 → W32
  | .zero => 0
  | .byte d => d.signExtend 32
  | .word d => d.setWidth 32

/-- The value of a 32-bit displacement: a byte is sign-extended. -/
def disp32Value : Disp32 → W32
  | .zero => 0
  | .byte d => d.signExtend 32
  | .dword d => d

/-- The sum of the registers of a 16-bit base. -/
def base16Value (g : Regs) : Base16 → W32
  | .bxsi => g.ebx + g.esi
  | .bxdi => g.ebx + g.edi
  | .bpsi => g.ebp + g.esi
  | .bpdi => g.ebp + g.edi
  | .si => g.esi
  | .di => g.edi
  | .bp => g.ebp
  | .bx => g.ebx

/-- An index register, scaled. -/
def indexValue (g : Regs) : Option (Reg × Scale) → W32
  | none => 0
  | some (r, s) => g.get r <<< s.num.toNat

/-- The offset of a memory operand in its segment; 16-bit addressing wraps at 64 K. -/
def memOffset (g : Regs) : MemOp → W32
  | .direct16 d => d.setWidth 32
  | .based16 b d => (base16Value g b + disp16Value d) &&& 0xFFFF
  | .direct32 d => d
  | .based32 b d => g.get b + disp32Value d
  | .sib none i d => indexValue g i + disp32Value d
  | .sib (some b) i d => g.get b + indexValue g i + disp32Value d

/-- The segment a memory operand is in without an override: SS for BP, EBP and ESP bases, else DS. -/
def defaultSeg : MemOp → SegName
  | .based16 .bpsi _ => .ss
  | .based16 .bpdi _ => .ss
  | .based16 .bp _ => .ss
  | .based32 .ebp _ => .ss
  | .sib (some .esp) _ _ => .ss
  | .sib (some .ebp) _ _ => .ss
  | _ => .ds

/-- The linear address of a memory operand. -/
def memAddr (c : Cpu) (seg : Option SegName) (m : MemOp) : W32 :=
  (c.seg (seg.getD (defaultSeg m))).base + memOffset c.regs m

/-- The number of bytes of an operand size. -/
def opBytes : OpSize → Nat
  | .s16 => 2
  | .s32 => 4

/-- The offset of a far pointer in the instruction, zero-extended (PRESUMED, the family's, log 49). -/
def farOffset : FarPtr → W32
  | .ptr16 off _ => off.setWidth 32
  | .ptr32 off _ => off

/-- The selector of a far pointer in the instruction. -/
def farSelector : FarPtr → W16
  | .ptr16 _ sel => sel
  | .ptr32 _ sel => sel

/-- The accesses that read a far pointer at a linear address: the offset, then the selector (log 29). -/
def farPtrAccesses (os : OpSize) (a : W32) : List Access :=
  [⟨a, (opBytes os), .read⟩, ⟨a + BitVec.ofNat 32 (opBytes os), 2, .read⟩]

/-- The offset of a far pointer in memory: it lies at the lower address, and a 16-bit one is zero-extended (PRESUMED, the
family's, log 49; R65 and R66 leave the operand to the base machine). -/
def farPtrOffset (c : Cpu) (m : Memory) (os : OpSize) (a : W32) : W32 := loadLE c m a (opBytes os)

/-- The selector of a far pointer in memory, above the offset (PRESUMED, the family's, log 49). -/
def farPtrSelector (c : Cpu) (m : Memory) (os : OpSize) (a : W32) : W16 :=
  load16 c m (a + BitVec.ofNat 32 (opBytes os))

/-! ## Operands of the ordinary instructions (log 12) -/

/-- A register with its low half or all of it replaced. -/
def setSized (g : Regs) (os : OpSize) (r : Reg) (v : W32) : Regs :=
  match os with
  | .s16 => g.set r ((g.get r &&& 0xFFFF0000) ||| (v &&& 0xFFFF))
  | .s32 => g.set r v

/-- An 8-bit register: numbers 0 to 3 are the low bytes of EAX, ECX, EDX, EBX, and 4 to 7 their second bytes. -/
def setByteReg (g : Regs) (r : Reg) (b : Byte) : Regs :=
  if r.num.toNat < 4 then g.set r ((g.get r &&& 0xFFFFFF00) ||| b.setWidth 32)
  else
    let r' := Reg.ofNum (r.num - 4)
    g.set r' ((g.get r' &&& 0xFFFF00FF) ||| (b.setWidth 32 <<< 8))

/-- The value of a register or memory operand. -/
def readRegMem (s : State) (os : OpSize) (seg : Option SegName) : RegMem → W32
  | .reg r => cut os (s.cpu.regs.get r)
  | .mem m => loadLE s.cpu s.mem (memAddr s.cpu seg m) (opBytes os)

/-- The machine with a register or memory operand written. -/
def writeRegMem (s : State) (os : OpSize) (seg : Option SegName) (v : W32) : RegMem → State
  | .reg r => { s with cpu := { s.cpu with regs := setSized s.cpu.regs os r v } }
  | .mem m => { s with mem := storeLE s.cpu s.mem (memAddr s.cpu seg m) (opBytes os) v }

/-- The accesses of reading and then writing a register or memory operand (20_memory.md rule R44). -/
def updateAccesses (c : Cpu) (os : OpSize) (seg : Option SegName) : RegMem → List Access
  | .reg _ => []
  | .mem m => [⟨memAddr c seg m, (opBytes os), .read⟩, ⟨memAddr c seg m, (opBytes os), .write⟩]

end Sys2Proof.Machine
end

