-- ==== Sys2Proof/Machine/FarTransfer.lean ====
section
/-! DEFINITION. Far JMP and CALL (42 rules R100, R101, R102, R103): a task switch when the selector names a TSS or
a task gate, otherwise an ordinary far transfer, class Other for the debug rules. Selectors, gates and frames are the
family's (log 28). -/

namespace Sys2Proof.Machine

/-- Where a far transfer goes. -/
inductive FarKind where
  /-- It is not allowed: a base fault. -/
  | faults (f : BaseFault)
  /-- Real or virtual-8086 mode. -/
  | real
  /-- To a code segment at the same privilege level. -/
  | direct (cs : Seg)
  /-- A task switch (R100, R101). -/
  | task (t : TssRef)
  /-- Through a call gate. -/
  | gate (h : Handler)
deriving DecidableEq, Repr

/-- Whether a gate or TSS descriptor of level `dpl` may be used with a selector from the current level. -/
def mayUse (c : Cpu) (sel : W16) (dpl : BitVec 2) : Bool := c.cpl ≤ dpl && selLevel sel ≤ dpl

/-- What a far selector leads to (R65): a JMP may not change the privilege level. -/
def farKind (c : Cpu) (sel : W16) (isCall : Bool) : FarKind :=
  if !c.protectedMode || c.flags.vm then .real
  else if selIndex sel = 0 then .faults (gpFault 0)
  else
    match findDesc c sel with
    | none => .faults (gpSelector sel)
    | some ⟨_, dpl, .code b g⟩ =>
      if dpl = c.cpl && selLevel sel ≤ c.cpl then .direct ⟨selIndex sel ||| c.cpl.setWidth 16, b, g⟩
      else .faults (gpSelector sel)
    | some ⟨_, _, .data _ _⟩ => .faults (gpSelector sel)
    | some ⟨_, dpl, .tss b is386⟩ =>
      if mayUse c sel dpl then .task ⟨selIndex sel, b, is386⟩ else .faults (gpSelector sel)
    | some ⟨_, dpl, .taskGate t⟩ =>
      if mayUse c sel dpl then .task t else .faults (gpSelector sel)
    | some ⟨_, dpl, .callGate h⟩ =>
      if mayUse c sel dpl then
        if h.cpl = c.cpl || (isCall && h.cpl < c.cpl) then .gate h else .faults (gpSelector h.cs.sel)
      else .faults (gpSelector sel)

/-- The machine at the target of a far transfer that does not switch tasks, with RF cleared at completion (R116). TF
is unchanged, also where the privilege level changes (R103). -/
def enterFar (c : Cpu) (cs : Seg) (eip : W32) (cpl : BitVec 2) : Cpu :=
  { c with cs := cs, eip := eip, cpl := cpl }.setRF false

/-- A far JMP or CALL that switches tasks (R100, R101): an absent page of a TSS faults first, and the outgoing TSS gets
the flags image as the instruction found it, RF included (R102 speaks of faults alone: DESIGN CHOICE, log 45). -/
def farTaskSwitch (accesses : List Access) (t : TssRef) (nested : Bool) (s : State) : State :=
  attempt (switchAccesses s.cpu t nested) s (complete accesses (switchTask t nested s.cpu.flags.image s.nip s))

/-- The state after a far JMP whose operand was read with these accesses. -/
def jumpDone (accesses : List Access) (sel : W16) (off : W32) (s : State) : State :=
  match farKind s.cpu sel false with
  | .faults f => raise f s
  | .real => complete accesses { s with cpu := enterFar s.cpu (segReal sel) off s.cpu.cpl }
  | .direct cs => complete accesses { s with cpu := enterFar s.cpu cs off s.cpu.cpl }
  | .task t => farTaskSwitch accesses t false s
  | .gate h => complete accesses { s with cpu := enterFar s.cpu h.cs h.eip s.cpu.cpl }

/-- A far JMP. -/
def farJump (accesses : List Access) (sel : W16) (off : W32) (s : State) : State :=
  attempt accesses s (jumpDone accesses sel off s)

/-- A far CALL that pushes: the return address, after SS and ESP where a gate switches the stack, then the transfer. -/
def callPush (accesses : List Access) (stack : Cpu) (k : Nat) (values : List W32) (cs : Seg) (eip : W32)
    (cpl : BitVec 2) (s : State) : State :=
  let p := pushAll stack s.mem k values
  let all := accesses ++ pushAccesses stack k values.length
  attempt all s (complete all { s with cpu := enterFar p.1 cs eip cpl, mem := p.2 })

/-- The state after a far CALL whose operand was read with these accesses. -/
def callDone (os : OpSize) (accesses : List Access) (sel : W16) (off : W32) (s : State) : State :=
  let ret : List W32 := [s.cpu.cs.sel.setWidth 32, s.nip]
  match farKind s.cpu sel true with
  | .faults f => raise f s
  | .real => callPush accesses s.cpu (opBytes os) ret (segReal sel) off s.cpu.cpl s
  | .direct cs => callPush accesses s.cpu (opBytes os) ret cs off s.cpu.cpl s
  | .task t => farTaskSwitch accesses t true s
  | .gate h =>
    callPush accesses (entryStack s.cpu h) (frameWidth h)
      ((if switchesStack s.cpu h then [s.cpu.ss.sel.setWidth 32, s.cpu.regs.esp] else []) ++ ret)
      h.cs h.eip h.cpl s

/-- A far CALL. -/
def farCall (os : OpSize) (accesses : List Access) (sel : W16) (off : W32) (s : State) : State :=
  attempt accesses s (callDone os accesses sel off s)

/-- `JMP ptr16:16` or `JMP ptr16:32` (R100). -/
def execJmpPtr (p : FarPtr) (s : State) : Host.Outcome State Fault Refusal :=
  .next (farJump [] (farSelector p) (farOffset p) s)

/-- `JMP m16:16` or `JMP m16:32` (R100). -/
def execJmpMem (os : OpSize) (seg : Option SegName) (m : MemOp) (s : State) : Host.Outcome State Fault Refusal :=
  let a := memAddr s.cpu seg m
  .next (farJump (farPtrAccesses os a) (farPtrSelector s.cpu s.mem os a) (farPtrOffset s.cpu s.mem os a) s)

/-- `CALL ptr16:16` or `CALL ptr16:32` (R101). -/
def execCallPtr (p : FarPtr) (s : State) : Host.Outcome State Fault Refusal :=
  .next (farCall p.opSize [] (farSelector p) (farOffset p) s)

/-- `CALL m16:16` or `CALL m16:32` (R101). -/
def execCallMem (os : OpSize) (seg : Option SegName) (m : MemOp) (s : State) : Host.Outcome State Fault Refusal :=
  let a := memAddr s.cpu seg m
  .next (farCall os (farPtrAccesses os a) (farPtrSelector s.cpu s.mem os a) (farPtrOffset s.cpu s.mem os a) s)

end Sys2Proof.Machine
end

