-- ==== Sys2Proof/Machine/FlagLoading.lean ====
section
/-! DEFINITION. IRET, IRETD, POPF, POPFD (42 rules R95 to R99): the return from an exception and the loads of a
flags image. What the rules leave to the base machine is the family's (logs 25, 26). -/

namespace Sys2Proof.Machine

/-- The access that reads `k` bytes, `off` bytes above the top of the stack. -/
def stackRead (c : Cpu) (off k : Nat) : Access := ⟨stackAddr c (BitVec.ofNat 32 off), k, .read⟩

/-- The value `k` bytes wide, `off` bytes above the top of the stack. -/
def stackValue (s : State) (off k : Nat) : W32 := loadLE s.cpu s.mem (stackAddr s.cpu (BitVec.ofNat 32 off)) k

/-- The flags image of a frame whose values are `k` bytes wide (R95: at +8; R96: at +4). -/
def frameFlags (s : State) (k : Nat) : Flags := Flags.ofImage (stackValue s (2 * k) k)

/-- The selector of CS in a frame (R95: the low word at +4; R96: at +2). -/
def frameCS (s : State) (k : Nat) : W16 := (stackValue s k k).setWidth 16

/-- What a return from an interrupt does, by the mode, NT and the frame. -/
inductive ReturnKind where
  /-- The return is not possible: a base fault. -/
  | faults (f : BaseFault)
  /-- NT = 1 in protected mode: a switch back to the linked task (R97). -/
  | taskReturn (t : TssRef)
  /-- Real or virtual-8086 mode. -/
  | real
  /-- To virtual-8086 mode, from level 0. -/
  | toV86
  /-- Protected mode, to the same privilege level. -/
  | same (cs : Seg)
  /-- Protected mode, to a less privileged level: SS and ESP are popped too (GK32). -/
  | outer (cs : Seg)
deriving DecidableEq, Repr

/-- The task a nested task is linked to, or the fault that its link names no TSS. -/
def taskLink (s : State) : ReturnKind :=
  let link := load16 s.cpu s.mem s.cpu.task.base
  match findDesc s.cpu link with
  | some ⟨_, _, .tss b is386⟩ => .taskReturn ⟨link, b, is386⟩
  | _ => .faults ⟨10, some ((selIndex link).setWidth 32), none⟩

/-- The return to the code segment a frame's CS names, in protected mode. -/
def protectedReturn (s : State) (sel : W16) : ReturnKind :=
  match findDesc s.cpu sel with
  | some ⟨_, dpl, .code b g⟩ =>
    if selIndex sel = 0 then .faults (gpFault 0)
    else if selLevel sel = s.cpu.cpl && dpl == s.cpu.cpl then .same ⟨sel, b, g⟩
    else if s.cpu.cpl < selLevel sel && dpl == selLevel sel then .outer ⟨sel, b, g⟩
    else .faults (gpSelector sel)
  | _ => .faults (gpSelector sel)

/-- What an IRET with values of `k` bytes does (log 25). -/
def returnKind (s : State) (k : Nat) : ReturnKind :=
  if !s.cpu.protectedMode then .real
  else if s.cpu.flags.vm then
    if s.cpu.flags.iopl = 3 then .real else .faults (gpFault 0)
  else if s.cpu.flags.nt then taskLink s
  else if k = 4 && (frameFlags s k).vm && s.cpu.cpl == 0 then .toV86
  else protectedReturn s (frameCS s k)

/-- The three reads of a frame: EIP, CS, EFLAGS from the lowest address (R95, R96). -/
def frameReads (c : Cpu) (k : Nat) : List Access := [stackRead c 0 k, stackRead c k k, stackRead c (2 * k) k]

/-- The base fault a return takes, if any. In virtual-8086 mode IOPL is checked before the stack is read, as POPF does
(log 25). A return through the task link reads no frame, but the link and the two TSSs. Every other return reads the
frame before its selector is checked. -/
def returnFault (s : State) (k : Nat) : Option BaseFault :=
  if s.cpu.isV86 && s.cpu.flags.iopl != 3 then some (gpFault 0)
  else if s.cpu.protectedMode && !s.cpu.flags.vm && s.cpu.flags.nt then
    match accessesFault s.cpu [⟨s.cpu.task.base, 2, .read⟩] with
    | some f => some f
    | none =>
      match returnKind s k with
      | .faults f => some f
      | .taskReturn t => accessesFault s.cpu (switchAccesses s.cpu t false)
      | _ => none
  else
    match accessesFault s.cpu (frameReads s.cpu k) with
    | some f => some f
    | none =>
      match returnKind s k with
      | .faults f => some f
      | .outer _ => accessesFault s.cpu [stackRead s.cpu (3 * k) k, stackRead s.cpu (4 * k) k]
      | .toV86 => accessesFault s.cpu ([3, 4, 5, 6, 7, 8].map fun i => stackRead s.cpu (4 * i) 4)
      | _ => none

/-- The machine with CS:EIP and the flags of a frame loaded and the frame popped. RF is the image's for a 32-bit
frame and unchanged for a 16-bit one, and is not cleared at completion (R95, R96, R116). -/
def loadFrame (s : State) (k : Nat) (cs : Seg) : Cpu :=
  { popBytes s.cpu (3 * k) with
    eip := stackValue s 0 k
    cs := cs
    flags := loadFlags s.cpu (k == 4) (frameFlags s k) }

/-- A return to a less privileged level: SS and ESP come from the frame (GK32). The 16-bit form clears the high half of
ESP, of which the spec says nothing (DESIGN CHOICE, log 48). -/
def loadOuterFrame (s : State) (k : Nat) (cs : Seg) : Cpu :=
  let sel : W16 := (stackValue s (4 * k) k).setWidth 16
  { loadFrame s k cs with
    ss := segFor s.cpu false sel
    regs := { s.cpu.regs with esp := stackValue s (3 * k) k }
    cpl := selLevel cs.sel }

/-- A return to virtual-8086 mode: all flags, ESP, SS, ES, DS, FS, GS come from the frame (log 25). -/
def loadV86Frame (s : State) : Cpu :=
  let sel (i : Nat) : W16 := (stackValue s (4 * i) 4).setWidth 16
  { s.cpu with
    eip := stackValue s 0 4
    cs := segReal (sel 1)
    flags := frameFlags s 4
    regs := { s.cpu.regs with esp := stackValue s 12 4 }
    ss := segReal (sel 4)
    es := segReal (sel 5)
    ds := segReal (sel 6)
    fs := segReal (sel 7)
    gs := segReal (sel 8)
    cpl := 3 }

/-- The state after a return that takes no fault (R95 to R97). A return through the task link saves the outgoing
flags with NT cleared and RF as the instruction found it (DESIGN CHOICE, log 45). -/
def returnDone (s : State) (k : Nat) : State :=
  match returnKind s k with
  | .faults f => raise f s
  | .taskReturn t =>
    complete [] (switchTask t false { s.cpu.flags with nt := false }.image s.nip s)
  | .real => complete (frameReads s.cpu k) { s with cpu := loadFrame s k (segReal (frameCS s k)) }
  | .toV86 =>
    complete (frameReads s.cpu 4 ++ [3, 4, 5, 6, 7, 8].map fun i => stackRead s.cpu (4 * i) 4)
      { s with cpu := loadV86Frame s }
  | .same cs => complete (frameReads s.cpu k) { s with cpu := loadFrame s k cs }
  | .outer cs =>
    complete (frameReads s.cpu k ++ [stackRead s.cpu (3 * k) k, stackRead s.cpu (4 * k) k])
      { s with cpu := loadOuterFrame s k cs }

/-- The return from an exception with a frame of `k`-byte values. -/
def interruptReturn (k : Nat) (s : State) : State :=
  match returnFault s k with
  | some f => raise f s
  | none => returnDone s k

/-- `IRET`, 16-bit (R96, R97): IP, CS and FLAGS are words; RF is not affected. -/
def execIret (s : State) : Host.Outcome State Fault Refusal := .next (interruptReturn 2 s)

/-- `IRETD`, 32-bit (R95, R97): EIP, CS and EFLAGS are doublewords; RF comes from the image. -/
def execIretd (s : State) : Host.Outcome State Fault Refusal := .next (interruptReturn 4 s)

/-- The state after a pop of a flags image of `k` bytes: TF from the image, RF from a 32-bit image and unchanged by a
16-bit one, not cleared at completion (R98, R99, R116). -/
def popFlagsDone (k : Nat) (s : State) : State :=
  complete [stackRead s.cpu 0 k]
    { s with cpu :=
      { popBytes s.cpu k with
        eip := s.nip
        flags := loadFlags s.cpu (k == 4) (Flags.ofImage (stackValue s 0 k)) } }

/-- A pop of a flags image of `k` bytes; virtual-8086 mode needs IOPL 3 (log 26). -/
def popFlags (k : Nat) (s : State) : State :=
  if s.cpu.isV86 && s.cpu.flags.iopl != 3 then raise (gpFault 0) s
  else attempt [stackRead s.cpu 0 k] s (popFlagsDone k s)

/-- `POPF`, 16-bit (R99). -/
def execPopf (s : State) : Host.Outcome State Fault Refusal := .next (popFlags 2 s)

/-- `POPFD`, 32-bit (R98). -/
def execPopfd (s : State) : Host.Outcome State Fault Refusal := .next (popFlags 4 s)

end Sys2Proof.Machine
end

