-- ==== Sys2Proof/Machine/Interrupts.lean ====
section
/-! DEFINITION. INT 3, INT n and INTO (41 rules R85 to R91). -/

namespace Sys2Proof.Machine

/-- The base fault of a software interrupt at its gate (R85): the gate is not for this privilege level, or, where
`needsIOPL`, virtual-8086 mode with IOPL below 3 (the family's, log 24). -/
def gateFault (c : Cpu) (v : Byte) (needsIOPL : Bool) : Option BaseFault :=
  if needsIOPL && c.isV86 && c.flags.iopl != 3 then some (gpFault 0)
  else
    match gateEntry c v with
    | some e =>
      if c.protectedMode && e.dpl < c.privilege then some (gpFault (v.setWidth 32 <<< 3 ||| 2)) else none
    | none => none

/-- The base fault of a software interrupt on its way into the handler (R85, R86): a procedure that is less privileged
than the current level, or not at level 0 from virtual-8086 mode; else an absent page of the pushed frame or of the two
TSSs (the family's, log 24). -/
def handlerFault (c : Cpu) (g : Gate) : Option BaseFault :=
  match g with
  | .procedure h =>
    if c.protectedMode && (if c.flags.vm then h.cpl != 0 else c.cpl < h.cpl) then some (gpSelector h.cs.sel)
    else accessesFault c (pushAccesses (entryStack c h) (frameWidth h) (entryFrame c h 0 0 none).length)
  | .task t => accessesFault c (switchAccesses c t true)

/-- The base fault of delivering a software interrupt (R85, R86), if any: nothing of the delivery is done then. -/
def softIntFault (s : State) (v : Byte) (needsIOPL : Bool) : Option BaseFault :=
  match gateFault s.cpu v needsIOPL with
  | some f => some f
  | none => handlerFault s.cpu (gateOf s.cpu s.mem v)

/-- The handler entered by a software interrupt, as a trap with the return address after the instruction: EFLAGS.RF
is cleared at completion unless the delivery switched tasks and loaded it (R116, R89). -/
def softIntEntry (v : Byte) (s : State) : State :=
  let t := deliver v .trap s.nip none s
  let t' : State :=
    match gateOf s.cpu s.mem v with
    | .procedure _ => { t with cpu := t.cpu.setRF false }
    | .task _ => t
  { t' with boundary := some ⟨[], true⟩ }

/-- A software interrupt to vector `v`. -/
def softInt (v : Byte) (needsIOPL : Bool) (s : State) : State :=
  match softIntFault s v needsIOPL with
  | some f => raise f s
  | none => softIntEntry v s

/-- `INT 3` (R85): vector 3, a trap whose saved EIP is the byte after the instruction; DR6 is not written. -/
def execInt3 (s : State) : Host.Outcome State Fault Refusal := .next (softInt 3 false s)

/-- `INT n` (R86): as INT 3 with vector n. -/
def execIntN (v : Byte) (s : State) : Host.Outcome State Fault Refusal := .next (softInt v true s)

/-- `INTO` (R87): vector 4 when OF = 1, else nothing but the advance of EIP. -/
def execInto (s : State) : Host.Outcome State Fault Refusal :=
  if s.cpu.flags.ovf then .next (softInt 4 false s) else .next (retire [] s)

end Sys2Proof.Machine
end

