-- ==== Sys2Proof/Machine/MovDebug.lean ====
section
/-! DEFINITION. MOV to and from the debug registers (40 rules R75 to R82). General detect (R78) is checked by the
step before these meanings run (60 rule R139 step 1). -/

namespace Sys2Proof.Machine

/-- `MOV r32, DRn` (R75): GP(0) unless CPL = 0 (R77); DR4 and DR5 are refused (R82); else the register takes the
debug register's value and the arithmetic flags take free values (R36). -/
def execMovFromDR (r : Reg) (n : DReg) (s : State) : Host.Outcome State Fault Refusal :=
  if s.cpu.privilege ≠ 0 then .next (raise (gpFault 0) s)
  else
    match readDebug s n with
    | none => .refused .undefinedDebugRegister
    | some v =>
      .next (retire []
        { s with cpu :=
          { s.cpu with
            regs := s.cpu.regs.set r v
            flags := s.cpu.flags.withArith (Config.movDebugFlags s.tick) } })

/-- `MOV DRn, r32` (R76): GP(0) unless CPL = 0 (R77); DR4 and DR5 are refused (R82); else the debug register takes
all 32 bits (R80, R81), and the arithmetic flags take free values (R36). -/
def execMovToDR (n : DReg) (r : Reg) (s : State) : Host.Outcome State Fault Refusal :=
  if s.cpu.privilege ≠ 0 then .next (raise (gpFault 0) s)
  else
    match writeDebug s.dbg n (s.cpu.regs.get r) with
    | none => .refused .undefinedDebugRegister
    | some d =>
      .next (retire []
        { s with
          cpu := { s.cpu with flags := s.cpu.flags.withArith (Config.movDebugFlags s.tick) }
          dbg := d })

end Sys2Proof.Machine
end

