-- ==== Sys2Proof/Machine/Dispatch.lean ====
section
/-! DEFINITION. The meaning of every instruction of spec/opcode_table.json (60 rule R139 steps 3 and 4). -/

namespace Sys2Proof.Machine

def exec (i : Instr) (s : State) : Host.Outcome State Fault Refusal :=
  match i with
  | .movFromDR r n => Sys2Proof.Machine.execMovFromDR r n s
  | .movToDR n r => Sys2Proof.Machine.execMovToDR n r s
  | .int3 => Sys2Proof.Machine.execInt3 s
  | .intN v => Sys2Proof.Machine.execIntN v s
  | .into => Sys2Proof.Machine.execInto s
  | .iret => Sys2Proof.Machine.execIret s
  | .iretd => Sys2Proof.Machine.execIretd s
  | .popf => Sys2Proof.Machine.execPopf s
  | .popfd => Sys2Proof.Machine.execPopfd s
  | .jmpPtr p => Sys2Proof.Machine.execJmpPtr p s
  | .jmpMem os seg m => Sys2Proof.Machine.execJmpMem os seg m s
  | .callPtr p => Sys2Proof.Machine.execCallPtr p s
  | .callMem os seg m => Sys2Proof.Machine.execCallMem os seg m s

end Sys2Proof.Machine
end

