-- ==== Sys2Proof/Machine/Other.lean ====
section
/-! DEFINITION. Instructions of class Other (42 rule R104): the ordinary instructions GK30 names (log 12), and the
free answer for every other one (log 11). None of them is a constructor of Instr. -/

namespace Sys2Proof.Machine

/-- An ordinary instruction that completes with these accesses, in this state but for EIP and RF. -/
def ordinaryDone (accesses : List Access) (s done : State) : State := attempt accesses s (retire accesses done)

/-- The machine with its flags replaced. -/
def State.withFlags (s : State) (f : Flags) : State := { s with cpu := { s.cpu with flags := f } }

/-- The machine with its general registers replaced. -/
def State.withRegs (s : State) (g : Regs) : State := { s with cpu := { s.cpu with regs := g } }

/-- The effect of the ordinary instructions (log 12). -/
def runOrdinary (o : Ordinary) (s : State) : State :=
  match o with
  | .movImm os r imm => ordinaryDone [] s (s.withRegs (setSized s.cpu.regs os r imm))
  | .inc os r =>
    let v := s.cpu.regs.get r
    ordinaryDone [] s
      ((s.withRegs (setSized s.cpu.regs os r (v + 1))).withFlags (incFlags s.cpu.flags os v))
  | .xor os seg dst src =>
    let v := readRegMem s os seg dst ^^^ cut os (s.cpu.regs.get src)
    ordinaryDone (updateAccesses s.cpu os seg dst) s
      ((writeRegMem s os seg v dst).withFlags (logicFlags s.cpu.flags (Config.logicAF s.tick) os v))
  | .push os imm =>
    let p := pushAll s.cpu s.mem (opBytes os) [imm]
    ordinaryDone (pushAccesses s.cpu (opBytes os) 1) s { s with cpu := p.1, mem := p.2 }
  | .movMoffs os seg off =>
    let a := (s.cpu.seg (seg.getD .ds)).base + off
    ordinaryDone [⟨a, opBytes os, .read⟩] s
      (s.withRegs (setSized s.cpu.regs os .eax (loadLE s.cpu s.mem a (opBytes os))))
  | .movByte _ (.reg r) imm => ordinaryDone [] s (s.withRegs (setByteReg s.cpu.regs r imm))
  | .movByte seg (.mem m) imm =>
    let a := memAddr s.cpu seg m
    ordinaryDone [⟨a, 1, .write⟩] s { s with mem := storeLE s.cpu s.mem a 1 (imm.setWidth 32) }
  | .and os seg dst imm =>
    let v := readRegMem s os seg dst &&& cut os imm
    ordinaryDone (updateAccesses s.cpu os seg dst) s
      ((writeRegMem s os seg v dst).withFlags (logicFlags s.cpu.flags (Config.logicAF s.tick) os v))

/-- A base fault that is no debug or breakpoint exception: `Exec` never raises interrupt 1 by itself (R6, R112), and
interrupt 3 is raised by INT 3 and INT n alone (R85, R86). Those two vectors stand for a general protection exception. -/
def BaseFault.exceptDebug (f : BaseFault) : BaseFault := if f.vec = 1 ∨ f.vec = 3 then { f with vec := 13 } else f

/-- The base machine a class Other instruction answers: RF is cleared at its completion (R104, R116). R104 has it switch
no task; that no such instruction loads the task register without a task switch either, and that TF stays (R24, R103),
are the model's choices (DESIGN CHOICE, log 11). -/
def otherCpu (s : State) (c : Cpu) : Cpu :=
  { c with task := s.cpu.task, flags := { c.flags with tf := s.cpu.flags.tf } }.setRF false

/-- Any other instruction (R104): the base machine's answer is free. It may change the base state and memory, but not
the debug registers or the hidden debug state (R104), nor the current task and TF (log 11); or it takes a base fault. -/
def runOther (s : State) : State :=
  match Config.otherAnswer s.tick with
  | .fault f => raise f.exceptDebug s
  | .complete c writes accesses =>
    complete accesses
      { s with
        cpu := otherCpu s c
        mem := storeBytes s.cpu s.mem writes }

end Sys2Proof.Machine
end

