-- ==== Sys2Proof/Machine/Fetch.lean ====
section
/-! DEFINITION. Fetching the instruction at CS:EIP (20_memory.md rules R45, R56; 30_encoding.md rule R60) and
`Class(s)` of 00_scope.md rule R6. -/

namespace Sys2Proof.Machine

/-- Why no further byte was fetched. -/
inductive FetchStop where
  /-- As many bytes as an instruction can have were fetched. -/
  | limit
  /-- The page of this linear address is not present. -/
  | absent (a : W32)
  /-- A store has written the byte, and the base machine does not define its fetch (R56). -/
  | written
deriving DecidableEq, Repr

/-- Up to `k` instruction bytes from a linear address on, and why no more. -/
def fetchBytes (s : State) : Nat → W32 → List Byte × FetchStop
  | 0, _ => ([], .limit)
  | k + 1, a =>
    if !pagePresent s.cpu a then ([], .absent a)
    else if !s.coherentFetch && s.mem.isWritten (physical s.cpu a) then ([], .written)
    else
      let p := fetchBytes s k (a + 1)
      (readByte s.cpu s.mem a :: p.1, p.2)

/-- What stands at CS:EIP. -/
inductive Fetched where
  /-- An instruction of the opcode table and its length. -/
  | instr (i : Instr) (len : Nat)
  /-- An ordinary instruction that GK30 names and its length. -/
  | ordinary (o : Ordinary) (len : Nat)
  /-- Any other instruction (R104). -/
  | other
  /-- Its fetch faults. -/
  | faults (f : BaseFault)
  /-- It has no meaning. -/
  | refused (r : Refusal)
deriving DecidableEq, Repr

/-- What an instruction is whose bytes could not all be fetched: an absent page faults, a byte that a store has written
is refused (R56), and an instruction longer than the limit is the base machine's. -/
def fetchStopped (c : Cpu) : FetchStop → Fetched
  | .limit => .other
  | .absent a => .faults (pageFault c .read a)
  | .written => .refused .writtenCodeFetched

/-- The instruction at CS:EIP (R6, R45): LinIP is the address of its first byte. Every byte of it must be fetched (R56);
how many bytes an instruction of class Other has is free (log 11). -/
def fetch (s : State) : Fetched :=
  let p := fetchBytes s maxLength (linIP s.cpu)
  match decode s.cpu.codeBig p.1 with
  | .instr i len => .instr i len
  | .ordinary o len => .ordinary o len
  | .unlisted => if Config.otherLength s.tick ≤ p.1.length then .other else fetchStopped s.cpu p.2
  | .movDebugMod => .refused .movDebugMod
  | .truncated => fetchStopped s.cpu p.2

/-- Whether the instruction is a MOV to or from a debug register, any of the eight numbers (R78, R123). The forms with mod
other than 11, which R62 refuses, and bytes that cannot be fetched count as none (DESIGN CHOICE, log 46). -/
def Fetched.isMovDebug : Fetched → Bool
  | .instr (.movFromDR _ _) _ => true
  | .instr (.movToDR _ _) _ => true
  | _ => false

/-- The memory with bytes placed from outside at linear addresses from `a` on. -/
def placeBytes (c : Cpu) (m : Memory) (a : W32) : List Byte → Memory
  | [] => m
  | b :: rest => placeBytes c (m.place (physical c a) b) (a + 1) rest

/-- The bytes of a table word, followed by zeros up to the longest instruction. -/
def tableImage (nbits w : Nat) : List Byte :=
  tableBytes nbits w ++ List.replicate (maxLength - (tableBytes nbits w).length) 0

end Sys2Proof.Machine
end

