-- ==== Sys2Proof/Machine/Report.lean ====
section
/-! DEFINITION. The checks around an instruction (60 rule R139): debug faults before it (steps 1 and 2), the report
of traps after it (steps 5 and 6), and external interrupts (step 7). -/

namespace Sys2Proof.Machine

/-! ## Debug faults: instruction breakpoints and general detect (R113, R115, R123) -/

/-- `ibf`: an enabled instruction breakpoint at LinIP, with RF = 0 (R113, R115). -/
def breakpointFault (s : State) : Bool :=
  s.dbg.anyEnabled (s.dbg.instrMatches (linIP s.cpu)) && !s.cpu.flags.rf

/-- `gdf`: the instruction is a MOV to or from a debug register while ICE-386 uses them; whether it comes before the
privilege fault is the OPEN parameter `GD_VS_GP`; RF does not suppress it (R123, R115). An instruction whose bytes cannot
be fetched, and a form with mod other than 11, counts as no such MOV: an instruction breakpoint there, which comes before
its fetch (R113), reports B[n] without BD (DESIGN CHOICE, log 46). -/
def generalDetect (s : State) : Bool :=
  s.iceActive && (fetch s).isMovDebug && (s.cpu.privilege == 0 || Config.gdFirst)

/-- What a debug fault of the instruction at CS:EIP records: B[n] for every matching condition, enabled or not (R133),
unless RF = 1, and BD (R123), which is never set for an instruction that cannot be fetched or is refused for its mod field (DESIGN CHOICE, log 46). -/
def faultCause (s : State) : Cause :=
  { b := if s.cpu.flags.rf then CondSet.empty else s.dbg.instrMatches (linIP s.cpu)
    bd := generalDetect s, bs := false, bt := false }

/-- The instruction at CS:EIP takes a debug fault (R139 step 1). -/
def debugFault (s : State) : Bool := breakpointFault s || generalDetect s

/-- Deliver a debug fault (R139 step 2): DR6 records it, interrupt 1 is taken as a fault. -/
def takeDebugFault (s : State) : State :=
  deliver 1 .fault s.cpu.eip none { s with dbg := s.dbg.report (faultCause s), boundary := none }

/-! ## Debug traps (R119 to R121, R124, R130, R134) -/

/-- Deliver interrupt 1 with a return to CS:EIP after recording a cause in DR6 (R132). -/
def takeTrap (k : Cause) (d : Delivery) (s : State) : State :=
  deliver 1 d s.cpu.eip none { s with dbg := s.dbg.report k }

/-- The conditions of both causes. -/
def Cause.merge (a b : Cause) : Cause :=
  { b := a.b.union b.b, bd := a.bd || b.bd, bs := a.bs || b.bs, bt := a.bt || b.bt }

/-- Deliver a debug trap (R139 step 6). Where the next instruction has debug faults, the OPEN parameter `REPORT_BOTH`
says whether they are merged into this delivery (R134). Where DR7 now holds an undefined code, the merged evaluation
is refused (R81, log 35). -/
def deliverTrap (k : Cause) (s : State) : Host.Outcome State Fault Refusal :=
  match s.dbg.undefinedCode with
  | some r => if Config.reportMerged s.tick then .refused r else .next (takeTrap k .trap s)
  | none =>
    if debugFault s && Config.reportMerged s.tick then .next (takeTrap (k.merge (faultCause s)) .merged s)
    else .next (takeTrap k .trap s)

/-- `rep` of R139 step 5: the data conditions reported at this boundary. With `exact` every match and everything
deferred (R120); without it the free choices of R121. -/
def reportedNow (s : State) (accesses : List Access) : CondSet :=
  let db := s.dbg.dataMatches accesses
  if s.dbg.exact then db.union s.deferred
  else CondSet.collect fun n =>
    (db.has n && Config.reportChoice s.tick n == .now) || (s.deferred.has n && Config.lateReport s.tick n)

/-- The reports put off to the end of the next instruction (R121): none with `exact`. -/
def reportedNext (s : State) (accesses : List Access) : CondSet :=
  if s.dbg.exact then CondSet.empty
  else CondSet.collect fun n =>
    (s.dbg.dataMatches accesses).has n && Config.reportChoice s.tick n == .next

/-- `ss`: TF was 1 at the beginning of the instruction (R124); after an INT the OPEN parameter `SS_AFTER_INT` decides
(R91). -/
def singleStep (s : State) (isInt : Bool) : Bool := s.tf0 && (!isInt || Config.ssAfterInt)

/-- What the traps of a completed instruction record (R134). -/
def trapCause (s : State) (b : Boundary) : Cause :=
  { b := reportedNow s b.accesses, bd := false, bs := singleStep s b.isInt, bt := s.pendingBT }

/-- Some trap condition holds at the end of the instruction: single step, task switch, or an enabled data breakpoint,
with DR7 as it is now (R119, D18). -/
def trapPending (s : State) (b : Boundary) : Bool :=
  singleStep s b.isInt || s.pendingBT || s.dbg.anyEnabled (reportedNow s b.accesses)

/-- The state after the report point has looked at the instruction. -/
def afterLook (s : State) (b : Boundary) : State :=
  { s with deferred := reportedNext s b.accesses, pendingBT := false, boundary := none }

/-- The report of the traps of a completed instruction (R139 steps 5 and 6). -/
def reportTraps (s : State) (b : Boundary) : Host.Outcome State Fault Refusal :=
  if trapPending s b then deliverTrap (trapCause s b) (afterLook s b) else .next (afterLook s b)

/-! ## External inputs (R129, R142; log 4) -/

/-- The environment's inputs at this instruction boundary (R32, R33): whether ICE-386 uses the debug registers until the
next boundary, and the interrupt then pending. -/
def sampleInputs (s : State) : State :=
  match s.inputs with
  | [] => s
  | e :: rest => { s with iceActive := e.ice, extInt := e.irq, inputs := rest }

/-- `ExtIntDeliverable` (R33): an interrupt is pending and IF = 1. -/
def deliverable (s : State) : Option Byte := if s.cpu.flags.intf then s.extInt else none

/-- The examination of the external interrupt input (R139 step 7): a deliverable interrupt is taken, with a return to
CS:EIP, and is no longer pending. -/
def takeInterrupt (s : State) : State :=
  match deliverable s with
  | some v => deliver v .interrupt s.cpu.eip none { s with extInt := none }
  | none => s

/-- After a report: the external interrupt input is examined, unless a delivery switched to a task whose T-bit is yet to
be reported (R139 note (a)). -/
def afterReport : Host.Outcome State Fault Refusal → Host.Outcome State Fault Refusal
  | .next s => .next (if s.pendingBT then s else takeInterrupt s)
  | .fault r => .fault r
  | .refused r => .refused r

/-- What the task-switch trap of a delivery records: BT alone. -/
def taskSwitchCause : Cause := { b := CondSet.empty, bd := false, bs := false, bt := true }

/-- The task-switch trap of a delivery that switched to a task with T = 1 (R130, R139 note (a)): interrupt 1 with BT,
before any instruction executes. A debug handler task whose own TSS has T = 1 comes back here without end (R131). Note
(a) has steps 5 and 6 repeated there; the model reads that as a report of BT alone, because no instruction has run since
the last report: BS is not set again and the deferred reports wait for the next instruction (DESIGN CHOICE, log 43). -/
def reportTaskSwitch (s : State) : Host.Outcome State Fault Refusal :=
  afterReport (deliverTrap taskSwitchCause (sampleInputs { s with pendingBT := false, boundary := none }))

/-- What follows an attempt to run an instruction (R139 steps 3 to 7). The environment's inputs are read at this
boundary, whatever the instruction did (R32). One that completed is looked at for traps, and the external interrupt
input is examined; one that took a fault is over. -/
def finish : Host.Outcome State Fault Refusal → Host.Outcome State Fault Refusal
  | .next s =>
    match s.boundary with
    | none => .next (sampleInputs s)
    | some b => afterReport (reportTraps (sampleInputs s) b)
  | .fault r => .fault r
  | .refused r => .refused r

end Sys2Proof.Machine
end

