-- ==== Sys2Proof/Machine/Cycle.lean ====
section
/-! DEFINITION. One step of the processor but for the step counter (60 rule R139). -/

namespace Sys2Proof.Machine

/-- An instruction of `len` bytes begins (R139 step 3): TF is latched (R30), and the offset of the next instruction. -/
def begin (len : Nat) (s : State) : State :=
  { s with tf0 := s.cpu.flags.tf, nip := s.cpu.eip + BitVec.ofNat 32 len, boundary := none }

/-- Run the instruction at CS:EIP and report its traps (R139 steps 3 to 7). -/
def runInstruction (s : State) : Host.Outcome State Fault Refusal :=
  match fetch s with
  | .instr i len => finish (exec i (begin len s))
  | .ordinary o len => finish (.next (runOrdinary o (begin len s)))
  | .other => finish (.next (runOther (begin 0 s)))
  | .faults f => finish (.next (raise f (begin 0 s)))
  | .refused r => .refused r

/-- One cycle: the report of a task switch still to be made (R130), else the instruction at CS:EIP: refused while DR7
holds an undefined code (R81), a debug fault before it (R113, R123), or its execution (R139). -/
def cycle (s : State) : Host.Outcome State Fault Refusal :=
  if s.pendingBT then reportTaskSwitch s
  else
    match s.dbg.undefinedCode with
    | some r => .refused r
    | none => if debugFault s then finish (.next (takeDebugFault s)) else runInstruction s

/-- The outcome with the step counter advanced: every step has free values of its own (log 8). -/
def countStep : Host.Outcome State Fault Refusal → Host.Outcome State Fault Refusal
  | .next s => .next { s with tick := s.tick + 1 }
  | .fault r => .fault r
  | .refused r => .refused r

end Sys2Proof.Machine
end

