-- ==== Sys2Proof/Machine/Step.lean ====
section
/-! DEFINITION. The step of the machine (60 rule R139), and how the host places an instruction to run next. -/

namespace Sys2Proof.Machine

/-- One step of the processor. -/
def step (s : State) : Host.Outcome State Fault Refusal := countStep (cycle s)

/-- The state with a table word's instruction, followed by zero bytes, placed from outside at CS:EIP. -/
def State.withFetchWord (s : State) (nbits w : Nat) : State :=
  { s with mem := placeBytes s.cpu s.mem (linIP s.cpu) (tableImage nbits w) }

end Sys2Proof.Machine
end

