-- ==== Sys2Proof/Safety.lean ====
section
/-! DEFINITION. The terms claims are made in: the invariant of the machine, the launch premises of
92_eei_decisions.md, and what an instruction leaves unchanged. -/

namespace Sys2Proof.Machine

/-- The invariant every step keeps: memory is in its canonical form, and no report is left over between steps. -/
def State.inv (s : State) : Bool := s.mem.wf && s.boundary.isNone

/-- `DebugDisabledAtLaunch`: every named field of DR7 is 0. -/
def State.debugDisabled (s : State) : Bool := s.dbg.dr7 &&& definedDR7 == 0

/-- `DR6ClearAtLaunch`: every named bit of DR6 is 0. -/
def State.dr6Clear (s : State) : Bool := s.dbg.dr6 &&& definedDR6 == 0

/-- `NoSingleStepAtLaunch`: TF, RF and the latch are 0, nothing is deferred or pending. -/
def State.noSingleStep (s : State) : Bool :=
  !s.cpu.flags.tf && !s.cpu.flags.rf && !s.tf0 && s.deferred == CondSet.empty && !s.pendingBT

/-- `NoICE`: ICE-386 does not use the debug registers, now or at any later boundary. -/
def State.noICE (s : State) : Bool := !s.iceActive && s.inputs.all fun e => !e.ice

/-- `ExactData`: whenever a data breakpoint is enabled, LE or GE is set. -/
def State.exactData (s : State) : Bool :=
  conditions.all fun n => !(s.dbg.enabled n && s.dbg.rw n != 0) || s.dbg.exact

/-- Nothing outside the machine interferes at this step: ICE-386 is not active, no interrupt is pending, no input is
left. -/
def State.quietEnvironment (s : State) : Bool := !s.iceActive && s.extInt.isNone && s.inputs.isEmpty

/-- The parts of the state that no meaning of an instruction changes but for the completion it reports: the hidden
latches, the environment and the model's own fields. -/
structure HiddenSame (s t : State) : Prop where
  tf0 : t.tf0 = s.tf0
  deferred : t.deferred = s.deferred
  pendingBT : t.pendingBT = s.pendingBT
  iceActive : t.iceActive = s.iceActive
  extInt : t.extInt = s.extInt
  inputs : t.inputs = s.inputs
  coherentFetch : t.coherentFetch = s.coherentFetch
  reservedAsWritten : t.reservedAsWritten = s.reservedAsWritten
  nip : t.nip = s.nip
  tick : t.tick = s.tick

/-- The segment registers other than CS are the same. -/
structure DataSegsSame (c d : Cpu) : Prop where
  ss : d.ss = c.ss
  ds : d.ds = c.ds
  es : d.es = c.es
  fs : d.fs = c.fs
  gs : d.gs = c.gs

/-- Mode, paging, current task and the base machine's tables are the same. -/
structure SystemSame (c d : Cpu) : Prop where
  protectedMode : d.protectedMode = c.protectedMode
  paging : d.paging = c.paging
  space : d.space = c.space
  cr2 : d.cr2 = c.cr2
  task : d.task = c.task
  gates : d.gates = c.gates
  descs : d.descs = c.descs
  pages : d.pages = c.pages

/-- The flags that neither the arithmetic results nor RF belong to are the same. -/
structure ControlFlagsSame (f g : Flags) : Prop where
  tf : g.tf = f.tf
  intf : g.intf = f.intf
  df : g.df = f.df
  iopl : g.iopl = f.iopl
  nt : g.nt = f.nt
  vm : g.vm = f.vm

/-- Every general register but ESP is the same. -/
def RegsSameButESP (g h : Regs) : Prop := ∀ r, r ≠ Reg.esp → h.get r = g.get r

/-- The physical addresses of the `n` values of `k` bytes that a push from here stores. -/
def pushedBytes (c : Cpu) (k n : Nat) : List Nat :=
  (List.range n).flatMap fun i => (List.range k).map fun j => physical c (pushSlot c k (i + 1) + BitVec.ofNat 32 j)

/-- Memory is the same outside a list of physical addresses. -/
def MemSameBut (m m' : Memory) (stored : List Nat) : Prop := ∀ a, a ∉ stored → m'.read a = m.read a

/-- The vector a software interrupt delivers in a state (R85, R86, R87), none for the other instructions and for INTO
with OF = 0. -/
def softVector (i : Instr) (s : State) : Option Byte :=
  match i with
  | .int3 => some 3
  | .intN v => some v
  | .into => if s.cpu.flags.ovf then some 4 else none
  | _ => none

/-- Whether a software interrupt needs IOPL 3 in virtual-8086 mode: INT n alone (log 24). -/
def needsIOPL (i : Instr) : Bool :=
  match i with
  | .intN _ => true
  | _ => false

/-- The task a completing instruction switches to in a state, if it switches tasks (R97, R89, R100, R101). -/
def taskTarget (i : Instr) (s : State) : Option TssRef :=
  let ofFar (k : FarKind) : Option TssRef :=
    match k with
    | .task t => some t
    | _ => none
  let ofReturn (k : ReturnKind) : Option TssRef :=
    match k with
    | .taskReturn t => some t
    | _ => none
  match i with
  | .jmpPtr p => ofFar (farKind s.cpu (farSelector p) false)
  | .jmpMem os seg m => ofFar (farKind s.cpu (farPtrSelector s.cpu s.mem os (memAddr s.cpu seg m)) false)
  | .callPtr p => ofFar (farKind s.cpu (farSelector p) true)
  | .callMem os seg m => ofFar (farKind s.cpu (farPtrSelector s.cpu s.mem os (memAddr s.cpu seg m)) true)
  | .iret => ofReturn (returnKind s 2)
  | .iretd => ofReturn (returnKind s 4)
  | _ =>
    match softVector i s with
    | some v =>
      match gateOf s.cpu s.mem v with
      | .task t => some t
      | .procedure _ => none
    | none => none

/-- The low `k` bytes of a word, for `k` 4 or 2. -/
def lowBytes (k : Nat) (v : W32) : W32 := if k = 4 then v else v &&& 0xFFFF

/-- The frame that IRET pops stands `off` bytes above the top of the stack: `k`-byte values, EIP lowest, then CS, then
the flags image (R95, R96, GK12). -/
structure SavedFrame (t : State) (k off : Nat) (ret : W32) (cs : W16) (image : W32) : Prop where
  eip : stackValue t off k = lowBytes k ret
  cs : stackValue t (off + k) k = cs.setWidth 32
  flags : stackValue t (off + 2 * k) k = lowBytes k image

/-- The operand of a far transfer in a state (R65). -/
structure FarOperand where
  isCall   : Bool
  os       : OpSize
  accesses : List Access
  sel      : W16
  off      : W32

/-- The operand of a far JMP or CALL, from the instruction or from memory; none for the other instructions. -/
def farOperand (i : Instr) (s : State) : Option FarOperand :=
  let ofMem (isCall : Bool) (os : OpSize) (seg : Option SegName) (m : MemOp) : FarOperand :=
    let a := memAddr s.cpu seg m
    ⟨isCall, os, farPtrAccesses os a, farPtrSelector s.cpu s.mem os a, farPtrOffset s.cpu s.mem os a⟩
  match i with
  | .jmpPtr p => some ⟨false, p.opSize, [], farSelector p, farOffset p⟩
  | .jmpMem os seg m => some (ofMem false os seg m)
  | .callPtr p => some ⟨true, p.opSize, [], farSelector p, farOffset p⟩
  | .callMem os seg m => some (ofMem true os seg m)
  | _ => none

/-- The width in bytes of the values a return from an interrupt pops (R95, R96), none for the other instructions. -/
def returnWidth (i : Instr) : Option Nat :=
  match i with
  | .iret => some 2
  | .iretd => some 4
  | _ => none

/-- The width in bytes of the flags image a POPF pops (R98, R99), none for the other instructions. -/
def popWidth (i : Instr) : Option Nat :=
  match i with
  | .popf => some 2
  | .popfd => some 4
  | _ => none

/-- Whether a task switch of this instruction links the new task to the old one: CALL and the software interrupts. -/
def nestsTask (i : Instr) : Bool :=
  match i with
  | .callPtr _ => true
  | .callMem _ _ _ => true
  | .int3 => true
  | .intN _ => true
  | .into => true
  | _ => false

/-- The physical addresses of the fields of a structure at a linear address. -/
def fieldBytes (c : Cpu) (base : W32) (fields : List (W32 × Nat × W32)) : List Nat :=
  fields.flatMap fun f => (List.range f.2.1).map fun j => physical c (base + f.1 + BitVec.ofNat 32 j)

/-- The physical addresses a task switch stores to: the saved fields of the outgoing TSS, and the link in the
incoming one where the new task is nested. -/
def taskSwitchBytes (c : Cpu) (t : TssRef) (nested : Bool) : List Nat :=
  fieldBytes c c.task.base (if c.task.is386 then savedFields386 c 0 0 else savedFields286 c 0 0)
    ++ (if nested then fieldBytes c t.base [(0, 2, 0)] else [])

/-- The instruction stands in memory at CS:EIP: its bytes, in pages that are present, none written by a store unless
the base machine defines that fetch (R56). -/
def InstrAt (s : State) (i : Instr) : Prop :=
  ∀ k, ∀ h : k < (encode s.cpu.codeBig i).length,
    readByte s.cpu s.mem (linIP s.cpu + BitVec.ofNat 32 k) = (encode s.cpu.codeBig i)[k] ∧
      pagePresent s.cpu (linIP s.cpu + BitVec.ofNat 32 k) = true ∧
      (s.coherentFetch = true ∨ s.mem.isWritten (physical s.cpu (linIP s.cpu + BitVec.ofNat 32 k)) = false)

/-- The bytes of the fields an outgoing TSS holds the return offset and the flags image in. -/
def savedImageBytes (c : Cpu) : List Nat :=
  fieldBytes c c.task.base (if c.task.is386 then [(0x20, 4, 0), (0x24, 4, 0)] else [(0x0E, 2, 0), (0x10, 2, 0)])

/-- The bytes a delivery to the task `e` stores after it saved the outgoing task, in the new task's machine `c'`: the link
in the incoming TSS, and an error code on the new task's stack. -/
def laterTaskBytes (c c' : Cpu) (e : TssRef) (code : Option W32) : List Nat :=
  fieldBytes c e.base [(0, 2, 0)] ++ (if code.isSome then pushedBytes c' (if e.is386 then 4 else 2) 1 else [])

/-- The instruction at CS:EIP ran to its completion or its base fault, `t`: an instruction of the opcode table, or one of
class Other (R139 steps 3 and 4). -/
inductive InstructionRan (s t : State) : Prop where
  | table (i : Instr) (len : Nat) (fetched : fetch s = .instr i len) (ran : exec i (begin len s) = .next t)
  | ordinary (o : Ordinary) (len : Nat) (fetched : fetch s = .ordinary o len) (ran : t = runOrdinary o (begin len s))
  | other (fetched : fetch s = .other) (ran : t = runOther (begin 0 s))

/-- The OPEN parameter REPORT_BOTH merges the debug faults of the next instruction, if it has any, into a trap's delivery
in this state (R134). -/
def mergesFaults (t : State) : Bool := Config.reportMerged t.tick && debugFault t

/-- A trap or an external interrupt was delivered in `t` to the procedure handler `h`, with `u` the state after it (R136):
control is at the handler with TF = 0, the registers but ESP are as they were, memory changed in the pushed frame alone, and without paging
that frame returns to the CS:EIP of `t` with the flags of `t` but RF, which is `rf`. -/
structure TrapDelivered (t u : State) (h : Handler) (rf : Bool) : Prop where
  cs : u.cpu.cs = h.cs
  eip : u.cpu.eip = h.eip
  tf : u.cpu.flags.tf = false
  regs : RegsSameButESP t.cpu.regs u.cpu.regs
  mem : MemSameBut t.mem u.mem
    (pushedBytes (entryStack t.cpu h) (frameWidth h) (entryFrame t.cpu h 0 0 none).length)
  frame : t.cpu.paging = false → t.mem.wf = true →
    SavedFrame u (frameWidth h) 0 t.cpu.eip t.cpu.cs.sel { t.cpu.flags with rf := rf }.image

/-- What an instruction of class Other may do (R104): take a base fault that is not interrupt 1, or complete with RF
cleared, and the debug registers and the hidden debug state as they were; so also, by the model's choice, TF and the task
register (log 11). -/
def KeepsDebugState (s t : State) : Prop :=
  (∃ f, f.vec ≠ 1 ∧ t = raise f s) ∨
    t.boundary.isSome = true ∧ t.cpu.flags.rf = false ∧ t.cpu.flags.tf = s.cpu.flags.tf ∧
      t.cpu.task = s.cpu.task ∧ t.dbg = s.dbg ∧ HiddenSame s t

/-- Nothing stands between the step and the instruction at CS:EIP (R139 steps 1 and 2). -/
structure ReadyToRun (s : State) : Prop where
  pendingBT : s.pendingBT = false
  codes : s.dbg.undefinedCode = none
  noFault : debugFault s = false

end Sys2Proof.Machine
end

