-- ==== Sys2Proof/Certificates/Slice0/Obligations.lean ====
section
/-! DEFINITION. The statements for the provers: what the rules of spec/ say the machine does. -/

open Sys2Proof Sys2Proof.Machine

/-! ## Reset and the invariant -/

/-- The state after reset meets the launch premises of R34 and R160 and is in real mode at F000:FFF0. The spec states
no reset value: the values are the model's (log 2, log 3, log 4). -/
def Obligations.ResetMeetsTheLaunchPremises : Prop :=
  State.reset.debugDisabled = true ∧ State.reset.dr6Clear = true ∧ State.reset.noSingleStep = true ∧
    State.reset.noICE = true ∧ State.reset.cpu.privilege = 0 ∧ State.reset.cpu.flags.image = 2 ∧
    State.reset.cpu.protectedMode = false ∧ State.reset.cpu.cs.sel = 0xF000 ∧ State.reset.cpu.eip = 0xFFF0 ∧
    linIP State.reset.cpu = 0xFFFFFFF0

/-- The invariant holds after reset. -/
def Obligations.ResetMeetsTheInvariant : Prop := State.reset.inv = true

/-- Every step keeps the invariant: memory stays canonical, and no report is left over. -/
def Obligations.EveryStepKeepsTheInvariant : Prop :=
  ∀ s t : State, s.inv = true → step s = .next t → t.inv = true

/-! ## Encoding (30_encoding.md) -/

/-- Decoding what the encoder writes gives the instruction and its length back, whatever bytes follow, in code segments
of both default sizes. -/
def Obligations.DecodeOfEncodeIsTheInstruction : Prop :=
  ∀ (big : Bool) (i : Instr) (rest : List Byte), i.wellFormed = true →
    decode big (encode big i ++ rest) = .instr i (encode big i).length

/-- A few words written out from R62 to R65 decode to the instructions they stand for. How the ModRM and SIB bytes of the
last two words name a memory operand is the family's, the model's choice (log 13): R65 and R66 leave it to the base
machine. -/
def Obligations.SampleWordsDecode : Prop :=
  decode true [0x0F, 0x21, 0xF3] = .instr (.movFromDR .ebx .dr6) 3 ∧
    decode false [0x0F, 0x23, 0xF9] = .instr (.movToDR .dr7 .ecx) 3 ∧
    decode true [0xCC] = .instr .int3 1 ∧
    decode true [0xCD, 0x21] = .instr (.intN 0x21) 2 ∧
    decode true [0xCE] = .instr .into 1 ∧
    decode false [0xCF] = .instr .iret 1 ∧ decode false [0x66, 0xCF] = .instr .iretd 2 ∧
    decode true [0x66, 0x9D] = .instr .popf 2 ∧ decode true [0x9D] = .instr .popfd 1 ∧
    decode true [0xEA, 0x78, 0x56, 0x34, 0x12, 0x28, 0x00] = .instr (.jmpPtr (.ptr32 0x12345678 0x28)) 7 ∧
    decode false [0x9A, 0x34, 0x12, 0x28, 0x00] = .instr (.callPtr (.ptr16 0x1234 0x28)) 5 ∧
    decode true [0xFF, 0x2D, 0x00, 0x20, 0x00, 0x00] = .instr (.jmpMem .s32 none (.direct32 0x2000)) 6 ∧
    decode true [0xFF, 0x5B, 0x08] = .instr (.callMem .s32 none (.based32 .ebx (.byte 8))) 3

/-! ## The step -/

/-- An instruction that stands at CS:EIP is what the fetch finds, prefixes included in its length (R45, R60). -/
def Obligations.FetchFindsTheEncodedInstruction : Prop :=
  ∀ (s : State) (i : Instr), i.wellFormed = true → InstrAt s i →
    fetch s = .instr i (encode s.cpu.codeBig i).length

/-- When the bytes at CS:EIP decode to an instruction and no debug fault precedes it, the step is exec of it, with TF
latched and the next offset noted before (`begin`) and the traps and inputs looked at after (`finish`). -/
def Obligations.StepRunsTheDecodedInstruction : Prop :=
  ∀ (s : State) (i : Instr) (len : Nat),
    decode s.cpu.codeBig (fetchBytes s maxLength (linIP s.cpu)).1 = .instr i len → ReadyToRun s →
    (begin len s).tf0 = s.cpu.flags.tf ∧ (begin len s).nip = s.cpu.eip + BitVec.ofNat 32 len ∧
      step s = countStep (finish (exec i (begin len s)))

/-- What the step adds after an instruction: when it faulted, the reading of the environment's inputs alone; when it
completed with no trap condition and no input to examine, only the matches that R121 puts off are noted. That the inputs
are read after a faulted instruction too is the model's choice (R32 lets ICE-386's use change between any two
instructions; log 4); that no interrupt is examined there follows the return of R139 (log 32). -/
def Obligations.NothingFollowsAQuietInstruction : Prop :=
  (∀ t : State, t.boundary = none → finish (.next t) = .next (sampleInputs t)) ∧
    ∀ (t : State) (b : Boundary), t.boundary = some b → trapPending t b = false → t.pendingBT = false →
      t.extInt = none → t.inputs = [] →
      finish (.next t) = .next { t with deferred := reportedNext t b.accesses, boundary := none }

/-! ## MOV to and from the debug registers (40) -/

/-- MOV r32, DRn at level 0 completes (R75): the register takes DRn, for DR6 and DR7 in every bit that has a name;
nothing else changes but EIP, RF and the six arithmetic flags. -/
def Obligations.MovFromDebugRegisterCompletes : Prop :=
  ∀ (s : State) (r : Reg) (n : DReg), s.cpu.privilege = 0 → n ≠ .dr4 → n ≠ .dr5 →
    ∃ t, exec (.movFromDR r n) s = .next t ∧
      (n = .dr0 → t.cpu.regs.get r = s.dbg.dr0) ∧ (n = .dr1 → t.cpu.regs.get r = s.dbg.dr1) ∧
      (n = .dr2 → t.cpu.regs.get r = s.dbg.dr2) ∧ (n = .dr3 → t.cpu.regs.get r = s.dbg.dr3) ∧
      (n = .dr6 → t.cpu.regs.get r &&& definedDR6 = s.dbg.dr6 &&& definedDR6) ∧
      (n = .dr7 → t.cpu.regs.get r &&& definedDR7 = s.dbg.dr7 &&& definedDR7) ∧
      (∀ q, q ≠ r → t.cpu.regs.get q = s.cpu.regs.get q) ∧
      t.cpu.eip = s.nip ∧ t.cpu.cs = s.cpu.cs ∧ t.cpu.cpl = s.cpu.cpl ∧
      t.cpu.flags.rf = false ∧ ControlFlagsSame s.cpu.flags t.cpu.flags ∧
      DataSegsSame s.cpu t.cpu ∧ SystemSame s.cpu t.cpu ∧ HiddenSame s t ∧
      t.dbg = s.dbg ∧ t.mem = s.mem ∧ t.boundary = some ⟨[], false⟩

/-- Where the premise is taken that software only writes 0 to reserved bits, DR6 and DR7 read exactly as written
(R35). -/
def Obligations.ReservedBitsReadAsWrittenUnderThePremise : Prop :=
  ∀ (s : State) (r : Reg), s.cpu.privilege = 0 → s.reservedAsWritten = true →
    (s.dbg.dr6 &&& ~~~definedDR6 = 0 →
      ∃ t, exec (.movFromDR r .dr6) s = .next t ∧ t.cpu.regs.get r = s.dbg.dr6) ∧
    (s.dbg.dr7 &&& ~~~definedDR7 = 0 →
      ∃ t, exec (.movFromDR r .dr7) s = .next t ∧ t.cpu.regs.get r = s.dbg.dr7)

/-- MOV DRn, r32 at level 0 completes (R76): DRn takes all 32 bits of the register, the other debug registers and
everything else stay, but for EIP, RF and the six arithmetic flags. -/
def Obligations.MovToDebugRegisterCompletes : Prop :=
  ∀ (s : State) (n : DReg) (r : Reg), s.cpu.privilege = 0 → n ≠ .dr4 → n ≠ .dr5 →
    ∃ t, exec (.movToDR n r) s = .next t ∧
      t.dbg.dr0 = (if n = .dr0 then s.cpu.regs.get r else s.dbg.dr0) ∧
      t.dbg.dr1 = (if n = .dr1 then s.cpu.regs.get r else s.dbg.dr1) ∧
      t.dbg.dr2 = (if n = .dr2 then s.cpu.regs.get r else s.dbg.dr2) ∧
      t.dbg.dr3 = (if n = .dr3 then s.cpu.regs.get r else s.dbg.dr3) ∧
      t.dbg.dr6 = (if n = .dr6 then s.cpu.regs.get r else s.dbg.dr6) ∧
      t.dbg.dr7 = (if n = .dr7 then s.cpu.regs.get r else s.dbg.dr7) ∧
      (∀ q, t.cpu.regs.get q = s.cpu.regs.get q) ∧
      t.cpu.eip = s.nip ∧ t.cpu.cs = s.cpu.cs ∧ t.cpu.cpl = s.cpu.cpl ∧
      t.cpu.flags.rf = false ∧ ControlFlagsSame s.cpu.flags t.cpu.flags ∧
      DataSegsSame s.cpu t.cpu ∧ SystemSame s.cpu t.cpu ∧ HiddenSame s t ∧
      t.mem = s.mem ∧ t.boundary = some ⟨[], false⟩

/-- At any other level than 0 both forms, for every number, take the general protection exception as a fault: vector
13, error code 0, the MOV's own CS:EIP saved, no register read or written (R77, R140). -/
def Obligations.MovDebugNeedsLevelZero : Prop :=
  ∀ (s : State) (r : Reg) (n : DReg), s.cpu.privilege ≠ 0 →
    exec (.movFromDR r n) s = .next (deliver 13 .fault s.cpu.eip (some 0) { s with boundary := none }) ∧
      exec (.movToDR n r) s = .next (deliver 13 .fault s.cpu.eip (some 0) { s with boundary := none })

/-- At level 0 both forms are refused for DR4 and DR5 (R82). -/
def Obligations.MovDebugRefusesDR4AndDR5 : Prop :=
  ∀ (s : State) (r : Reg) (n : DReg), s.cpu.privilege = 0 → n = .dr4 ∨ n = .dr5 →
    exec (.movFromDR r n) s = .refused .undefinedDebugRegister ∧
      exec (.movToDR n r) s = .refused .undefinedDebugRegister

/-! ## Software interrupts (41) -/

/-- INT 3, INT n and INTO with OF = 1 complete by entering a procedure handler (R85 to R88): TF and RF are 0 in it, the
debug registers are not written, the registers but ESP stay, and memory changes in the pushed frame only. The clauses on
IF, NT, VM, CPL, SS and the segment registers, which are null after virtual-8086 mode, are the family's, the model's
choice (log 21): R136 leaves them to the base machine. -/
def Obligations.SoftwareInterruptEntersTheProcedure : Prop :=
  ∀ (i : Instr) (s : State) (v : Byte) (h : Handler),
    softVector i s = some v → softIntFault s v (needsIOPL i) = none →
    gateOf s.cpu s.mem v = .procedure h →
    ∃ t, exec i s = .next t ∧ t.cpu.cs = h.cs ∧ t.cpu.eip = h.eip ∧
      t.cpu.cpl = (if switchesStack s.cpu h then h.cpl else s.cpu.cpl) ∧
      t.cpu.ss = (if switchesStack s.cpu h then h.ss else s.cpu.ss) ∧
      t.cpu.flags = { s.cpu.flags with
        tf := false, rf := false, vm := false
        intf := if h.clearsIF then false else s.cpu.flags.intf
        nt := if s.cpu.protectedMode then false else s.cpu.flags.nt } ∧
      RegsSameButESP s.cpu.regs t.cpu.regs ∧
      (s.cpu.isV86 = false →
        t.cpu.ds = s.cpu.ds ∧ t.cpu.es = s.cpu.es ∧ t.cpu.fs = s.cpu.fs ∧ t.cpu.gs = s.cpu.gs) ∧
      (s.cpu.isV86 = true →
        t.cpu.ds = Seg.zero ∧ t.cpu.es = Seg.zero ∧ t.cpu.fs = Seg.zero ∧ t.cpu.gs = Seg.zero) ∧
      SystemSame s.cpu t.cpu ∧ HiddenSame s t ∧
      t.dbg = s.dbg ∧ t.boundary = some ⟨[], true⟩ ∧
      MemSameBut s.mem t.mem
        (pushedBytes (entryStack s.cpu h) (frameWidth h) (entryFrame s.cpu h 0 0 none).length)

/-- The frame a software interrupt saves: the return address is the byte after the instruction, and the flags image is
EFLAGS as the instruction found it, TF and RF included (R85, R86, R88). Without paging. -/
def Obligations.SoftwareInterruptSavesTheNextInstruction : Prop :=
  ∀ (i : Instr) (s t : State) (v : Byte) (h : Handler),
    softVector i s = some v → softIntFault s v (needsIOPL i) = none →
    gateOf s.cpu s.mem v = .procedure h → s.cpu.paging = false → s.mem.wf = true → exec i s = .next t →
    SavedFrame t (frameWidth h) 0 s.nip s.cpu.cs.sel s.cpu.flags.image

/-- INTO with OF = 0 completes: EIP advances, RF is cleared, TF and everything else stay (R87). -/
def Obligations.IntoWithoutOverflowOnlyAdvances : Prop :=
  ∀ s : State, s.cpu.flags.ovf = false →
    ∃ t, exec .into s = .next t ∧
      t.cpu = { s.cpu with eip := s.nip, flags := { s.cpu.flags with rf := false } } ∧
      HiddenSame s t ∧ t.dbg = s.dbg ∧ t.mem = s.mem ∧ t.boundary = some ⟨[], false⟩

/-- A software interrupt takes a base fault of its delivery, and does nothing else of it (R85, R86), where its gate is for
more privileged levels, where its handler is less privileged than the current level, and where a page of the frame it
would push or of a TSS it would switch between is absent. Which faults these are is the family's, the model's choice
(log 24). -/
def Obligations.SoftwareInterruptChecksItsGate : Prop :=
  (∀ (i : Instr) (s : State) (v : Byte) (e : GateEntry),
    softVector i s = some v → gateEntry s.cpu v = some e → s.cpu.protectedMode = true →
    s.cpu.flags.vm = false → e.dpl < s.cpu.cpl →
    exec i s = .next (raise (gpFault (v.setWidth 32 <<< 3 ||| 2)) s)) ∧
  (∀ (i : Instr) (s : State) (v : Byte) (h : Handler),
    softVector i s = some v → gateFault s.cpu v (needsIOPL i) = none → gateOf s.cpu s.mem v = .procedure h →
    s.cpu.protectedMode = true → s.cpu.flags.vm = false → s.cpu.cpl < h.cpl →
    exec i s = .next (raise (gpSelector h.cs.sel) s)) ∧
  (∀ (i : Instr) (s : State) (v : Byte) (h : Handler) (f : BaseFault),
    softVector i s = some v → gateFault s.cpu v (needsIOPL i) = none → gateOf s.cpu s.mem v = .procedure h →
    (s.cpu.flags.vm = false ∧ h.cpl ≤ s.cpu.cpl ∨ s.cpu.flags.vm = true ∧ h.cpl = 0) →
    accessesFault s.cpu
      (pushAccesses (entryStack s.cpu h) (frameWidth h) (entryFrame s.cpu h 0 0 none).length) = some f →
    f.vec = 14 ∧ exec i s = .next (raise f s)) ∧
  ∀ (i : Instr) (s : State) (v : Byte) (e : TssRef) (f : BaseFault),
    softVector i s = some v → gateFault s.cpu v (needsIOPL i) = none → gateOf s.cpu s.mem v = .task e →
    accessesFault s.cpu (switchAccesses s.cpu e true) = some f → f.vec = 14 ∧ exec i s = .next (raise f s)

/-! ## Flag-loading instructions (42) -/

/-- IRET and IRETD complete without a change of level (R95, R96), in real mode, virtual-8086 mode with IOPL 3 and
protected mode: CS:EIP and TF come from the frame, RF from a 32-bit image and stays under a 16-bit one; the frame is
popped, and nothing is stored. That OF comes from the image, that VM and the level stay and that virtual-8086 mode needs
IOPL 3 is the family's (log 25), as is the base of the segment loaded (log 20): the model's choice, which R95 leaves to
the base machine. -/
def Obligations.InterruptReturnLoadsTheFrame : Prop :=
  ∀ (i : Instr) (k : Nat) (s : State) (cs : Seg), returnWidth i = some k →
    (returnKind s k = .real ∧ cs = segReal (frameCS s k) ∨ returnKind s k = .same cs) →
    accessesFault s.cpu (frameReads s.cpu k) = none →
    ∃ t, exec i s = .next t ∧ t.cpu.eip = stackValue s 0 k ∧ t.cpu.cs = cs ∧ t.cpu.cpl = s.cpu.cpl ∧
      stackTop t.cpu = wrapStack s.cpu (stackTop s.cpu + BitVec.ofNat 32 (3 * k)) ∧
      RegsSameButESP s.cpu.regs t.cpu.regs ∧
      t.cpu.flags.tf = (frameFlags s k).tf ∧
      t.cpu.flags.rf = (if k = 4 then (frameFlags s k).rf else s.cpu.flags.rf) ∧
      t.cpu.flags.ovf = (frameFlags s k).ovf ∧ t.cpu.flags.vm = s.cpu.flags.vm ∧
      DataSegsSame s.cpu t.cpu ∧ SystemSame s.cpu t.cpu ∧ HiddenSame s t ∧
      t.dbg = s.dbg ∧ t.mem = s.mem ∧ t.boundary = some ⟨frameReads s.cpu k, false⟩

/-- IRET and IRETD to a less privileged level also take SS and ESP from the frame (GK32, log 25; all of ESP, from
a word too, log 48). -/
def Obligations.InterruptReturnToAnOuterLevel : Prop :=
  ∀ (i : Instr) (k : Nat) (s : State) (cs : Seg), returnWidth i = some k → returnKind s k = .outer cs →
    accessesFault s.cpu (frameReads s.cpu k) = none →
    accessesFault s.cpu [stackRead s.cpu (3 * k) k, stackRead s.cpu (4 * k) k] = none →
    ∃ t, exec i s = .next t ∧ t.cpu.eip = stackValue s 0 k ∧ t.cpu.cs = cs ∧ t.cpu.cpl = selLevel cs.sel ∧
      t.cpu.ss = segFor s.cpu false ((stackValue s (4 * k) k).setWidth 16) ∧
      t.cpu.regs.esp = stackValue s (3 * k) k ∧ RegsSameButESP s.cpu.regs t.cpu.regs ∧
      t.cpu.flags.tf = (frameFlags s k).tf ∧
      t.cpu.flags.rf = (if k = 4 then (frameFlags s k).rf else s.cpu.flags.rf) ∧
      t.cpu.flags.ovf = (frameFlags s k).ovf ∧ t.cpu.flags.vm = s.cpu.flags.vm ∧
      t.cpu.ds = s.cpu.ds ∧ t.cpu.es = s.cpu.es ∧ t.cpu.fs = s.cpu.fs ∧ t.cpu.gs = s.cpu.gs ∧
      SystemSame s.cpu t.cpu ∧ HiddenSame s t ∧ t.dbg = s.dbg ∧ t.mem = s.mem ∧
      t.boundary = some ⟨frameReads s.cpu k ++ [stackRead s.cpu (3 * k) k, stackRead s.cpu (4 * k) k], false⟩

/-- IRETD to virtual-8086 mode, from level 0 by a frame whose image has VM = 1, completes (R95; the family's longer
frame, log 25): all flags, ESP and the segment registers come from the frame. -/
def Obligations.InterruptReturnToVirtual8086Mode : Prop :=
  ∀ s : State, returnKind s 4 = .toV86 → accessesFault s.cpu (frameReads s.cpu 4) = none →
    accessesFault s.cpu ([3, 4, 5, 6, 7, 8].map fun i => stackRead s.cpu (4 * i) 4) = none →
    ∃ t, exec .iretd s = .next t ∧ t.cpu.eip = stackValue s 0 4 ∧ t.cpu.cs = segReal (frameCS s 4) ∧
      t.cpu.flags = frameFlags s 4 ∧ t.cpu.cpl = 3 ∧ t.cpu.regs.esp = stackValue s 12 4 ∧
      RegsSameButESP s.cpu.regs t.cpu.regs ∧ t.cpu.ss = segReal ((stackValue s 16 4).setWidth 16) ∧
      t.cpu.es = segReal ((stackValue s 20 4).setWidth 16) ∧ t.cpu.ds = segReal ((stackValue s 24 4).setWidth 16) ∧
      t.cpu.fs = segReal ((stackValue s 28 4).setWidth 16) ∧ t.cpu.gs = segReal ((stackValue s 32 4).setWidth 16) ∧
      SystemSame s.cpu t.cpu ∧ HiddenSame s t ∧ t.dbg = s.dbg ∧ t.mem = s.mem

/-- POPF and POPFD complete (R98, R99): TF comes from the popped image, RF from a 32-bit image and stays under a 16-bit
one; the image is popped, and nothing is stored. That RF stays under a 16-bit image is the spec's own reading, which the
model takes over (R99, D17, logs 26, 34). That OF comes from the image, that VM stays and that virtual-8086 mode needs
IOPL 3 is the family's, the model's choice (log 26), which R98 leaves to the base machine. -/
def Obligations.PopFlagsLoadsTheImage : Prop :=
  ∀ (i : Instr) (k : Nat) (s : State), popWidth i = some k →
    (s.cpu.isV86 = false ∨ s.cpu.flags.iopl = 3) → accessesFault s.cpu [stackRead s.cpu 0 k] = none →
    ∃ t, exec i s = .next t ∧ t.cpu.eip = s.nip ∧ t.cpu.cs = s.cpu.cs ∧ t.cpu.cpl = s.cpu.cpl ∧
      stackTop t.cpu = wrapStack s.cpu (stackTop s.cpu + BitVec.ofNat 32 k) ∧
      RegsSameButESP s.cpu.regs t.cpu.regs ∧
      t.cpu.flags.tf = (Flags.ofImage (stackValue s 0 k)).tf ∧
      t.cpu.flags.rf = (if k = 4 then (Flags.ofImage (stackValue s 0 k)).rf else s.cpu.flags.rf) ∧
      t.cpu.flags.ovf = (Flags.ofImage (stackValue s 0 k)).ovf ∧ t.cpu.flags.vm = s.cpu.flags.vm ∧
      DataSegsSame s.cpu t.cpu ∧ SystemSame s.cpu t.cpu ∧ HiddenSame s t ∧
      t.dbg = s.dbg ∧ t.mem = s.mem ∧ t.boundary = some ⟨[stackRead s.cpu 0 k], false⟩

/-- In virtual-8086 mode with IOPL below 3, POPF, POPFD, IRET and IRETD take a general protection fault before they read
the stack (the family's, the model's choice, logs 25, 26). -/
def Obligations.FlagLoadsInV86NeedIOPL : Prop :=
  ∀ (i : Instr) (s : State), i = .popf ∨ i = .popfd ∨ i = .iret ∨ i = .iretd → s.cpu.isV86 = true →
    s.cpu.flags.iopl ≠ 3 → exec i s = .next (raise (gpFault 0) s)

/-! ## Far transfers and task switches (42) -/

/-- A far JMP that does not switch tasks completes as an instruction of class Other (R100, R104): RF is cleared, TF stays
(R103), and no debug state changes. That it goes to its target, or through a call gate to the gate's entry point, that
every other flag and register stays, that nothing is stored and which accesses it reports is the family's, the model's
choice (logs 20, 28, 29): R104 leaves an ordinary far transfer to the base machine. -/
def Obligations.FarJumpTransfersControl : Prop :=
  ∀ (i : Instr) (s : State) (o : FarOperand) (cs : Seg) (eip : W32),
    farOperand i s = some o → o.isCall = false → accessesFault s.cpu o.accesses = none →
    (farKind s.cpu o.sel false = .real ∧ cs = segReal o.sel ∧ eip = o.off ∨
      farKind s.cpu o.sel false = .direct cs ∧ eip = o.off ∨
      ∃ h, farKind s.cpu o.sel false = .gate h ∧ cs = h.cs ∧ eip = h.eip) →
    ∃ t, exec i s = .next t ∧
      t.cpu = { s.cpu with cs := cs, eip := eip, flags := { s.cpu.flags with rf := false } } ∧
      HiddenSame s t ∧ t.dbg = s.dbg ∧ t.mem = s.mem ∧ t.boundary = some ⟨o.accesses, false⟩

/-- A far CALL that neither switches tasks nor goes through a gate completes as an instruction of class Other (R101,
R104): RF is cleared, TF stays (R103), and no debug state changes. That it goes to its target, that it pushes CS and the
offset of the next instruction and stores nothing else (log 28) and which accesses it reports (log 29) is the model's
choice: R104 leaves an ordinary far transfer to the base machine. -/
def Obligations.FarCallPushesTheReturnAddress : Prop :=
  ∀ (i : Instr) (s : State) (o : FarOperand) (cs : Seg), farOperand i s = some o → o.isCall = true →
    accessesFault s.cpu o.accesses = none →
    accessesFault s.cpu (o.accesses ++ pushAccesses s.cpu (opBytes o.os) 2) = none →
    (farKind s.cpu o.sel true = .real ∧ cs = segReal o.sel ∨ farKind s.cpu o.sel true = .direct cs) →
    ∃ t, exec i s = .next t ∧ t.cpu.cs = cs ∧ t.cpu.eip = o.off ∧ t.cpu.cpl = s.cpu.cpl ∧
      t.cpu.flags = { s.cpu.flags with rf := false } ∧ RegsSameButESP s.cpu.regs t.cpu.regs ∧
      DataSegsSame s.cpu t.cpu ∧ SystemSame s.cpu t.cpu ∧ HiddenSame s t ∧ t.dbg = s.dbg ∧
      t.boundary = some ⟨o.accesses ++ pushAccesses s.cpu (opBytes o.os) 2, false⟩ ∧
      MemSameBut s.mem t.mem (pushedBytes s.cpu (opBytes o.os) 2) ∧
      (s.cpu.paging = false → s.mem.wf = true →
        stackValue t 0 (opBytes o.os) = lowBytes (opBytes o.os) s.nip ∧
        stackValue t (opBytes o.os) (opBytes o.os) = s.cpu.cs.sel.setWidth 32)

/-- A far CALL through a call gate, to the same or a more privileged level, completes with RF cleared and TF as it was
(R101, R103, R116). Where it goes, its level and stack, what it pushes and which accesses it reports is the family's, the
model's choice (logs 28, 29). -/
def Obligations.CallThroughAGateKeepsTF : Prop :=
  ∀ (i : Instr) (s : State) (o : FarOperand) (h : Handler) (n : Nat), farOperand i s = some o → o.isCall = true →
    farKind s.cpu o.sel true = .gate h → n = (if switchesStack s.cpu h then 4 else 2) →
    accessesFault s.cpu o.accesses = none →
    accessesFault s.cpu (o.accesses ++ pushAccesses (entryStack s.cpu h) (frameWidth h) n) = none →
    ∃ t, exec i s = .next t ∧ t.cpu.cs = h.cs ∧ t.cpu.eip = h.eip ∧ t.cpu.cpl = h.cpl ∧
      t.cpu.ss = (if switchesStack s.cpu h then h.ss else s.cpu.ss) ∧
      t.cpu.flags = { s.cpu.flags with rf := false } ∧ RegsSameButESP s.cpu.regs t.cpu.regs ∧
      t.cpu.ds = s.cpu.ds ∧ t.cpu.es = s.cpu.es ∧ t.cpu.fs = s.cpu.fs ∧ t.cpu.gs = s.cpu.gs ∧
      SystemSame s.cpu t.cpu ∧ HiddenSame s t ∧ t.dbg = s.dbg ∧
      t.boundary = some ⟨o.accesses ++ pushAccesses (entryStack s.cpu h) (frameWidth h) n, false⟩ ∧
      MemSameBut s.mem t.mem (pushedBytes (entryStack s.cpu h) (frameWidth h) n) ∧
      (s.cpu.paging = false → s.mem.wf = true →
        stackValue t 0 (frameWidth h) = lowBytes (frameWidth h) s.nip ∧
        stackValue t (frameWidth h) (frameWidth h) = s.cpu.cs.sel.setWidth 32)

/-- JMP, CALL, a software interrupt or IRET that switches tasks completes with every effect of R102: EFLAGS is the
incoming TSS's flags image, L[n] and LE are cleared and no other debug register bit changes, and a set T-bit is left to
be reported. CS:EIP and the level are those of the incoming TSS, NT is set when the new task is nested, and only the two
TSSs are stored to, if their pages are present: the family's, the model's choice (log 27; for an 80286 TSS log 50). -/
def Obligations.TaskSwitchOfAnInstruction : Prop :=
  ∀ (i : Instr) (s : State) (e : TssRef), taskTarget i s = some e →
    (∀ o, farOperand i s = some o → accessesFault s.cpu o.accesses = none) →
    (∀ v, softVector i s = some v → softIntFault s v (needsIOPL i) = none) →
    (∀ k, returnWidth i = some k → accessesFault s.cpu [⟨s.cpu.task.base, 2, .read⟩] = none) →
    accessesFault s.cpu (switchAccesses s.cpu e (nestsTask i)) = none →
    ∃ t, exec i s = .next t ∧ t.cpu.task = e ∧
      t.cpu.eip = tssEip s.cpu t.mem e ∧ t.cpu.cs.sel = tssCS s.cpu t.mem e ∧
      t.cpu.cpl = selLevel (tssCS s.cpu t.mem e) ∧
      t.cpu.flags = { Flags.ofImage (tssFlagsImage s.cpu t.mem e) with
        nt := (Flags.ofImage (tssFlagsImage s.cpu t.mem e)).nt || nestsTask i } ∧
      t.dbg = { s.dbg with dr7 := s.dbg.dr7 &&& ~~~localBitsDR7 } ∧
      t.pendingBT = (s.pendingBT || tssTrapBit s.cpu t.mem e) ∧
      t.cpu.regs = tssRegs s.cpu t.mem e ∧
      t.cpu.protectedMode = s.cpu.protectedMode ∧ t.cpu.paging = s.cpu.paging ∧ t.cpu.cr2 = s.cpu.cr2 ∧
      t.cpu.gates = s.cpu.gates ∧ t.cpu.descs = s.cpu.descs ∧ t.cpu.pages = s.cpu.pages ∧
      t.iceActive = s.iceActive ∧ t.extInt = s.extInt ∧ t.inputs = s.inputs ∧
      t.tf0 = s.tf0 ∧ t.deferred = s.deferred ∧ t.boundary.isSome = true ∧
      MemSameBut s.mem t.mem (taskSwitchBytes s.cpu e (nestsTask i))

/-- Every task switch clears L0 to L3 and LE and changes no other bit of DR7; DR0 to DR3, DR6, G[n], GE, RW[n] and
LEN[n] stay (R19). -/
def Obligations.TaskSwitchClearsTheLocalEnables : Prop :=
  ∀ (e : TssRef) (nested : Bool) (image ret : W32) (s : State),
    (∀ n : Fin 4, (switchTask e nested image ret s).dbg.dr7.getLsbD (2 * n.val) = false) ∧
      (switchTask e nested image ret s).dbg.dr7.getLsbD 8 = false ∧
      (∀ b, b < 32 → b ≠ 0 → b ≠ 2 → b ≠ 4 → b ≠ 6 → b ≠ 8 →
        (switchTask e nested image ret s).dbg.dr7.getLsbD b = s.dbg.dr7.getLsbD b) ∧
      (switchTask e nested image ret s).dbg.dr0 = s.dbg.dr0 ∧ (switchTask e nested image ret s).dbg.dr1 = s.dbg.dr1 ∧
      (switchTask e nested image ret s).dbg.dr2 = s.dbg.dr2 ∧ (switchTask e nested image ret s).dbg.dr3 = s.dbg.dr3 ∧
      (switchTask e nested image ret s).dbg.dr6 = s.dbg.dr6

/-- RF at the completion of every instruction of the table (R116): the incoming TSS's after a task switch, the image's
after IRETD and POPFD, unchanged after the 16-bit IRET and POPF (for POPF D17, log 34), and 0 after every other. That the
16-bit image of an 80286 TSS gives RF = 0 is the model's choice (log 50). -/
def Obligations.ResumeFlagAtCompletion : Prop :=
  ∀ (i : Instr) (s t : State) (b : Boundary), exec i s = .next t → t.boundary = some b →
    t.cpu.flags.rf =
      match taskTarget i s with
      | some e => (Flags.ofImage (tssFlagsImage s.cpu t.mem e)).rf
      | none =>
        match i with
        | .iretd => (frameFlags s 4).rf
        | .popfd => (Flags.ofImage (stackValue s 0 4)).rf
        | .iret => s.cpu.flags.rf
        | .popf => s.cpu.flags.rf
        | _ => false

/-! ## Debug faults (60) -/

/-- An enabled instruction breakpoint at the instruction's first byte, with RF = 0, faults before the instruction
(R113, R133): every matching condition's B bit is set, enabled or not, no DR6 bit is cleared, and interrupt 1 is
delivered as a fault (R114): a procedure handler finds the registers as they were and, without paging, a frame with the
instruction's own CS:EIP and an image with RF set. That the B bit of a condition which is not enabled is set (D8) and that
this fault precedes every other of the instruction, those of its fetch included (D14), are the spec's own decisions, which
the model takes over (log 34). -/
def Obligations.InstructionBreakpointFaults : Prop :=
  ∀ (s : State) (n : Fin 4), s.pendingBT = false → s.dbg.undefinedCode = none →
    s.dbg.enabled n = true → s.dbg.instrMatch n (linIP s.cpu) = true → s.cpu.flags.rf = false →
    ∃ t, step s = .next t ∧ t.tick = s.tick + 1 ∧ t.deferred = CondSet.empty ∧
      (∀ m : Fin 4, s.dbg.instrMatch m (linIP s.cpu) = true → t.dbg.dr6.getLsbD m.val = true) ∧
      t.dbg.dr6 &&& s.dbg.dr6 = s.dbg.dr6 ∧
      ∀ h, gateOf s.cpu s.mem 1 = .procedure h →
        t.cpu.cs = h.cs ∧ t.cpu.eip = h.eip ∧ t.cpu.flags.tf = false ∧
        RegsSameButESP s.cpu.regs t.cpu.regs ∧ t.dbg = { s.dbg with dr6 := t.dbg.dr6 } ∧
        MemSameBut s.mem t.mem
          (pushedBytes (entryStack s.cpu h) (frameWidth h) (entryFrame s.cpu h 0 0 none).length) ∧
        (s.cpu.paging = false → s.mem.wf = true →
          SavedFrame t (frameWidth h) 0 s.cpu.eip s.cpu.cs.sel { s.cpu.flags with rf := true }.image)

/-- With RF = 1 no instruction breakpoint faults (R115): the step is that of the instruction, unless ICE-386 uses the
debug registers. -/
def Obligations.ResumeFlagSuppressesTheBreakpoint : Prop :=
  ∀ s : State, s.cpu.flags.rf = true → s.pendingBT = false → s.dbg.undefinedCode = none → s.iceActive = false →
    step s = countStep (runInstruction s)

/-- A MOV to or from any debug register while ICE-386 uses them faults before it (R123, R78), whatever RF is: BD is
set, interrupt 1 is delivered, and a procedure handler finds the registers and the other debug registers as they
were. That RF does not suppress it is the spec's own decision, which the model takes over (D10 on conflict C9, log 34). So
at level 0, and at the other levels where the OPEN parameter GD_VS_GP puts general detect first; where it puts
general protection first, those levels take that fault with error code 0 and DR6 unchanged (R140), when no instruction
breakpoint comes before both. For every value of the parameter. -/
def Obligations.GeneralDetectFaults : Prop :=
  ∀ (s : State) (i : Instr) (len : Nat), s.pendingBT = false → s.dbg.undefinedCode = none →
    fetch s = .instr i len → (∃ r n, i = .movFromDR r n ∨ i = .movToDR n r) →
    s.iceActive = true →
    ∃ t, step s = .next t ∧
      (s.cpu.privilege = 0 ∨ Config.gdFirst = true →
        t.dbg.dr6.getLsbD 13 = true ∧ t.dbg.dr6 &&& s.dbg.dr6 = s.dbg.dr6 ∧
        ∀ h, gateOf s.cpu s.mem 1 = .procedure h →
          t.cpu.cs = h.cs ∧ t.cpu.eip = h.eip ∧ RegsSameButESP s.cpu.regs t.cpu.regs ∧
          t.dbg = { s.dbg with dr6 := t.dbg.dr6 } ∧
          (s.cpu.paging = false → s.mem.wf = true →
            SavedFrame t (frameWidth h) 0 s.cpu.eip s.cpu.cs.sel { s.cpu.flags with rf := true }.image)) ∧
      (s.cpu.privilege ≠ 0 → Config.gdFirst = false → breakpointFault s = false →
        t.dbg.dr6 = s.dbg.dr6 ∧
        ∀ h, gateOf s.cpu s.mem 13 = .procedure h →
          t.cpu.cs = h.cs ∧ t.cpu.eip = h.eip ∧ RegsSameButESP s.cpu.regs t.cpu.regs ∧ t.dbg = s.dbg ∧
          (s.cpu.paging = false → s.mem.wf = true →
            SavedFrame t (frameWidth h) (frameWidth h) s.cpu.eip s.cpu.cs.sel
              { s.cpu.flags with rf := true }.image ∧
            stackValue t 0 (frameWidth h) = 0))

/-- While some condition, enabled or not, holds an undefined code, the step is refused (R14, R15, R16, R81). -/
def Obligations.UndefinedCodesAreRefused : Prop :=
  ∀ (s : State) (n : Fin 4), s.pendingBT = false →
    (s.dbg.rw n = 2 ∨ s.dbg.len n = 2 ∨ s.dbg.rw n = 0 ∧ s.dbg.len n ≠ 0) →
    ∃ r, step s = .refused r ∧ (r = .undefinedRW ∨ r = .undefinedLEN ∨ r = .undefinedExecuteLEN)

/-! ## Delivery and return (60) -/

/-- Delivery to a procedure handler saves a frame (R136, R114, R110): the return offset, CS and the flags image, whose
RF is 1 for a fault and as in EFLAGS for a trap or an interrupt; in the handler TF is 0, and RF is 0 or as it was, as the
OPEN parameter RF_ON_ENTRY says, for every value of it (D15, log 9). An error code lies at the top of the stack, below that frame, in protected mode, and none is pushed in real mode (the family's, log 21). Delivery to a
handler that is a task (R136, R102) saves the return offset and the same image in the outgoing TSS, clears L[n] and LE
(R19), loads EFLAGS from the incoming TSS, goes to the entry point held there, and leaves a set T-bit to be reported
(R130); that the new task is nested, its level and the TSS formats are the family's (logs 27, 50). What is saved is read back
without paging, and for a task where the saved image is not overwritten by the link or an error code. -/
def Obligations.DeliverySavesTheFrame : Prop :=
  (∀ (v : Byte) (k : Delivery) (ret : W32) (code : Option W32) (s : State) (h : Handler),
    gateOf s.cpu s.mem v = .procedure h →
    (s.cpu.paging = false → s.mem.wf = true →
      SavedFrame (deliver v k ret code s) (frameWidth h)
        (if code.isSome && s.cpu.protectedMode then frameWidth h else 0) ret s.cpu.cs.sel
        { s.cpu.flags with rf := k == Delivery.fault || k == Delivery.merged || s.cpu.flags.rf }.image ∧
      ∀ x, code = some x → s.cpu.protectedMode = true →
        stackValue (deliver v k ret code s) 0 (frameWidth h) = lowBytes (frameWidth h) x) ∧
      (deliver v k ret code s).cpu.cs = h.cs ∧ (deliver v k ret code s).cpu.eip = h.eip ∧
      (deliver v k ret code s).cpu.flags.tf = false ∧
      (deliver v k ret code s).cpu.flags.rf = (if Config.rfClearedOnEntry then false else s.cpu.flags.rf) ∧
      (deliver v k ret code s).dbg = s.dbg) ∧
  ∀ (v : Byte) (k : Delivery) (ret image : W32) (code : Option W32) (s t : State) (e : TssRef) (m : Memory),
    gateOf s.cpu s.mem v = .task e → s.cpu.paging = false → s.mem.wf = true → deliver v k ret code s = t →
    image = { s.cpu.flags with rf := k == Delivery.fault || k == Delivery.merged || s.cpu.flags.rf }.image →
    m = taskSwitchMemory s.cpu s.mem e true image ret →
    t.cpu.task = e ∧ t.dbg = { s.dbg with dr7 := s.dbg.dr7 &&& ~~~localBitsDR7 } ∧
      t.cpu.eip = tssEip s.cpu m e ∧ t.cpu.cs.sel = tssCS s.cpu m e ∧ t.cpu.cpl = selLevel (tssCS s.cpu m e) ∧
      t.cpu.flags = { Flags.ofImage (tssFlagsImage s.cpu m e) with nt := true } ∧
      t.pendingBT = (s.pendingBT || tssTrapBit s.cpu m e) ∧ (code = none → t.mem = m) ∧
      ((∀ a ∈ savedImageBytes s.cpu, a ∉ laterTaskBytes s.cpu (loadTask s.cpu m e true) e code) →
        tssEip s.cpu t.mem s.cpu.task = lowBytes (if s.cpu.task.is386 then 4 else 2) ret ∧
        tssFlagsImage s.cpu t.mem s.cpu.task = lowBytes (if s.cpu.task.is386 then 4 else 2) image)

/-- A debug fault and the IRETD of its handler resume the instruction (R118, R95): CS:EIP, ESP and every register and
flag are as before but RF, which is 1, so that the instruction breakpoint does not fault again (R137). In protected mode
without paging, for a 32-bit procedure handler at the same level, level 0, whose first instruction is the IRETD. That
ESP, the level and the flags other than TF and RF (OF, IF, IOPL, NT) come back is the family's, the model's choice (logs
21, 25): R95 and R137 leave them to the base machine. -/
def Obligations.IretdResumesAfterADebugFault : Prop :=
  ∀ (s : State) (h : Handler) (x : W16), s.cpu.protectedMode = true → s.cpu.flags.vm = false → s.cpu.cpl = 0 →
    s.cpu.paging = false → s.mem.wf = true → gateOf s.cpu s.mem 1 = .procedure h → h.wide = true →
    selIndex s.cpu.cs.sel ≠ 0 → selLevel s.cpu.cs.sel = 0 →
    findDesc s.cpu s.cpu.cs.sel = some ⟨x, 0, .code s.cpu.cs.base s.cpu.cs.big⟩ →
    ∃ u, exec .iretd (deliver 1 .fault s.cpu.eip none s) = .next u ∧
      u.cpu = { s.cpu with flags := { s.cpu.flags with rf := true } } ∧ u.dbg = s.dbg ∧
      breakpointFault u = false ∧ MemSameBut s.mem u.mem (pushedBytes s.cpu 4 3)

/-- The flags image and the flags it is loaded into agree, with TF at bit 8 and RF at bit 16 (R24, R25). That bit 1 of an
image reads as 1, and the places of the other flags, are the family's, the model's choice (GK25, log 6). -/
def Obligations.FlagsImageRoundTrip : Prop :=
  ∀ f : Flags, Flags.ofImage f.image = f ∧ f.image.getLsbD 8 = f.tf ∧ f.image.getLsbD 16 = f.rf ∧
    f.image.getLsbD 1 = true

/-! ## Debug traps (60) -/

/-- An instruction, of the opcode table or of class Other, that began with TF = 1, completed and is no software interrupt
is followed by a single-step trap (R124), whatever it did to TF: BS is set, and a procedure handler is entered with the
CS:EIP of the next instruction saved, when no input is to be examined. While DR7 holds no undefined code. -/
def Obligations.SingleStepTrapFollows : Prop :=
  ∀ (s t : State) (b : Boundary), ReadyToRun s → InstructionRan s t → s.cpu.flags.tf = true →
    t.boundary = some b → b.isInt = false → t.dbg.undefinedCode = none →
    ∃ u, step s = .next u ∧ u.dbg.dr6.getLsbD 14 = true ∧
      ∀ h, gateOf t.cpu t.mem 1 = .procedure h → t.extInt = none → t.inputs = [] →
        TrapDelivered t u h (t.cpu.flags.rf || mergesFaults t)

/-- The handler of a single-step trap runs with TF = 0, and the saved image holds TF as it was at the end of the
stepped instruction (R125); its RF is that of EFLAGS, or 1 where faults of the next instruction are merged (R134). Without
paging, for a procedure handler, when no input is to be examined. -/
def Obligations.SingleStepHandlerRunsWithTFClear : Prop :=
  ∀ (t : State) (b : Boundary) (h : Handler), t.boundary = some b → t.tf0 = true → b.isInt = false →
    t.dbg.undefinedCode = none → t.extInt = none → t.inputs = [] →
    gateOf t.cpu t.mem 1 = .procedure h → t.cpu.paging = false → t.mem.wf = true →
    ∃ u, finish (.next t) = .next u ∧ u.cpu.flags.tf = false ∧ u.cpu.cs = h.cs ∧ u.cpu.eip = h.eip ∧
      SavedFrame u (frameWidth h) 0 t.cpu.eip t.cpu.cs.sel
        { t.cpu.flags with rf := t.cpu.flags.rf || mergesFaults t }.image

/-- All traps of an instruction are reported in one delivery (R134), to which the OPEN parameter REPORT_BOTH may add the
debug faults of the next instruction: separate, DR6 gets the bits of the traps alone and RF of the image is that of
EFLAGS; merged, DR6 gets both sets of bits and RF of the image is 1. For every value of the parameter, for a procedure
handler, when no input is to be examined. -/
def Obligations.TrapReportsAreSeparateOrMerged : Prop :=
  ∀ (t : State) (b : Boundary) (h : Handler), t.boundary = some b → trapPending t b = true →
    t.dbg.undefinedCode = none → t.extInt = none → t.inputs = [] → gateOf t.cpu t.mem 1 = .procedure h →
    ∃ u, finish (.next t) = .next u ∧
      (mergesFaults t = false →
        u.dbg = t.dbg.report (trapCause t b) ∧ TrapDelivered t u h t.cpu.flags.rf) ∧
      (mergesFaults t = true →
        u.dbg = (t.dbg.report (trapCause t b)).report (faultCause t) ∧ TrapDelivered t u h true)

/-- With `exact`, an enabled data breakpoint that an access of the completed instruction matches is reported at its end
(R119, R120): interrupt 1 is delivered as a trap with the CS:EIP of the next instruction saved, for a procedure handler
when no input is to be examined, and memory is as the instruction left it but for the pushed frame (R122). B[n] is set
for every matching condition, enabled or not, which is the spec's own reading (R133, D8, log 34). -/
def Obligations.ExactDataBreakpointIsReported : Prop :=
  ∀ (t : State) (b : Boundary) (n : Fin 4), t.boundary = some b → t.dbg.exact = true →
    t.dbg.undefinedCode = none → t.dbg.enabled n = true → (t.dbg.dataMatches b.accesses).has n = true →
    ∃ u, finish (.next t) = .next u ∧
      (∀ m : Fin 4, (t.dbg.dataMatches b.accesses).has m = true → u.dbg.dr6.getLsbD m.val = true) ∧
      u.deferred = CondSet.empty ∧
      ∀ h, gateOf t.cpu t.mem 1 = .procedure h → t.extInt = none → t.inputs = [] →
        TrapDelivered t u h (t.cpu.flags.rf || mergesFaults t)

/-- When none of the conditions to be reported is enabled, no access an instruction made causes a debug exception,
whatever disabled conditions it matches and whatever other condition is enabled, and DR6 is unchanged (R17, R119, R132).
That a match of a disabled condition leaves DR6 alone where nothing is
delivered is the spec's own decision, which the model takes over (D9, log 34). When nothing else is to be reported or
examined. -/
def Obligations.DisabledConditionsReportNothing : Prop :=
  ∀ (t : State) (b : Boundary), t.boundary = some b →
    (∀ n, (reportedNow t b.accesses).has n = true → t.dbg.enabled n = false) → t.tf0 = false → t.pendingBT = false → t.extInt = none → t.inputs = [] →
    ∃ u, finish (.next t) = .next u ∧ u.dbg = t.dbg ∧ u.cpu = t.cpu ∧ u.mem = t.mem

/-- A task switch to an 80386 TSS with T = 1 is reported before the first instruction of the new task (R130), whether an
instruction made it (`finish`) or a delivery (the next `step`): BT is set whatever DR7 enables and RF are, and interrupt 1
is delivered as a trap with the CS:EIP of the new task saved, once (R39), for a procedure handler when no input is to be
examined. While DR7 holds no undefined code. -/
def Obligations.TaskSwitchTrapIsReported : Prop :=
  (∀ (t : State) (b : Boundary), t.boundary = some b → t.pendingBT = true → t.dbg.undefinedCode = none →
    ∃ u, finish (.next t) = .next u ∧ u.dbg.dr6.getLsbD 15 = true ∧
      ∀ h, gateOf t.cpu t.mem 1 = .procedure h → t.extInt = none → t.inputs = [] →
        TrapDelivered t u h (t.cpu.flags.rf || mergesFaults t) ∧ u.pendingBT = false) ∧
  ∀ s : State, s.pendingBT = true → s.dbg.undefinedCode = none →
    ∃ u, step s = .next u ∧ u.dbg.dr6.getLsbD 15 = true ∧
      ∀ h, gateOf s.cpu s.mem 1 = .procedure h → s.extInt = none → s.inputs = [] →
        TrapDelivered s u h (s.cpu.flags.rf || mergesFaults s) ∧ u.pendingBT = false

/-- A debug handler task whose own TSS has T = 1 is entered again and again (R131): from the first switch to it, any
number of steps later the machine is still about to report the task switch and has executed no instruction. For an
80386 TSS, without paging. -/
def Obligations.HandlerTaskWithTrapBitNeverRuns : Prop :=
  ∀ (s : State) (e : TssRef), gateOf s.cpu s.mem 1 = .task e → s.cpu.protectedMode = true → s.cpu.task = e →
    e.is386 = true → s.cpu.paging = false → s.mem.wf = true → tssTrapBit s.cpu s.mem e = true →
    s.dbg.undefinedCode = none → s.pendingBT = true →
    ∀ k, ∃ t, Sys2Proof.core.run k s = .next t ∧ t.pendingBT = true ∧ t.cpu.task = e ∧ t.tick = s.tick + k

/-- An external interrupt pending at the end of a completed instruction is examined after its traps (R129, R139 step 7).
Without a trap it is taken with the CS:EIP of the next instruction saved and is no longer pending; while IF = 0 it stays
pending and nothing is taken. When a trap occurs together with it, single step, data breakpoint or task switch, the trap
is processed first: TF is cleared, and before the first instruction of its handler the interrupt, if still deliverable,
is taken with that instruction as its return address; if IF was 0 or the entry cleared it, it stays pending. R129 says
this order of single step alone; that a data breakpoint or task-switch trap comes first too is the spec's own decision,
which the model takes over (D42, logs 32, 34). That IF and the gate's clearing of IF decide whether the interrupt is
deliverable is the model's choice (logs 4, 21). For procedure handlers. -/
def Obligations.SingleStepComesBeforeExternalInterrupts : Prop :=
  ∀ (t : State) (b : Boundary) (x : Byte), t.boundary = some b → t.inputs = [] → t.extInt = some x →
    (trapPending t b = false → t.cpu.flags.intf = true →
      ∃ u, finish (.next t) = .next u ∧ u.extInt = none ∧
        ∀ h, gateOf t.cpu t.mem x = .procedure h → TrapDelivered t u h t.cpu.flags.rf ∧ u.dbg = t.dbg) ∧
    (trapPending t b = false → t.cpu.flags.intf = false →
      ∃ u, finish (.next t) = .next u ∧ u.extInt = some x ∧ u.cpu = t.cpu ∧ u.mem = t.mem ∧ u.dbg = t.dbg) ∧
    ∀ h, trapPending t b = true → t.dbg.undefinedCode = none → gateOf t.cpu t.mem 1 = .procedure h →
      ∃ u, TrapDelivered t u h (t.cpu.flags.rf || mergesFaults t) ∧
        u.dbg.dr6 = t.dbg.dr6 ||| (trapCause t b).mask ||| (if mergesFaults t then (faultCause t).mask else 0) ∧
        u.extInt = some x ∧
        finish (.next t) =
          if h.clearsIF || !t.cpu.flags.intf then .next u
          else .next (deliver x .interrupt h.eip none { u with extInt := none })

/-- A software interrupt that began with TF = 1 is followed by a single-step trap or by none, as the OPEN parameter
SS_AFTER_INT says (R91): the trap sets BS, with the debug faults of the next instruction where those are merged (R134),
and enters a procedure handler with CS:EIP and the flags saved as the software interrupt left them, which is the first
instruction of its own handler with TF = 0. For every value of the parameters, of LE and of GE; when no data
breakpoint is deferred, no task switch is to be reported and no input is to be examined. -/
def Obligations.SingleStepAfterASoftwareInterrupt : Prop :=
  (∀ (i : Instr) (s t : State) (v : Byte) (h : Handler), softVector i s = some v →
    softIntFault s v (needsIOPL i) = none → gateOf s.cpu s.mem v = .procedure h → exec i s = .next t →
    t.boundary = some ⟨[], true⟩ ∧ t.tf0 = s.tf0 ∧ t.cpu.cs = h.cs ∧ t.cpu.eip = h.eip ∧
      t.cpu.flags.tf = false ∧ t.cpu.flags.rf = false) ∧
  ∀ t : State, t.boundary = some ⟨[], true⟩ → t.tf0 = true → t.pendingBT = false →
    t.deferred = CondSet.empty → t.dbg.undefinedCode = none → t.extInt = none → t.inputs = [] →
    ∃ u, finish (.next t) = .next u ∧
      (Config.ssAfterInt = false → u = { t with boundary := none }) ∧
      (Config.ssAfterInt = true →
        u.dbg.dr6 = t.dbg.dr6 ||| 0x4000 ||| (if mergesFaults t then (faultCause t).mask else 0) ∧
        ∀ h, gateOf t.cpu t.mem 1 = .procedure h → TrapDelivered t u h (t.cpu.flags.rf || mergesFaults t))

/-- Without `exact` a data breakpoint match is reported now, or put off to the next boundary, or neither, never both;
and only what was put off at the boundary before can be reported without a match (R121). -/
def Obligations.InexactReportsAreNowNextOrNever : Prop :=
  ∀ (t : State) (a : List Access) (n : Fin 4), t.dbg.exact = false →
    ((reportedNow t a).has n = true → (t.dbg.dataMatches a).has n = true ∨ t.deferred.has n = true) ∧
      ((reportedNext t a).has n = true → (t.dbg.dataMatches a).has n = true ∧
        ((reportedNow t a).has n = true → t.deferred.has n = true))

/-- With `exact` nothing stays deferred (R31, R121), and a fault drops what was deferred, which is the spec's own decision
that the model takes over (D21, log 34). -/
def Obligations.NothingStaysDeferred : Prop :=
  (∀ (t u : State) (b : Boundary), t.boundary = some b → t.dbg.exact = true → finish (.next t) = .next u →
    u.deferred = CondSet.empty) ∧
    ∀ (v : Byte) (ret : W32) (code : Option W32) (s : State),
      (deliver v .fault ret code s).deferred = CondSet.empty

/-! ## The debug registers over the whole machine -/

/-- The processor never clears a bit of DR6 (R21): a step that is not a MOV to DR6 keeps every set bit. -/
def Obligations.ProcessorNeverClearsDR6 : Prop :=
  ∀ s t : State, step s = .next t → (∀ r len, fetch s ≠ .instr (.movToDR .dr6 r) len) →
    t.dbg.dr6 &&& s.dbg.dr6 = s.dbg.dr6

/-- Only a MOV to a debug register changes DR0 to DR3 (R11) or sets a bit of DR7: every other step leaves DR7 as it is or
as a task switch leaves it (R19, R37). -/
def Obligations.OnlyMovWritesTheDebugRegisters : Prop :=
  ∀ s t : State, step s = .next t → (∀ n r len, fetch s ≠ .instr (.movToDR n r) len) →
    t.dbg.dr0 = s.dbg.dr0 ∧ t.dbg.dr1 = s.dbg.dr1 ∧ t.dbg.dr2 = s.dbg.dr2 ∧ t.dbg.dr3 = s.dbg.dr3 ∧
      (t.dbg.dr7 = s.dbg.dr7 ∨ t.dbg.dr7 = s.dbg.dr7 &&& ~~~localBitsDR7)

/-- No step that begins at a level other than 0 writes a debug register, not even one whose instruction is a MOV to
one (R37, R77): what a task switch clears and what a delivery records is all that changes. -/
def Obligations.OtherLevelsNeverWriteTheDebugRegisters : Prop :=
  ∀ s t : State, step s = .next t → s.cpu.privilege ≠ 0 →
    t.dbg.dr0 = s.dbg.dr0 ∧ t.dbg.dr1 = s.dbg.dr1 ∧ t.dbg.dr2 = s.dbg.dr2 ∧ t.dbg.dr3 = s.dbg.dr3 ∧
      (t.dbg.dr7 = s.dbg.dr7 ∨ t.dbg.dr7 = s.dbg.dr7 &&& ~~~localBitsDR7) ∧
      t.dbg.dr6 &&& s.dbg.dr6 = s.dbg.dr6

/-- Under the premise NoICE no step of the processor sets BD, and every step keeps the premise, a MOV to DR6 too (R32,
R123); BD is then as software left it. -/
def Obligations.WithoutICENoGeneralDetect : Prop :=
  ∀ s t : State, s.noICE = true → step s = .next t →
    t.noICE = true ∧ ((∀ r len, fetch s ≠ .instr (.movToDR .dr6 r) len) →
      t.dbg.dr6.getLsbD 13 = s.dbg.dr6.getLsbD 13)

/-! ## Fields and matching (10, 20) -/

/-- The fields of DR7 lie where R23 puts them, bits 10 to 15 have no name, a condition is enabled by either of its bits
(R17), and `exact` holds by either of LE and GE (R18). -/
def Obligations.FieldsOfDR7 : Prop :=
  ∀ (d : Debug) (n : Fin 4),
    d.localEnable n = d.dr7.getLsbD (2 * n.val) ∧ d.globalEnable n = d.dr7.getLsbD (2 * n.val + 1) ∧
      d.rw n = d.dr7.extractLsb' (16 + 4 * n.val) 2 ∧ d.len n = d.dr7.extractLsb' (18 + 4 * n.val) 2 ∧
      Config.layout.le = 8 ∧ Config.layout.ge = 9 ∧ definedDR7 = 0xFFFF03FF ∧
      d.enabled n = (d.localEnable n || d.globalEnable n) ∧ d.exact = (d.dr7.getLsbD 8 || d.dr7.getLsbD 9)

/-- A report sets exactly the DR6 bits of its cause where R22 puts them, and clears none (R21, R132). -/
def Obligations.ReportSetsTheBitsOfDR6 : Prop :=
  ∀ (d : Debug) (k : Cause),
    (∀ n : Fin 4, (d.report k).dr6.getLsbD n.val = (d.dr6.getLsbD n.val || k.b.has n)) ∧
      (d.report k).dr6.getLsbD 13 = (d.dr6.getLsbD 13 || k.bd) ∧
      (d.report k).dr6.getLsbD 14 = (d.dr6.getLsbD 14 || k.bs) ∧
      (d.report k).dr6.getLsbD 15 = (d.dr6.getLsbD 15 || k.bt) ∧
      (∀ b, 4 ≤ b → b < 32 → b ≠ 13 → b ≠ 14 → b ≠ 15 → (d.report k).dr6.getLsbD b = d.dr6.getLsbD b) ∧
      (d.report k).dr7 = d.dr7 ∧ ∀ n, (d.report k).addr n = d.addr n

/-- The field of a condition (R42, R15): `size` bytes, 1, 2 or 4 for LEN 00, 01, 11, from the address rounded down to a
multiple of `size`; it never wraps. -/
def Obligations.FieldOfACondition : Prop :=
  ∀ (d : Debug) (n : Fin 4) (size : Nat),
    (d.len n = 0 ∧ size = 1 ∨ d.len n = 1 ∧ size = 2 ∨ d.len n = 3 ∧ size = 4) →
    (d.base n).toNat = (d.addr n).toNat / size * size ∧ (d.base n).toNat + size ≤ 2 ^ 32 ∧
      ∀ a : W32, d.inField n a = true ↔ (d.base n).toNat ≤ a.toNat ∧ a.toNat < (d.base n).toNat + size

/-- An access that does not cross the top of the address space overlaps a field exactly when the two intervals of
addresses do (R43). -/
def Obligations.OverlapIsIntervalOverlap : Prop :=
  ∀ (d : Debug) (n : Fin 4) (size : Nat) (a : Access),
    (d.len n = 0 ∧ size = 1 ∨ d.len n = 1 ∧ size = 2 ∨ d.len n = 3 ∧ size = 4) →
    1 ≤ a.size → a.addr.toNat + a.size ≤ 2 ^ 32 →
    (d.overlaps n a = true ↔
      a.addr.toNat < (d.base n).toNat + size ∧ (d.base n).toNat < a.addr.toNat + a.size)

/-- A data access matches a condition exactly when one of its bytes is in the field and its kind is one the condition
breaks on (R43): 01 writes, 11 reads and writes, 00 neither (R44). The field is `size` bytes from the address with its
low bits masked (R42), `size` being 1, 2 or 4 for LEN 00, 01, 11 (R15). That the bytes of an access wrap modulo 2^32 is
the spec's own choice, which the model takes over (D22, log 30). -/
def Obligations.DataMatchIsByBytesAndKind : Prop :=
  ∀ (d : Debug) (n : Fin 4) (size : Nat) (a : Access),
    (d.len n = 0 ∧ size = 1 ∨ d.len n = 1 ∧ size = 2 ∨ d.len n = 3 ∧ size = 4) → d.rw n ≠ 2 →
    (d.dataMatch n a = true ↔
      (∃ i < a.size, (d.base n).toNat ≤ (a.addr.toNat + i) % 2 ^ 32 ∧
        (a.addr.toNat + i) % 2 ^ 32 ≤ (d.base n).toNat + size - 1) ∧
        (d.rw n = 1 ∧ a.kind = .write ∨ d.rw n = 3)) ∧
      d.base n = d.addr n &&& ~~~(BitVec.ofNat 32 (size - 1))

/-- A condition, enabled or not, matches an instruction exactly when it is an execution breakpoint of one byte whose
address is that of the instruction's first byte (R45). The instruction about to be executed meets a breakpoint fault exactly when RF = 0 and some enabled condition is an
execution breakpoint of one byte whose address is that of the instruction's first byte, its first prefix if it has any
(R45, R113, R115, R17): the address LinIP, from which the fetch reads the instruction, and none of its later bytes. Data
conditions never match one, and an execution breakpoint of another length is an undefined code, which the step refuses. -/
def Obligations.InstructionMatchIsAtTheFirstByte : Prop :=
  (∀ (d : Debug) (n : Fin 4) (ip : W32), d.instrMatch n ip = true ↔ d.rw n = 0 ∧ d.len n = 0 ∧ d.addr n = ip) ∧
  (∀ s : State, breakpointFault s = true ↔
    s.cpu.flags.rf = false ∧ ∃ n, s.dbg.enabled n = true ∧ s.dbg.rw n = 0 ∧ s.dbg.len n = 0 ∧
      s.dbg.addr n = linIP s.cpu) ∧
  (∀ (s : State) (n : Fin 4) (k : Nat), 0 < k → k < maxLength →
    s.dbg.addr n = linIP s.cpu + BitVec.ofNat 32 k → s.dbg.instrMatch n (linIP s.cpu) = false) ∧
  (∀ (s : State) (i : Instr) (len : Nat), fetch s = .instr i len →
    ∃ bs, bs = (fetchBytes s maxLength (linIP s.cpu)).1 ∧ decode s.cpu.codeBig bs = .instr i len ∧
      bs.head? = some (readByte s.cpu s.mem (linIP s.cpu))) ∧
  ∀ (d : Debug) (n : Fin 4), d.rw n = 0 → d.len n ≠ 0 → d.undefinedCode ≠ none

/-- Breakpoints are matched on linear addresses, whatever paging does with them (R12, R41): neither the breakpoint fault of
an instruction nor the data conditions reported for its accesses depend on paging, the address space or the page tables.
Without paging a linear address is the physical one. -/
def Obligations.MatchingIsOnLinearAddresses : Prop :=
  (∀ (s : State) (paging : Bool) (space : W32) (pages : List PageEntry),
    breakpointFault { s with cpu := { s.cpu with paging := paging, space := space, pages := pages } } =
      breakpointFault s) ∧
    (∀ (s : State) (paging : Bool) (space : W32) (pages : List PageEntry) (b : Boundary),
      trapCause { s with cpu := { s.cpu with paging := paging, space := space, pages := pages } } b = trapCause s b ∧
        trapPending { s with cpu := { s.cpu with paging := paging, space := space, pages := pages } } b =
          trapPending s b) ∧
    ∀ (c : Cpu) (a : W32), c.paging = false → physical c a = a.toNat

/-! ## Fetch and class Other -/

/-- An instruction any byte of which a store has written is refused, unless the base machine defines its fetch (R56):
byte `k` counts when the bytes before it do not yet make up the instruction, or when it lies within the length of an
instruction of class Other. -/
def Obligations.WrittenCodeIsRefused : Prop :=
  ∀ (s : State) (bs : List Byte), ReadyToRun s → s.coherentFetch = false → bs.length < maxLength →
    (∀ j, ∀ h : j < bs.length, bs[j] = readByte s.cpu s.mem (linIP s.cpu + BitVec.ofNat 32 j) ∧
      pagePresent s.cpu (linIP s.cpu + BitVec.ofNat 32 j) = true ∧
      s.mem.isWritten (physical s.cpu (linIP s.cpu + BitVec.ofNat 32 j)) = false) →
    (decode s.cpu.codeBig bs = .truncated ∨
      decode s.cpu.codeBig bs = .unlisted ∧ bs.length < Config.otherLength s.tick) →
    pagePresent s.cpu (linIP s.cpu + BitVec.ofNat 32 bs.length) = true →
    s.mem.isWritten (physical s.cpu (linIP s.cpu + BitVec.ofNat 32 bs.length)) = true →
    step s = .refused .writtenCodeFetched

/-- A MOV to or from a debug register whose ModRM mod field is not 11 is refused (R62, R67, D25), whatever the debug
register and the level. -/
def Obligations.MovDebugOtherModIsRefused : Prop :=
  (∀ (big toDebug : Bool) (modrm : Byte) (rest : List Byte), fieldMod modrm ≠ 3 →
    decode big (0x0F :: (if toDebug then 0x23 else 0x21) :: modrm :: rest) = .movDebugMod) ∧
    ∀ s : State, ReadyToRun s →
      decode s.cpu.codeBig (fetchBytes s maxLength (linIP s.cpu)).1 = .movDebugMod →
      step s = .refused .movDebugMod

/-- An instruction of class Other, whether one of the ordinary instructions or one that the base machine answers freely,
takes a base fault that is not interrupt 1 (R6, R112), or it completes: then RF is cleared, no task switch is made, and the
debug registers and the hidden debug state stay (R104). TF stays too, so that a return to a less privileged level does not
clear it (R103), and the task register; that no such instruction writes these two is the model's choice (log 11). -/
def Obligations.OtherInstructionsKeepTheDebugState : Prop :=
  ∀ s : State, KeepsDebugState s (runOther s) ∧ ∀ o, KeepsDebugState s (runOrdinary o s)
end

