-- ==== Sys2Proof/Laws/State.lean ====
section
/-! SUPPORT. One lemma a field for every named update of the state, true by unfolding the update, so that no later
proof unfolds a record update. -/

namespace Sys2Proof.Machine

/-! ## Cpu.setRF -/

@[simp] theorem setRF_regs (c : Cpu) (b : Bool) : (c.setRF b).regs = c.regs := rfl
@[simp] theorem setRF_eip (c : Cpu) (b : Bool) : (c.setRF b).eip = c.eip := rfl
@[simp] theorem setRF_flags (c : Cpu) (b : Bool) : (c.setRF b).flags = { c.flags with rf := b } := rfl
@[simp] theorem setRF_cs (c : Cpu) (b : Bool) : (c.setRF b).cs = c.cs := rfl
@[simp] theorem setRF_ss (c : Cpu) (b : Bool) : (c.setRF b).ss = c.ss := rfl
@[simp] theorem setRF_ds (c : Cpu) (b : Bool) : (c.setRF b).ds = c.ds := rfl
@[simp] theorem setRF_es (c : Cpu) (b : Bool) : (c.setRF b).es = c.es := rfl
@[simp] theorem setRF_fs (c : Cpu) (b : Bool) : (c.setRF b).fs = c.fs := rfl
@[simp] theorem setRF_gs (c : Cpu) (b : Bool) : (c.setRF b).gs = c.gs := rfl
@[simp] theorem setRF_cpl (c : Cpu) (b : Bool) : (c.setRF b).cpl = c.cpl := rfl
@[simp] theorem setRF_protectedMode (c : Cpu) (b : Bool) : (c.setRF b).protectedMode = c.protectedMode := rfl
@[simp] theorem setRF_paging (c : Cpu) (b : Bool) : (c.setRF b).paging = c.paging := rfl
@[simp] theorem setRF_space (c : Cpu) (b : Bool) : (c.setRF b).space = c.space := rfl
@[simp] theorem setRF_cr2 (c : Cpu) (b : Bool) : (c.setRF b).cr2 = c.cr2 := rfl
@[simp] theorem setRF_task (c : Cpu) (b : Bool) : (c.setRF b).task = c.task := rfl
@[simp] theorem setRF_gates (c : Cpu) (b : Bool) : (c.setRF b).gates = c.gates := rfl
@[simp] theorem setRF_descs (c : Cpu) (b : Bool) : (c.setRF b).descs = c.descs := rfl
@[simp] theorem setRF_pages (c : Cpu) (b : Bool) : (c.setRF b).pages = c.pages := rfl

/-! ## otherCpu -/

@[simp] theorem otherCpu_task (s : State) (c : Cpu) : (otherCpu s c).task = s.cpu.task := rfl
@[simp] theorem otherCpu_tf (s : State) (c : Cpu) : (otherCpu s c).flags.tf = s.cpu.flags.tf := rfl
@[simp] theorem otherCpu_rf (s : State) (c : Cpu) : (otherCpu s c).flags.rf = false := rfl
@[simp] theorem otherCpu_regs (s : State) (c : Cpu) : (otherCpu s c).regs = c.regs := rfl
@[simp] theorem otherCpu_eip (s : State) (c : Cpu) : (otherCpu s c).eip = c.eip := rfl
@[simp] theorem otherCpu_cs (s : State) (c : Cpu) : (otherCpu s c).cs = c.cs := rfl
@[simp] theorem otherCpu_cpl (s : State) (c : Cpu) : (otherCpu s c).cpl = c.cpl := rfl

/-! ## setStackTop -/

@[simp] theorem setStackTop_eip (c : Cpu) (off : W32) : (setStackTop c off).eip = c.eip := rfl
@[simp] theorem setStackTop_flags (c : Cpu) (off : W32) : (setStackTop c off).flags = c.flags := rfl
@[simp] theorem setStackTop_cs (c : Cpu) (off : W32) : (setStackTop c off).cs = c.cs := rfl
@[simp] theorem setStackTop_ss (c : Cpu) (off : W32) : (setStackTop c off).ss = c.ss := rfl
@[simp] theorem setStackTop_ds (c : Cpu) (off : W32) : (setStackTop c off).ds = c.ds := rfl
@[simp] theorem setStackTop_es (c : Cpu) (off : W32) : (setStackTop c off).es = c.es := rfl
@[simp] theorem setStackTop_fs (c : Cpu) (off : W32) : (setStackTop c off).fs = c.fs := rfl
@[simp] theorem setStackTop_gs (c : Cpu) (off : W32) : (setStackTop c off).gs = c.gs := rfl
@[simp] theorem setStackTop_cpl (c : Cpu) (off : W32) : (setStackTop c off).cpl = c.cpl := rfl
@[simp] theorem setStackTop_protectedMode (c : Cpu) (off : W32) :
    (setStackTop c off).protectedMode = c.protectedMode := rfl
@[simp] theorem setStackTop_paging (c : Cpu) (off : W32) : (setStackTop c off).paging = c.paging := rfl
@[simp] theorem setStackTop_space (c : Cpu) (off : W32) : (setStackTop c off).space = c.space := rfl
@[simp] theorem setStackTop_cr2 (c : Cpu) (off : W32) : (setStackTop c off).cr2 = c.cr2 := rfl
@[simp] theorem setStackTop_task (c : Cpu) (off : W32) : (setStackTop c off).task = c.task := rfl
@[simp] theorem setStackTop_gates (c : Cpu) (off : W32) : (setStackTop c off).gates = c.gates := rfl
@[simp] theorem setStackTop_descs (c : Cpu) (off : W32) : (setStackTop c off).descs = c.descs := rfl
@[simp] theorem setStackTop_pages (c : Cpu) (off : W32) : (setStackTop c off).pages = c.pages := rfl

/-! ## setStackTop: registers -/

@[simp] theorem setStackTop_eax (c : Cpu) (off : W32) : (setStackTop c off).regs.eax = c.regs.eax := rfl
@[simp] theorem setStackTop_ecx (c : Cpu) (off : W32) : (setStackTop c off).regs.ecx = c.regs.ecx := rfl
@[simp] theorem setStackTop_edx (c : Cpu) (off : W32) : (setStackTop c off).regs.edx = c.regs.edx := rfl
@[simp] theorem setStackTop_ebx (c : Cpu) (off : W32) : (setStackTop c off).regs.ebx = c.regs.ebx := rfl
@[simp] theorem setStackTop_ebp (c : Cpu) (off : W32) : (setStackTop c off).regs.ebp = c.regs.ebp := rfl
@[simp] theorem setStackTop_esi (c : Cpu) (off : W32) : (setStackTop c off).regs.esi = c.regs.esi := rfl
@[simp] theorem setStackTop_edi (c : Cpu) (off : W32) : (setStackTop c off).regs.edi = c.regs.edi := rfl

/-! ## popBytes -/

@[simp] theorem popBytes_eip (c : Cpu) (n : Nat) : (popBytes c n).eip = c.eip := rfl
@[simp] theorem popBytes_flags (c : Cpu) (n : Nat) : (popBytes c n).flags = c.flags := rfl
@[simp] theorem popBytes_cs (c : Cpu) (n : Nat) : (popBytes c n).cs = c.cs := rfl
@[simp] theorem popBytes_ss (c : Cpu) (n : Nat) : (popBytes c n).ss = c.ss := rfl
@[simp] theorem popBytes_ds (c : Cpu) (n : Nat) : (popBytes c n).ds = c.ds := rfl
@[simp] theorem popBytes_es (c : Cpu) (n : Nat) : (popBytes c n).es = c.es := rfl
@[simp] theorem popBytes_fs (c : Cpu) (n : Nat) : (popBytes c n).fs = c.fs := rfl
@[simp] theorem popBytes_gs (c : Cpu) (n : Nat) : (popBytes c n).gs = c.gs := rfl
@[simp] theorem popBytes_cpl (c : Cpu) (n : Nat) : (popBytes c n).cpl = c.cpl := rfl
@[simp] theorem popBytes_protectedMode (c : Cpu) (n : Nat) : (popBytes c n).protectedMode = c.protectedMode := rfl
@[simp] theorem popBytes_paging (c : Cpu) (n : Nat) : (popBytes c n).paging = c.paging := rfl
@[simp] theorem popBytes_space (c : Cpu) (n : Nat) : (popBytes c n).space = c.space := rfl
@[simp] theorem popBytes_cr2 (c : Cpu) (n : Nat) : (popBytes c n).cr2 = c.cr2 := rfl
@[simp] theorem popBytes_task (c : Cpu) (n : Nat) : (popBytes c n).task = c.task := rfl
@[simp] theorem popBytes_gates (c : Cpu) (n : Nat) : (popBytes c n).gates = c.gates := rfl
@[simp] theorem popBytes_descs (c : Cpu) (n : Nat) : (popBytes c n).descs = c.descs := rfl
@[simp] theorem popBytes_pages (c : Cpu) (n : Nat) : (popBytes c n).pages = c.pages := rfl

/-! ## enterFar -/

@[simp] theorem enterFar_regs (c : Cpu) (cs : Seg) (eip : W32) (l : BitVec 2) :
    (enterFar c cs eip l).regs = c.regs := rfl
@[simp] theorem enterFar_eip (c : Cpu) (cs : Seg) (eip : W32) (l : BitVec 2) : (enterFar c cs eip l).eip = eip := rfl
@[simp] theorem enterFar_flags (c : Cpu) (cs : Seg) (eip : W32) (l : BitVec 2) :
    (enterFar c cs eip l).flags = { c.flags with rf := false } := rfl
@[simp] theorem enterFar_cs (c : Cpu) (cs : Seg) (eip : W32) (l : BitVec 2) : (enterFar c cs eip l).cs = cs := rfl
@[simp] theorem enterFar_ss (c : Cpu) (cs : Seg) (eip : W32) (l : BitVec 2) : (enterFar c cs eip l).ss = c.ss := rfl
@[simp] theorem enterFar_ds (c : Cpu) (cs : Seg) (eip : W32) (l : BitVec 2) : (enterFar c cs eip l).ds = c.ds := rfl
@[simp] theorem enterFar_es (c : Cpu) (cs : Seg) (eip : W32) (l : BitVec 2) : (enterFar c cs eip l).es = c.es := rfl
@[simp] theorem enterFar_fs (c : Cpu) (cs : Seg) (eip : W32) (l : BitVec 2) : (enterFar c cs eip l).fs = c.fs := rfl
@[simp] theorem enterFar_gs (c : Cpu) (cs : Seg) (eip : W32) (l : BitVec 2) : (enterFar c cs eip l).gs = c.gs := rfl
@[simp] theorem enterFar_cpl (c : Cpu) (cs : Seg) (eip : W32) (l : BitVec 2) : (enterFar c cs eip l).cpl = l := rfl
@[simp] theorem enterFar_protectedMode (c : Cpu) (cs : Seg) (eip : W32) (l : BitVec 2) :
    (enterFar c cs eip l).protectedMode = c.protectedMode := rfl
@[simp] theorem enterFar_paging (c : Cpu) (cs : Seg) (eip : W32) (l : BitVec 2) :
    (enterFar c cs eip l).paging = c.paging := rfl
@[simp] theorem enterFar_space (c : Cpu) (cs : Seg) (eip : W32) (l : BitVec 2) :
    (enterFar c cs eip l).space = c.space := rfl
@[simp] theorem enterFar_cr2 (c : Cpu) (cs : Seg) (eip : W32) (l : BitVec 2) :
    (enterFar c cs eip l).cr2 = c.cr2 := rfl
@[simp] theorem enterFar_task (c : Cpu) (cs : Seg) (eip : W32) (l : BitVec 2) :
    (enterFar c cs eip l).task = c.task := rfl
@[simp] theorem enterFar_gates (c : Cpu) (cs : Seg) (eip : W32) (l : BitVec 2) :
    (enterFar c cs eip l).gates = c.gates := rfl
@[simp] theorem enterFar_descs (c : Cpu) (cs : Seg) (eip : W32) (l : BitVec 2) :
    (enterFar c cs eip l).descs = c.descs := rfl
@[simp] theorem enterFar_pages (c : Cpu) (cs : Seg) (eip : W32) (l : BitVec 2) :
    (enterFar c cs eip l).pages = c.pages := rfl

/-! ## Flags.withArith -/

@[simp] theorem withArith_cf (f : Flags) (a : ArithFlags) : (f.withArith a).cf = a.cf := rfl
@[simp] theorem withArith_pf (f : Flags) (a : ArithFlags) : (f.withArith a).pf = a.pf := rfl
@[simp] theorem withArith_af (f : Flags) (a : ArithFlags) : (f.withArith a).af = a.af := rfl
@[simp] theorem withArith_zf (f : Flags) (a : ArithFlags) : (f.withArith a).zf = a.zf := rfl
@[simp] theorem withArith_sf (f : Flags) (a : ArithFlags) : (f.withArith a).sf = a.sf := rfl
@[simp] theorem withArith_tf (f : Flags) (a : ArithFlags) : (f.withArith a).tf = f.tf := rfl
@[simp] theorem withArith_intf (f : Flags) (a : ArithFlags) : (f.withArith a).intf = f.intf := rfl
@[simp] theorem withArith_df (f : Flags) (a : ArithFlags) : (f.withArith a).df = f.df := rfl
@[simp] theorem withArith_ovf (f : Flags) (a : ArithFlags) : (f.withArith a).ovf = a.ovf := rfl
@[simp] theorem withArith_iopl (f : Flags) (a : ArithFlags) : (f.withArith a).iopl = f.iopl := rfl
@[simp] theorem withArith_nt (f : Flags) (a : ArithFlags) : (f.withArith a).nt = f.nt := rfl
@[simp] theorem withArith_rf (f : Flags) (a : ArithFlags) : (f.withArith a).rf = f.rf := rfl
@[simp] theorem withArith_vm (f : Flags) (a : ArithFlags) : (f.withArith a).vm = f.vm := rfl

/-! ## loadFlags -/

@[simp] theorem loadFlags_cf (c : Cpu) (w : Bool) (n : Flags) : (loadFlags c w n).cf = n.cf := rfl
@[simp] theorem loadFlags_pf (c : Cpu) (w : Bool) (n : Flags) : (loadFlags c w n).pf = n.pf := rfl
@[simp] theorem loadFlags_af (c : Cpu) (w : Bool) (n : Flags) : (loadFlags c w n).af = n.af := rfl
@[simp] theorem loadFlags_zf (c : Cpu) (w : Bool) (n : Flags) : (loadFlags c w n).zf = n.zf := rfl
@[simp] theorem loadFlags_sf (c : Cpu) (w : Bool) (n : Flags) : (loadFlags c w n).sf = n.sf := rfl
@[simp] theorem loadFlags_tf (c : Cpu) (w : Bool) (n : Flags) : (loadFlags c w n).tf = n.tf := rfl
@[simp] theorem loadFlags_df (c : Cpu) (w : Bool) (n : Flags) : (loadFlags c w n).df = n.df := rfl
@[simp] theorem loadFlags_ovf (c : Cpu) (w : Bool) (n : Flags) : (loadFlags c w n).ovf = n.ovf := rfl
@[simp] theorem loadFlags_nt (c : Cpu) (w : Bool) (n : Flags) : (loadFlags c w n).nt = n.nt := rfl

@[simp] theorem loadFlags_vm (c : Cpu) (w : Bool) (n : Flags) : (loadFlags c w n).vm = c.flags.vm := rfl
@[simp] theorem loadFlags_rf_wide (c : Cpu) (n : Flags) : (loadFlags c true n).rf = n.rf := rfl
@[simp] theorem loadFlags_rf_narrow (c : Cpu) (n : Flags) : (loadFlags c false n).rf = c.flags.rf := rfl

/-! ## entryFlags -/

@[simp] theorem entryFlags_cf (c : Cpu) (h : Handler) : (entryFlags c h).cf = c.flags.cf := rfl
@[simp] theorem entryFlags_pf (c : Cpu) (h : Handler) : (entryFlags c h).pf = c.flags.pf := rfl
@[simp] theorem entryFlags_af (c : Cpu) (h : Handler) : (entryFlags c h).af = c.flags.af := rfl
@[simp] theorem entryFlags_zf (c : Cpu) (h : Handler) : (entryFlags c h).zf = c.flags.zf := rfl
@[simp] theorem entryFlags_sf (c : Cpu) (h : Handler) : (entryFlags c h).sf = c.flags.sf := rfl
@[simp] theorem entryFlags_tf (c : Cpu) (h : Handler) : (entryFlags c h).tf = false := rfl
@[simp] theorem entryFlags_df (c : Cpu) (h : Handler) : (entryFlags c h).df = c.flags.df := rfl
@[simp] theorem entryFlags_ovf (c : Cpu) (h : Handler) : (entryFlags c h).ovf = c.flags.ovf := rfl
@[simp] theorem entryFlags_iopl (c : Cpu) (h : Handler) : (entryFlags c h).iopl = c.flags.iopl := rfl
@[simp] theorem entryFlags_vm (c : Cpu) (h : Handler) : (entryFlags c h).vm = false := rfl

/-! ## Debug.report -/

@[simp] theorem report_dr0 (d : Debug) (k : Cause) : (d.report k).dr0 = d.dr0 := rfl
@[simp] theorem report_dr1 (d : Debug) (k : Cause) : (d.report k).dr1 = d.dr1 := rfl
@[simp] theorem report_dr2 (d : Debug) (k : Cause) : (d.report k).dr2 = d.dr2 := rfl
@[simp] theorem report_dr3 (d : Debug) (k : Cause) : (d.report k).dr3 = d.dr3 := rfl
@[simp] theorem report_dr6 (d : Debug) (k : Cause) : (d.report k).dr6 = d.dr6 ||| k.mask := rfl
@[simp] theorem report_dr7 (d : Debug) (k : Cause) : (d.report k).dr7 = d.dr7 := rfl

/-! ## Debug.afterTaskSwitch -/

@[simp] theorem afterTaskSwitch_dr0 (d : Debug) : (d.afterTaskSwitch).dr0 = d.dr0 := rfl
@[simp] theorem afterTaskSwitch_dr1 (d : Debug) : (d.afterTaskSwitch).dr1 = d.dr1 := rfl
@[simp] theorem afterTaskSwitch_dr2 (d : Debug) : (d.afterTaskSwitch).dr2 = d.dr2 := rfl
@[simp] theorem afterTaskSwitch_dr3 (d : Debug) : (d.afterTaskSwitch).dr3 = d.dr3 := rfl
@[simp] theorem afterTaskSwitch_dr6 (d : Debug) : (d.afterTaskSwitch).dr6 = d.dr6 := rfl
@[simp] theorem afterTaskSwitch_dr7 (d : Debug) : (d.afterTaskSwitch).dr7 = d.dr7 &&& ~~~localBitsDR7 := rfl

/-! ## complete -/

@[simp] theorem complete_cpu (as : List Access) (s : State) : (complete as s).cpu = s.cpu := rfl
@[simp] theorem complete_mem (as : List Access) (s : State) : (complete as s).mem = s.mem := rfl
@[simp] theorem complete_dbg (as : List Access) (s : State) : (complete as s).dbg = s.dbg := rfl
@[simp] theorem complete_tf0 (as : List Access) (s : State) : (complete as s).tf0 = s.tf0 := rfl
@[simp] theorem complete_deferred (as : List Access) (s : State) : (complete as s).deferred = s.deferred := rfl
@[simp] theorem complete_pendingBT (as : List Access) (s : State) : (complete as s).pendingBT = s.pendingBT := rfl
@[simp] theorem complete_iceActive (as : List Access) (s : State) : (complete as s).iceActive = s.iceActive := rfl
@[simp] theorem complete_extInt (as : List Access) (s : State) : (complete as s).extInt = s.extInt := rfl
@[simp] theorem complete_inputs (as : List Access) (s : State) : (complete as s).inputs = s.inputs := rfl
@[simp] theorem complete_coherentFetch (as : List Access) (s : State) :
    (complete as s).coherentFetch = s.coherentFetch := rfl
@[simp] theorem complete_reservedAsWritten (as : List Access) (s : State) :
    (complete as s).reservedAsWritten = s.reservedAsWritten := rfl
@[simp] theorem complete_nip (as : List Access) (s : State) : (complete as s).nip = s.nip := rfl
@[simp] theorem complete_boundary (as : List Access) (s : State) : (complete as s).boundary = some ⟨as, false⟩ := rfl
@[simp] theorem complete_tick (as : List Access) (s : State) : (complete as s).tick = s.tick := rfl

/-! ## retire -/

@[simp] theorem retire_cpu (as : List Access) (s : State) :
    (retire as s).cpu = ({ s.cpu with eip := s.nip } : Cpu).setRF false := rfl
@[simp] theorem retire_mem (as : List Access) (s : State) : (retire as s).mem = s.mem := rfl
@[simp] theorem retire_dbg (as : List Access) (s : State) : (retire as s).dbg = s.dbg := rfl
@[simp] theorem retire_tf0 (as : List Access) (s : State) : (retire as s).tf0 = s.tf0 := rfl
@[simp] theorem retire_deferred (as : List Access) (s : State) : (retire as s).deferred = s.deferred := rfl
@[simp] theorem retire_pendingBT (as : List Access) (s : State) : (retire as s).pendingBT = s.pendingBT := rfl
@[simp] theorem retire_iceActive (as : List Access) (s : State) : (retire as s).iceActive = s.iceActive := rfl
@[simp] theorem retire_extInt (as : List Access) (s : State) : (retire as s).extInt = s.extInt := rfl
@[simp] theorem retire_inputs (as : List Access) (s : State) : (retire as s).inputs = s.inputs := rfl
@[simp] theorem retire_coherentFetch (as : List Access) (s : State) :
    (retire as s).coherentFetch = s.coherentFetch := rfl
@[simp] theorem retire_reservedAsWritten (as : List Access) (s : State) :
    (retire as s).reservedAsWritten = s.reservedAsWritten := rfl
@[simp] theorem retire_nip (as : List Access) (s : State) : (retire as s).nip = s.nip := rfl
@[simp] theorem retire_boundary (as : List Access) (s : State) : (retire as s).boundary = some ⟨as, false⟩ := rfl
@[simp] theorem retire_tick (as : List Access) (s : State) : (retire as s).tick = s.tick := rfl

/-! ## State.withFlags -/

@[simp] theorem withFlags_cpu (s : State) (f : Flags) : (s.withFlags f).cpu = { s.cpu with flags := f } := rfl
@[simp] theorem withFlags_mem (s : State) (f : Flags) : (s.withFlags f).mem = s.mem := rfl
@[simp] theorem withFlags_dbg (s : State) (f : Flags) : (s.withFlags f).dbg = s.dbg := rfl
@[simp] theorem withFlags_tf0 (s : State) (f : Flags) : (s.withFlags f).tf0 = s.tf0 := rfl
@[simp] theorem withFlags_deferred (s : State) (f : Flags) : (s.withFlags f).deferred = s.deferred := rfl
@[simp] theorem withFlags_pendingBT (s : State) (f : Flags) : (s.withFlags f).pendingBT = s.pendingBT := rfl
@[simp] theorem withFlags_iceActive (s : State) (f : Flags) : (s.withFlags f).iceActive = s.iceActive := rfl
@[simp] theorem withFlags_extInt (s : State) (f : Flags) : (s.withFlags f).extInt = s.extInt := rfl
@[simp] theorem withFlags_inputs (s : State) (f : Flags) : (s.withFlags f).inputs = s.inputs := rfl
@[simp] theorem withFlags_coherentFetch (s : State) (f : Flags) :
    (s.withFlags f).coherentFetch = s.coherentFetch := rfl
@[simp] theorem withFlags_reservedAsWritten (s : State) (f : Flags) :
    (s.withFlags f).reservedAsWritten = s.reservedAsWritten := rfl
@[simp] theorem withFlags_nip (s : State) (f : Flags) : (s.withFlags f).nip = s.nip := rfl
@[simp] theorem withFlags_boundary (s : State) (f : Flags) : (s.withFlags f).boundary = s.boundary := rfl
@[simp] theorem withFlags_tick (s : State) (f : Flags) : (s.withFlags f).tick = s.tick := rfl

/-! ## State.withRegs -/

@[simp] theorem withRegs_cpu (s : State) (g : Regs) : (s.withRegs g).cpu = { s.cpu with regs := g } := rfl
@[simp] theorem withRegs_mem (s : State) (g : Regs) : (s.withRegs g).mem = s.mem := rfl
@[simp] theorem withRegs_dbg (s : State) (g : Regs) : (s.withRegs g).dbg = s.dbg := rfl
@[simp] theorem withRegs_tf0 (s : State) (g : Regs) : (s.withRegs g).tf0 = s.tf0 := rfl
@[simp] theorem withRegs_deferred (s : State) (g : Regs) : (s.withRegs g).deferred = s.deferred := rfl
@[simp] theorem withRegs_pendingBT (s : State) (g : Regs) : (s.withRegs g).pendingBT = s.pendingBT := rfl
@[simp] theorem withRegs_iceActive (s : State) (g : Regs) : (s.withRegs g).iceActive = s.iceActive := rfl
@[simp] theorem withRegs_extInt (s : State) (g : Regs) : (s.withRegs g).extInt = s.extInt := rfl
@[simp] theorem withRegs_inputs (s : State) (g : Regs) : (s.withRegs g).inputs = s.inputs := rfl
@[simp] theorem withRegs_coherentFetch (s : State) (g : Regs) : (s.withRegs g).coherentFetch = s.coherentFetch := rfl
@[simp] theorem withRegs_reservedAsWritten (s : State) (g : Regs) :
    (s.withRegs g).reservedAsWritten = s.reservedAsWritten := rfl
@[simp] theorem withRegs_nip (s : State) (g : Regs) : (s.withRegs g).nip = s.nip := rfl
@[simp] theorem withRegs_boundary (s : State) (g : Regs) : (s.withRegs g).boundary = s.boundary := rfl
@[simp] theorem withRegs_tick (s : State) (g : Regs) : (s.withRegs g).tick = s.tick := rfl

/-! ## begin -/

@[simp] theorem begin_cpu (n : Nat) (s : State) : (begin n s).cpu = s.cpu := rfl
@[simp] theorem begin_mem (n : Nat) (s : State) : (begin n s).mem = s.mem := rfl
@[simp] theorem begin_dbg (n : Nat) (s : State) : (begin n s).dbg = s.dbg := rfl
@[simp] theorem begin_tf0 (n : Nat) (s : State) : (begin n s).tf0 = s.cpu.flags.tf := rfl
@[simp] theorem begin_deferred (n : Nat) (s : State) : (begin n s).deferred = s.deferred := rfl
@[simp] theorem begin_pendingBT (n : Nat) (s : State) : (begin n s).pendingBT = s.pendingBT := rfl
@[simp] theorem begin_iceActive (n : Nat) (s : State) : (begin n s).iceActive = s.iceActive := rfl
@[simp] theorem begin_extInt (n : Nat) (s : State) : (begin n s).extInt = s.extInt := rfl
@[simp] theorem begin_inputs (n : Nat) (s : State) : (begin n s).inputs = s.inputs := rfl
@[simp] theorem begin_coherentFetch (n : Nat) (s : State) : (begin n s).coherentFetch = s.coherentFetch := rfl
@[simp] theorem begin_reservedAsWritten (n : Nat) (s : State) :
    (begin n s).reservedAsWritten = s.reservedAsWritten := rfl
@[simp] theorem begin_nip (n : Nat) (s : State) : (begin n s).nip = s.cpu.eip + BitVec.ofNat 32 n := rfl
@[simp] theorem begin_boundary (n : Nat) (s : State) : (begin n s).boundary = none := rfl
@[simp] theorem begin_tick (n : Nat) (s : State) : (begin n s).tick = s.tick := rfl

/-! ## afterLook -/

@[simp] theorem afterLook_cpu (s : State) (b : Boundary) : (afterLook s b).cpu = s.cpu := rfl
@[simp] theorem afterLook_mem (s : State) (b : Boundary) : (afterLook s b).mem = s.mem := rfl
@[simp] theorem afterLook_dbg (s : State) (b : Boundary) : (afterLook s b).dbg = s.dbg := rfl
@[simp] theorem afterLook_tf0 (s : State) (b : Boundary) : (afterLook s b).tf0 = s.tf0 := rfl
@[simp] theorem afterLook_deferred (s : State) (b : Boundary) :
    (afterLook s b).deferred = reportedNext s b.accesses := rfl
@[simp] theorem afterLook_pendingBT (s : State) (b : Boundary) : (afterLook s b).pendingBT = false := rfl
@[simp] theorem afterLook_iceActive (s : State) (b : Boundary) : (afterLook s b).iceActive = s.iceActive := rfl
@[simp] theorem afterLook_extInt (s : State) (b : Boundary) : (afterLook s b).extInt = s.extInt := rfl
@[simp] theorem afterLook_inputs (s : State) (b : Boundary) : (afterLook s b).inputs = s.inputs := rfl
@[simp] theorem afterLook_coherentFetch (s : State) (b : Boundary) :
    (afterLook s b).coherentFetch = s.coherentFetch := rfl
@[simp] theorem afterLook_reservedAsWritten (s : State) (b : Boundary) :
    (afterLook s b).reservedAsWritten = s.reservedAsWritten := rfl
@[simp] theorem afterLook_nip (s : State) (b : Boundary) : (afterLook s b).nip = s.nip := rfl
@[simp] theorem afterLook_boundary (s : State) (b : Boundary) : (afterLook s b).boundary = none := rfl
@[simp] theorem afterLook_tick (s : State) (b : Boundary) : (afterLook s b).tick = s.tick := rfl

/-! ## switchTask -/

@[simp] theorem switchTask_cpu (t : TssRef) (n : Bool) (i r : W32) (s : State) :
    (switchTask t n i r s).cpu = loadTask s.cpu (taskSwitchMemory s.cpu s.mem t n i r) t n := rfl
@[simp] theorem switchTask_mem (t : TssRef) (n : Bool) (i r : W32) (s : State) :
    (switchTask t n i r s).mem = taskSwitchMemory s.cpu s.mem t n i r := rfl
@[simp] theorem switchTask_dbg (t : TssRef) (n : Bool) (i r : W32) (s : State) :
    (switchTask t n i r s).dbg = s.dbg.afterTaskSwitch := rfl
@[simp] theorem switchTask_tf0 (t : TssRef) (n : Bool) (i r : W32) (s : State) :
    (switchTask t n i r s).tf0 = s.tf0 := rfl
@[simp] theorem switchTask_deferred (t : TssRef) (n : Bool) (i r : W32) (s : State) :
    (switchTask t n i r s).deferred = s.deferred := rfl
@[simp] theorem switchTask_pendingBT (t : TssRef) (n : Bool) (i r : W32) (s : State) :
    (switchTask t n i r s).pendingBT =
      (s.pendingBT || tssTrapBit s.cpu (taskSwitchMemory s.cpu s.mem t n i r) t) := rfl
@[simp] theorem switchTask_iceActive (t : TssRef) (n : Bool) (i r : W32) (s : State) :
    (switchTask t n i r s).iceActive = s.iceActive := rfl
@[simp] theorem switchTask_extInt (t : TssRef) (n : Bool) (i r : W32) (s : State) :
    (switchTask t n i r s).extInt = s.extInt := rfl
@[simp] theorem switchTask_inputs (t : TssRef) (n : Bool) (i r : W32) (s : State) :
    (switchTask t n i r s).inputs = s.inputs := rfl
@[simp] theorem switchTask_coherentFetch (t : TssRef) (n : Bool) (i r : W32) (s : State) :
    (switchTask t n i r s).coherentFetch = s.coherentFetch := rfl
@[simp] theorem switchTask_reservedAsWritten (t : TssRef) (n : Bool) (i r : W32) (s : State) :
    (switchTask t n i r s).reservedAsWritten = s.reservedAsWritten := rfl
@[simp] theorem switchTask_nip (t : TssRef) (n : Bool) (i r : W32) (s : State) :
    (switchTask t n i r s).nip = s.nip := rfl
@[simp] theorem switchTask_boundary (t : TssRef) (n : Bool) (i r : W32) (s : State) :
    (switchTask t n i r s).boundary = s.boundary := rfl
@[simp] theorem switchTask_tick (t : TssRef) (n : Bool) (i r : W32) (s : State) :
    (switchTask t n i r s).tick = s.tick := rfl

/-! ## loadTask -/

@[simp] theorem loadTask_protectedMode (c : Cpu) (m : Memory) (t : TssRef) (n : Bool) :
    (loadTask c m t n).protectedMode = c.protectedMode := rfl
@[simp] theorem loadTask_paging (c : Cpu) (m : Memory) (t : TssRef) (n : Bool) :
    (loadTask c m t n).paging = c.paging := rfl
@[simp] theorem loadTask_cr2 (c : Cpu) (m : Memory) (t : TssRef) (n : Bool) : (loadTask c m t n).cr2 = c.cr2 := rfl
@[simp] theorem loadTask_task (c : Cpu) (m : Memory) (t : TssRef) (n : Bool) : (loadTask c m t n).task = t := rfl
@[simp] theorem loadTask_gates (c : Cpu) (m : Memory) (t : TssRef) (n : Bool) :
    (loadTask c m t n).gates = c.gates := rfl
@[simp] theorem loadTask_descs (c : Cpu) (m : Memory) (t : TssRef) (n : Bool) :
    (loadTask c m t n).descs = c.descs := rfl
@[simp] theorem loadTask_pages (c : Cpu) (m : Memory) (t : TssRef) (n : Bool) :
    (loadTask c m t n).pages = c.pages := rfl
@[simp] theorem loadTask_regs (c : Cpu) (m : Memory) (t : TssRef) (n : Bool) :
    (loadTask c m t n).regs = tssRegs c m t := rfl

/-! ## enterProcedure -/

@[simp] theorem enterProcedure_dbg (h : Handler) (k : Delivery) (r : W32) (e : Option W32) (s : State) :
    (enterProcedure h k r e s).dbg = s.dbg := rfl
@[simp] theorem enterProcedure_tf0 (h : Handler) (k : Delivery) (r : W32) (e : Option W32) (s : State) :
    (enterProcedure h k r e s).tf0 = s.tf0 := rfl
@[simp] theorem enterProcedure_deferred (h : Handler) (k : Delivery) (r : W32) (e : Option W32) (s : State) :
    (enterProcedure h k r e s).deferred = s.deferred := rfl
@[simp] theorem enterProcedure_pendingBT (h : Handler) (k : Delivery) (r : W32) (e : Option W32) (s : State) :
    (enterProcedure h k r e s).pendingBT = s.pendingBT := rfl
@[simp] theorem enterProcedure_iceActive (h : Handler) (k : Delivery) (r : W32) (e : Option W32) (s : State) :
    (enterProcedure h k r e s).iceActive = s.iceActive := rfl
@[simp] theorem enterProcedure_extInt (h : Handler) (k : Delivery) (r : W32) (e : Option W32) (s : State) :
    (enterProcedure h k r e s).extInt = s.extInt := rfl
@[simp] theorem enterProcedure_inputs (h : Handler) (k : Delivery) (r : W32) (e : Option W32) (s : State) :
    (enterProcedure h k r e s).inputs = s.inputs := rfl
@[simp] theorem enterProcedure_coherentFetch (h : Handler) (k : Delivery) (r : W32) (e : Option W32) (s : State) :
    (enterProcedure h k r e s).coherentFetch = s.coherentFetch := rfl
@[simp] theorem enterProcedure_reservedAsWritten (h : Handler) (k : Delivery) (r : W32) (e : Option W32) (s : State) :
    (enterProcedure h k r e s).reservedAsWritten = s.reservedAsWritten := rfl
@[simp] theorem enterProcedure_nip (h : Handler) (k : Delivery) (r : W32) (e : Option W32) (s : State) :
    (enterProcedure h k r e s).nip = s.nip := rfl
@[simp] theorem enterProcedure_boundary (h : Handler) (k : Delivery) (r : W32) (e : Option W32) (s : State) :
    (enterProcedure h k r e s).boundary = s.boundary := rfl
@[simp] theorem enterProcedure_tick (h : Handler) (k : Delivery) (r : W32) (e : Option W32) (s : State) :
    (enterProcedure h k r e s).tick = s.tick := rfl

/-! ## enterProcedure: the base machine -/

@[simp] theorem enterProcedure_cs (h : Handler) (k : Delivery) (r : W32) (e : Option W32) (s : State) :
    (enterProcedure h k r e s).cpu.cs = h.cs := rfl
@[simp] theorem enterProcedure_eip (h : Handler) (k : Delivery) (r : W32) (e : Option W32) (s : State) :
    (enterProcedure h k r e s).cpu.eip = h.eip := rfl
@[simp] theorem enterProcedure_flags (h : Handler) (k : Delivery) (r : W32) (e : Option W32) (s : State) :
    (enterProcedure h k r e s).cpu.flags = entryFlags s.cpu h := rfl
@[simp] theorem enterProcedure_cpl (h : Handler) (k : Delivery) (r : W32) (e : Option W32) (s : State) :
    (enterProcedure h k r e s).cpu.cpl = if switchesStack s.cpu h then h.cpl else s.cpu.cpl := rfl
@[simp] theorem enterProcedure_mem (h : Handler) (k : Delivery) (r : W32) (e : Option W32) (s : State) :
    (enterProcedure h k r e s).mem =
      (pushAll (entryStack s.cpu h) s.mem (frameWidth h) (entryFrame s.cpu h (savedFlags k s.cpu.flags).image r e)).2 := rfl

/-! ## savedFlags -/

@[simp] theorem savedFlags_rf (k : Delivery) (f : Flags) : (savedFlags k f).rf = k.imageRF f.rf := rfl
@[simp] theorem savedFlags_tf (k : Delivery) (f : Flags) : (savedFlags k f).tf = f.tf := rfl

end Sys2Proof.Machine
end

