-- ==== Sys2Proof/Laws/Memory.lean ====
section
/-! SUPPORT. Laws of memory: what a read finds after a write, and that every memory operation keeps the canonical
form `Memory.wf`. -/

namespace Sys2Proof.Machine

/-! ## Cells -/

/-- The first cell of a list, if any, lies above an address. -/
def cellsAbove (k : Nat) (l : List Host.Cell) : Prop := ∀ p ∈ l.head?, k < p.1

theorem cellsWf_cons (k : Nat) (v : Byte) (l : List Host.Cell) :
    cellsWf ((k, v) :: l) = true ↔ k < 2 ^ 32 ∧ v ≠ 0#8 ∧ cellsAbove k l ∧ cellsWf l = true := by
  cases l with
  | nil => simp [cellsWf, cellsAbove]
  | cons p l => obtain ⟨k', v'⟩ := p; simp [cellsWf, cellsAbove]; tauto

theorem readCells_of_below {l : List Host.Cell} {a : Nat} (hl : cellsWf l = true)
    (h : ∀ p ∈ l.head?, a < p.1) : readCells l a = 0#8 := by
  induction l with
  | nil => rfl
  | cons p l ih =>
    obtain ⟨k, v⟩ := p
    rw [cellsWf_cons] at hl
    have hk : a < k := h (k, v) (by simp)
    rw [readCells, if_neg (by omega)]
    exact ih hl.2.2.2 fun q hq => lt_trans hk (hl.2.2.1 q hq)

/-- A write leaves every other byte alone. -/
theorem readCells_putCell_other (l : List Host.Cell) {a a' : Nat} (b : Byte) (h : a' ≠ a) :
    readCells (putCell l a b) a' = readCells l a' := by
  induction l with
  | nil => by_cases hb : b = 0#8 <;> simp [putCell, readCells, hb, Ne.symm h]
  | cons p l ih =>
    obtain ⟨k, v⟩ := p
    by_cases hk : k = a
    · subst hk
      by_cases hb : b = 0#8 <;> simp [putCell, readCells, hb, Ne.symm h]
    · by_cases hlt : a < k
      · by_cases hb : b = 0#8
        · simp [putCell, hk, hlt, hb]
        · simp only [putCell, if_neg hk, if_pos hlt, if_neg hb]
          rw [readCells, if_neg (Ne.symm h)]
      · simp only [putCell, if_neg hk, if_neg hlt, readCells, ih]

/-- A write is what a read of the same byte finds. -/
theorem readCells_putCell_same {l : List Host.Cell} (hl : cellsWf l = true) (a : Nat) (b : Byte) :
    readCells (putCell l a b) a = b := by
  induction l with
  | nil => by_cases hb : b = 0#8 <;> simp [putCell, readCells, hb]
  | cons p l ih =>
    obtain ⟨k, v⟩ := p
    have hw := (cellsWf_cons k v l).1 hl
    by_cases hk : k = a
    · subst hk
      by_cases hb : b = 0#8
      · simp only [putCell, if_true, hb]
        exact readCells_of_below hw.2.2.2 hw.2.2.1
      · simp [putCell, readCells, hb]
    · by_cases hlt : a < k
      · by_cases hb : b = 0#8
        · subst hb
          simp only [putCell, if_neg hk, if_pos hlt, if_true]
          exact readCells_of_below hl (by simpa using hlt)
        · simp [putCell, readCells, hk, hlt, hb]
      · simp only [putCell, if_neg hk, if_neg hlt, readCells]
        exact ih hw.2.2.2

theorem cellsAbove_putCell {k a : Nat} {l : List Host.Cell} (b : Byte) (hl : cellsWf l = true)
    (h : cellsAbove k l) (hk : k < a) : cellsAbove k (putCell l a b) := by
  cases l with
  | nil => by_cases hb : b = 0#8 <;> simp [putCell, cellsAbove, hb, hk]
  | cons p l =>
    obtain ⟨k', v'⟩ := p
    have hk' : k < k' := h (k', v') (by simp)
    have hw := (cellsWf_cons k' v' l).1 hl
    by_cases he : k' = a
    · subst he
      by_cases hb : b = 0#8
      · simp only [putCell, if_true, hb]
        exact fun q hq => lt_trans hk' (hw.2.2.1 q hq)
      · simp [putCell, cellsAbove, hb, hk']
    · by_cases hlt : a < k' <;> by_cases hb : b = 0#8 <;> simp [putCell, cellsAbove, he, hlt, hb, hk, hk']

theorem cellsWf_putCell {l : List Host.Cell} (hl : cellsWf l = true) {a : Nat} (ha : a < 2 ^ 32) (b : Byte) :
    cellsWf (putCell l a b) = true := by
  induction l with
  | nil =>
    by_cases hb : b = 0#8
    · simp [putCell, cellsWf, hb]
    · simpa [putCell, cellsWf, hb] using ha
  | cons p l ih =>
    obtain ⟨k, v⟩ := p
    have hw := (cellsWf_cons k v l).1 hl
    by_cases hk : k = a
    · subst hk
      by_cases hb : b = 0#8
      · simpa [putCell, hb] using hw.2.2.2
      · simp only [putCell, if_true, if_neg hb]
        exact (cellsWf_cons k b l).2 ⟨ha, hb, hw.2.2.1, hw.2.2.2⟩
    · by_cases hlt : a < k
      · by_cases hb : b = 0#8
        · simpa [putCell, hk, hlt, hb] using hl
        · simp only [putCell, if_neg hk, if_pos hlt, if_neg hb]
          exact (cellsWf_cons a b _).2 ⟨ha, hb, by simpa [cellsAbove] using hlt, hl⟩
      · simp only [putCell, if_neg hk, if_neg hlt]
        exact (cellsWf_cons k v _).2
          ⟨hw.1, hw.2.1, cellsAbove_putCell b hw.2.2.2 hw.2.2.1 (by omega), ih hw.2.2.2⟩

/-! ## Written addresses -/

/-- The first address of a list, if any, lies above an address. -/
def addressesAbove (k : Nat) (l : List Nat) : Prop := ∀ p ∈ l.head?, k < p

theorem writtenWf_cons (k : Nat) (l : List Nat) :
    writtenWf (k :: l) = true ↔ k < 2 ^ 32 ∧ addressesAbove k l ∧ writtenWf l = true := by
  cases l with
  | nil => simp [writtenWf, addressesAbove]
  | cons k' l => simp [writtenWf, addressesAbove]; tauto

theorem addressesAbove_mark {k a : Nat} {l : List Nat} (h : addressesAbove k l) (hk : k < a) :
    addressesAbove k (markAddress l a) := by
  cases l with
  | nil => simpa [markAddress, addressesAbove] using hk
  | cons k' l =>
    have hk' : k < k' := h k' (by simp)
    by_cases he : k' = a <;> by_cases hlt : a < k' <;> simp [markAddress, addressesAbove, he, hlt, hk, hk']

theorem writtenWf_mark {l : List Nat} (hl : writtenWf l = true) {a : Nat} (ha : a < 2 ^ 32) :
    writtenWf (markAddress l a) = true := by
  induction l with
  | nil => simpa [markAddress, writtenWf] using ha
  | cons k l ih =>
    have hw := (writtenWf_cons k l).1 hl
    by_cases hk : k = a
    · simpa [markAddress, hk] using hk ▸ hl
    · by_cases hlt : a < k
      · simp only [markAddress, if_neg hk, if_pos hlt]
        exact (writtenWf_cons a _).2 ⟨ha, by simpa [addressesAbove] using hlt, hl⟩
      · simp only [markAddress, if_neg hk, if_neg hlt]
        exact (writtenWf_cons k _).2 ⟨hw.1, addressesAbove_mark hw.2.1 (by omega), ih hw.2.2⟩

theorem writtenWf_filter {l : List Nat} (hl : writtenWf l = true) (p : Nat → Bool) :
    writtenWf (l.filter p) = true ∧ ∀ k, addressesAbove k l → addressesAbove k (l.filter p) := by
  induction l with
  | nil => simp [writtenWf]
  | cons k l ih =>
    have hw := (writtenWf_cons k l).1 hl
    obtain ⟨ih1, ih2⟩ := ih hw.2.2
    by_cases hp : p k
    · rw [List.filter_cons_of_pos hp]
      exact ⟨(writtenWf_cons k _).2 ⟨hw.1, ih2 k hw.2.1, ih1⟩, fun j hj => by simpa [addressesAbove] using hj⟩
    · rw [List.filter_cons_of_neg hp]
      refine ⟨ih1, fun j hj => ih2 j fun q hq => ?_⟩
      have hjk : j < k := hj k (by simp)
      exact lt_trans hjk (hw.2.1 q hq)

theorem mem_markAddress (l : List Nat) (a b : Nat) : b ∈ markAddress l a ↔ b = a ∨ b ∈ l := by
  induction l with
  | nil => simp [markAddress]
  | cons k l ih =>
    by_cases hk : k = a
    · simp [markAddress, hk]
    · by_cases hlt : a < k <;> simp [markAddress, hk, hlt, ih]; tauto

/-! ## Memory -/

theorem Memory.read_write_same {m : Memory} (h : m.wf = true) (a : Nat) (b : Byte) :
    (m.write a b).read a = b := by
  rw [Memory.wf, Bool.and_eq_true] at h
  exact readCells_putCell_same h.1 a b

theorem Memory.read_write_other (m : Memory) {a a' : Nat} (b : Byte) (h : a' ≠ a) :
    (m.write a b).read a' = m.read a' := readCells_putCell_other m.cells b h

theorem Memory.read_place_same {m : Memory} (h : m.wf = true) (a : Nat) (b : Byte) :
    (m.place a b).read a = b := by
  rw [Memory.wf, Bool.and_eq_true] at h
  exact readCells_putCell_same h.1 a b

theorem Memory.read_place_other (m : Memory) {a a' : Nat} (b : Byte) (h : a' ≠ a) :
    (m.place a b).read a' = m.read a' := readCells_putCell_other m.cells b h

theorem Memory.wf_write {m : Memory} (h : m.wf = true) {a : Nat} (ha : a < 2 ^ 32) (b : Byte) :
    (m.write a b).wf = true := by
  rw [Memory.wf, Bool.and_eq_true] at h ⊢
  exact ⟨cellsWf_putCell h.1 ha b, writtenWf_mark h.2 ha⟩

theorem Memory.wf_place {m : Memory} (h : m.wf = true) {a : Nat} (ha : a < 2 ^ 32) (b : Byte) :
    (m.place a b).wf = true := by
  rw [Memory.wf, Bool.and_eq_true] at h ⊢
  exact ⟨cellsWf_putCell h.1 ha b, (writtenWf_filter h.2 _).1⟩

theorem Memory.isWritten_write (m : Memory) (a a' : Nat) (b : Byte) :
    (m.write a b).isWritten a' = (a' == a || m.isWritten a') := by
  rw [Bool.eq_iff_iff]
  simp [Memory.isWritten, Memory.write, mem_markAddress]

/-! ## Linear memory -/

theorem physical_lt (c : Cpu) (a : W32) : physical c a < 2 ^ 32 := by
  unfold physical
  split
  · split
    · rename_i e _
      exact (e.frame ++ a.extractLsb' 0 12).isLt
    · exact a.isLt
  · exact a.isLt

/-- With paging disabled a linear address is the physical address (R12). -/
theorem physical_of_not_paging {c : Cpu} (h : c.paging = false) (a : W32) : physical c a = a.toNat := by
  simp [physical, h]

/-- The physical address depends on paging, the address space and the pages alone. -/
theorem physical_congr {c d : Cpu} (h1 : d.paging = c.paging) (h2 : d.space = c.space) (h3 : d.pages = c.pages)
    (a : W32) : physical d a = physical c a := by
  simp [physical, pageOf, h1, h2, h3]

theorem storeLE_wf {c : Cpu} {m : Memory} (h : m.wf = true) (a : W32) (k : Nat) (v : W32) :
    (storeLE c m a k v).wf = true := by
  induction k generalizing m a v with
  | zero => exact h
  | succ k ih => exact ih (Memory.wf_write h (physical_lt c a) _) _ _

theorem storeBytes_wf {c : Cpu} {m : Memory} (h : m.wf = true) (l : List (W32 × Byte)) :
    (storeBytes c m l).wf = true := by
  induction l generalizing m with
  | nil => exact h
  | cons p l ih => exact ih (Memory.wf_write h (physical_lt c p.1) p.2)

theorem storeFields_wf {c : Cpu} {m : Memory} (h : m.wf = true) (base : W32) (l : List (W32 × Nat × W32)) :
    (storeFields c m base l).wf = true := by
  induction l generalizing m with
  | nil => exact h
  | cons p l ih => exact ih (storeLE_wf h _ _ _)

theorem pushAll_wf {c : Cpu} {m : Memory} (h : m.wf = true) (k : Nat) (l : List W32) :
    (pushAll c m k l).2.wf = true := by
  induction l generalizing c m with
  | nil => exact h
  | cons v l ih => exact ih (storeLE_wf h _ _ _)

theorem placeBytes_wf {c : Cpu} {m : Memory} (h : m.wf = true) (a : W32) (l : List Byte) :
    (placeBytes c m a l).wf = true := by
  induction l generalizing m a with
  | nil => exact h
  | cons b l ih => exact ih (Memory.wf_place h (physical_lt c a) b) _

/-- A store leaves every byte outside it alone. -/
theorem storeLE_read_other {c : Cpu} {m : Memory} {a : W32} {k : Nat} (v : W32) {p : Nat}
    (h : ∀ j < k, p ≠ physical c (a + BitVec.ofNat 32 j)) : (storeLE c m a k v).read p = m.read p := by
  induction k generalizing m a v with
  | zero => rfl
  | succ k ih =>
    rw [storeLE, ih, Memory.read_write_other]
    · simpa using h 0 (by omega)
    · intro j hj
      have := h (j + 1) (by omega)
      rwa [BitVec.add_assoc, show (1 : W32) + BitVec.ofNat 32 j = BitVec.ofNat 32 (j + 1) by
        rw [BitVec.add_comm]; simp [BitVec.ofNat_add]]

/-! ## Loads after stores -/

/-- The low `k` bytes of a word, put together byte by byte. -/
def lowLE : Nat → W32 → W32
  | 0, _ => 0
  | k + 1, v => (v.setWidth 8 : Byte).setWidth 32 ||| (lowLE k (v >>> 8) <<< 8)

theorem lowLE_four (v : W32) : lowLE 4 v = v := by
  ext i hi
  simp only [lowLE]
  interval_cases i <;> simp

theorem lowLE_two (v : W32) : lowLE 2 v = v &&& 0xFFFF := by
  ext i hi
  simp only [lowLE]
  interval_cases i <;> simp

theorem add_ofNat_ne (a : W32) {j : Nat} (h : j < 2 ^ 32 - 1) : a ≠ a + 1 + BitVec.ofNat 32 j := by
  intro he
  have := congrArg BitVec.toNat he
  have h1 : (1 : W32).toNat = 1 := rfl
  simp only [BitVec.toNat_add, BitVec.toNat_ofNat, h1] at this
  have ha := a.isLt
  omega

/-- Without paging, a load finds what a store to the same bytes put there. -/
theorem loadLE_storeLE {c : Cpu} {m : Memory} (hp : c.paging = false) (hm : m.wf = true) (a : W32) (k : Nat)
    (hk : k < 2 ^ 32) (v : W32) : loadLE c (storeLE c m a k v) a k = lowLE k v := by
  induction k generalizing m a v with
  | zero => rfl
  | succ k ih =>
    rw [loadLE, storeLE, lowLE, ih (Memory.wf_write hm (physical_lt c a) _) _ (by omega)]
    congr 2
    rw [readByte, storeLE_read_other, Memory.read_write_same hm]
    intro j hj
    rw [physical_of_not_paging hp, physical_of_not_paging hp]
    exact fun h => add_ofNat_ne a (by omega) (BitVec.eq_of_toNat_eq h)

/-- A load depends on the bytes it reads alone. -/
theorem loadLE_congr {c d : Cpu} {m m' : Memory} {a b : W32} {k : Nat}
    (h : ∀ j < k, m'.read (physical d (b + BitVec.ofNat 32 j)) = m.read (physical c (a + BitVec.ofNat 32 j))) :
    loadLE d m' b k = loadLE c m a k := by
  induction k generalizing a b with
  | zero => rfl
  | succ k ih =>
    have e (x : W32) (j : Nat) : x + 1 + BitVec.ofNat 32 j = x + BitVec.ofNat 32 (j + 1) := by
      rw [BitVec.add_assoc]; congr 1; rw [BitVec.add_comm]; simp [BitVec.ofNat_add]
    have h0 := h 0 (by omega)
    simp only [BitVec.add_zero] at h0
    rw [loadLE, loadLE, readByte, readByte, h0, ih]
    intro j hj
    rw [e, e]
    exact h (j + 1) (by omega)

end Sys2Proof.Machine
end

