-- ==== Sys2Proof/Laws/Ops.lean ====
section
/-! SUPPORT. One lemma for each shared operation that says what it can do: the stack, the task switch, taking an
exception, completion. The provers cite these instead of unfolding the operations. -/

namespace Sys2Proof.Machine

/-! ## General registers -/

@[simp] theorem Regs.get_set_same (g : Regs) (r : Reg) (v : W32) : (g.set r v).get r = v := by cases r <;> rfl

theorem Regs.get_set_other (g : Regs) {r q : Reg} (v : W32) (h : q ≠ r) : (g.set r v).get q = g.get q := by
  cases r <;> cases q <;> first | rfl | exact absurd rfl h

/-! ## The stack -/

/-- Pushing changes nothing of the base machine but ESP. -/
theorem pushAll_cpu (c : Cpu) (m : Memory) (k : Nat) (l : List W32) :
    ∃ e, (pushAll c m k l).1 = { c with regs := { c.regs with esp := e } } := by
  induction l generalizing c m with
  | nil => exact ⟨c.regs.esp, rfl⟩
  | cons v l ih => exact ih (setStackTop c _) _

theorem physical_setStackTop (c : Cpu) (off a : W32) : physical (setStackTop c off) a = physical c a :=
  physical_congr rfl rfl rfl a

/-- The offset of the top of the stack after it is set. -/
theorem stackTop_setStackTop (c : Cpu) (off : W32) : stackTop (setStackTop c off) = wrapStack c off := by
  unfold stackTop setStackTop wrapStack
  by_cases h : c.ss.big
  · simp [h]
  · simp only [h, Bool.false_eq_true, if_false]
    ext i
    simp only [BitVec.getElem_and, BitVec.getElem_or]
    have : (0xFFFF0000 : W32) &&& 0xFFFF = 0 := by decide
    have hi := congrArg (fun w => w[i]) this
    simp only [BitVec.getElem_and] at hi
    cases h1 : (0xFFFF0000#32)[i] <;> cases h2 : (0xFFFF#32)[i] <;> simp_all

/-- Pushing leaves every byte outside the pushed slots alone, if the slots of the pushes are those given. -/
theorem pushAll_read_other {c : Cpu} {m : Memory} {k : Nat} {l : List W32} {p : Nat}
    (h : ∀ i < l.length, ∀ j < k, p ≠ physical c (pushSlot c k (i + 1) + BitVec.ofNat 32 j)) :
    (pushAll c m k l).2.read p = m.read p := by
  induction l generalizing c m with
  | nil => rfl
  | cons v l ih =>
    have slot (i : Nat) : pushSlot (setStackTop c (stackTop c - BitVec.ofNat 32 k)) k i = pushSlot c k (i + 1) := by
      unfold pushSlot stackAddr
      rw [stackTop_setStackTop]
      unfold wrapStack
      by_cases hb : c.ss.big
      · simp only [setStackTop_ss, hb, if_true]
        congr 1
        rw [Nat.mul_succ]
        simp only [BitVec.ofNat_add]
        ring
      · simp only [setStackTop_ss, hb, Bool.false_eq_true, if_false]
        congr 1
        rw [Nat.mul_succ]
        simp only [BitVec.ofNat_add]
        have key (x y : W32) : ((x &&& 0xFFFF) + y) &&& 0xFFFF = (x + y) &&& 0xFFFF := by
          apply BitVec.eq_of_toNat_eq
          have e (n : Nat) : n &&& 65535 = n % 65536 := by
            simpa using Nat.and_two_pow_sub_one_eq_mod n 16
          have f (w : W32) : (w &&& 0xFFFF).toNat = w.toNat % 65536 := by
            rw [BitVec.toNat_and]
            exact e _
          rw [f, f, BitVec.toNat_add, BitVec.toNat_add, f]
          omega
        rw [key]
        congr 1
        ring
    rw [pushAll, ih]
    · refine storeLE_read_other v fun j hj => ?_
      have := h 0 (by simp) j hj
      rw [physical_setStackTop]
      have e : stackAddr (setStackTop c (stackTop c - BitVec.ofNat 32 k)) 0 = pushSlot c k 1 := by
        have := slot 0
        simpa [pushSlot] using this
      rw [e]
      exact this
    · intro i hi j hj
      rw [slot, physical_setStackTop]
      exact h (i + 1) (by simpa using hi) j hj

theorem toNat_wrapStack (c : Cpu) (x : W32) :
    (wrapStack c x).toNat = if c.ss.big then x.toNat else x.toNat % 65536 := by
  unfold wrapStack
  split
  · rfl
  · rw [BitVec.toNat_and]
    simpa using Nat.and_two_pow_sub_one_eq_mod x.toNat 16

/-- The offset of the top of the stack after pushes. -/
theorem stackTop_pushAll (c : Cpu) (m : Memory) (k : Nat) (l : List W32) :
    stackTop (pushAll c m k l).1 = wrapStack c (stackTop c - BitVec.ofNat 32 (k * l.length)) := by
  induction l generalizing c m with
  | nil =>
    have : (stackTop c - BitVec.ofNat 32 (k * ([] : List W32).length)) = stackTop c := by simp
    rw [this, pushAll]
    apply BitVec.eq_of_toNat_eq
    simp only [stackTop, toNat_wrapStack]
    split <;> omega
  | cons v l ih =>
    rw [pushAll, ih, stackTop_setStackTop]
    apply BitVec.eq_of_toNat_eq
    simp only [toNat_wrapStack, setStackTop_ss, BitVec.toNat_sub, BitVec.toNat_ofNat, List.length_cons, Nat.mul_succ]
    have h1 := (stackTop c).isLt
    split <;> omega

/-- Without paging, what was pushed can be read back from the stack: `i` values above the top stands the `i`-th last
value pushed. -/
theorem pushAll_readback {c : Cpu} {m : Memory} (hp : c.paging = false) (hm : m.wf = true) {k : Nat} (l : List W32)
    (hl : k * l.length + k ≤ 65536) (i : Nat) (hi : i < l.length) :
    loadLE (pushAll c m k l).1 (pushAll c m k l).2
      (stackAddr (pushAll c m k l).1 (BitVec.ofNat 32 (k * i))) k = lowLE k (l.reverse[i]'(by simpa using hi)) := by
  induction l generalizing c m with
  | nil => simp at hi
  | cons v l ih =>
    simp only [List.length_cons, Nat.mul_succ] at hl
    have hm' := storeLE_wf (c := setStackTop c (stackTop c - BitVec.ofNat 32 k)) hm
      (stackAddr (setStackTop c (stackTop c - BitVec.ofNat 32 k)) 0) k v
    by_cases h : i < l.length
    · have := ih (c := setStackTop c (stackTop c - BitVec.ofNat 32 k)) hp hm' (by omega) h
      rw [pushAll, this]
      congr 1
      simp [h]
    · have hil : i = l.length := by simp at hi; omega
      subst hil
      rw [pushAll]
      generalize hc1 : setStackTop c (stackTop c - BitVec.ofNat 32 k) = c1 at *
      have hss : c1.ss = c.ss := by rw [← hc1]; rfl
      have hp1 : c1.paging = false := by rw [← hc1]; exact hp
      have hv : (v :: l).reverse[l.length]'(by simp) = v := by simp
      rw [hv]
      have hR := loadLE_storeLE hp1 hm (stackAddr c1 0) k (by omega) v
      generalize storeLE c1 m (stackAddr c1 0) k v = M at *
      rw [← hR]
      obtain ⟨e, he⟩ := pushAll_cpu c1 M k l
      have hpp : (pushAll c1 M k l).1.paging = false := by rw [he]; exact hp1
      have hsb : (pushAll c1 M k l).1.ss = c1.ss := by rw [he]
      have htop := stackTop_pushAll c1 M k l
      have h2 : (stackTop c1).toNat = if c1.ss.big then (stackTop c1).toNat else (stackTop c1).toNat % 65536 := by
        unfold stackTop; rw [toNat_wrapStack]; split <;> omega
      have h1 := (stackTop c1).isLt
      have haddr : stackAddr (pushAll c1 M k l).1 (BitVec.ofNat 32 (k * l.length)) = stackAddr c1 0 := by
        unfold stackAddr
        rw [htop, hsb]
        congr 1
        apply BitVec.eq_of_toNat_eq
        have h0 : (0 : W32).toNat = 0 := rfl
        simp only [toNat_wrapStack, hsb, BitVec.toNat_add, BitVec.toNat_sub, BitVec.toNat_ofNat, h0]
        clear htop
        generalize (stackTop c1).toNat = T at *
        generalize k * l.length = L at *
        cases hbig : c1.ss.big <;> simp only [hbig, Bool.false_eq_true, if_false, if_true] at h2 ⊢ <;> omega
      rw [haddr]
      apply loadLE_congr
      intro j hj
      rw [physical_of_not_paging hpp, physical_of_not_paging hp1, pushAll_read_other]
      intro i hi j' hj'
      rw [physical_of_not_paging hp1]
      intro hcon
      have hb1 := BitVec.eq_of_toNat_eq hcon
      unfold pushSlot stackAddr at hb1
      have hb2 : wrapStack c1 (stackTop c1 + 0) + BitVec.ofNat 32 j =
        wrapStack c1 (stackTop c1 + -BitVec.ofNat 32 (k * (i+1))) + BitVec.ofNat 32 j' := by
        have := congrArg (fun w => w - c1.ss.base) hb1
        calc _ = c1.ss.base + wrapStack c1 (stackTop c1 + 0) + BitVec.ofNat 32 j - c1.ss.base := by ring
          _ = _ := this
          _ = _ := by ring
      have hb := congrArg BitVec.toNat hb2
      have hm1 : k * (i + 1) ≤ k * l.length := Nat.mul_le_mul_left k hi
      have hm2 : k ≤ k * (i + 1) := Nat.le_mul_of_pos_right k (by omega)
      generalize k * (i+1) = q at *
      have h0 : (0 : W32).toNat = 0 := rfl
      simp only [toNat_wrapStack, BitVec.toNat_add, BitVec.toNat_neg, BitVec.toNat_ofNat, h0] at hb
      generalize (stackTop c1).toNat = T at *
      generalize k * l.length = L at *
      cases hbig : c1.ss.big <;> simp only [hbig, Bool.false_eq_true, if_false, if_true] at hb h2 <;> omega

/-! ## Segments, faults, attempts -/

/-- An instruction whose accesses can be made is done; otherwise it takes a page fault. -/
theorem attempt_cases (l : List Access) (s t : State) :
    (accessesFault s.cpu l = none ∧ attempt l s t = t) ∨
      ∃ f, accessesFault s.cpu l = some f ∧ attempt l s t = raise f s := by
  unfold attempt
  cases accessesFault s.cpu l with
  | none => exact Or.inl ⟨rfl, rfl⟩
  | some f => exact Or.inr ⟨f, rfl, rfl⟩

theorem accessFault_of_not_paging {c : Cpu} (h : c.paging = false) (a : Access) : accessFault c a = none := by
  simp [accessFault, pagePresent, h]

/-- Without paging no access faults. -/
theorem accessesFault_of_not_paging {c : Cpu} (h : c.paging = false) (l : List Access) :
    accessesFault c l = none := by
  induction l with
  | nil => rfl
  | cons a l ih => simp [accessesFault, accessFault_of_not_paging h, ih]

/-! ## Task switch -/

theorem taskSwitchMemory_wf {m : Memory} (h : m.wf = true) (c : Cpu) (t : TssRef) (n : Bool) (i r : W32) :
    (taskSwitchMemory c m t n i r).wf = true := by
  unfold taskSwitchMemory saveTask
  cases n
  · exact storeFields_wf h _ _
  · exact storeLE_wf (storeFields_wf h _ _) _ _ _

/-! ## Taking an exception -/

/-- A delivery enters a procedure or a task; a fault empties the deferred reports first. -/
theorem deliver_cases (v : Byte) (k : Delivery) (ret : W32) (code : Option W32) (s : State) :
    (∃ h, gateOf s.cpu s.mem v = .procedure h ∧ deliver v k ret code s =
        enterProcedure h k ret code { s with deferred := if k = .fault then CondSet.empty else s.deferred }) ∨
      ∃ t, gateOf s.cpu s.mem v = .task t ∧ deliver v k ret code s =
        enterTask t k ret code { s with deferred := if k = .fault then CondSet.empty else s.deferred } := by
  unfold deliver
  cases gateOf s.cpu s.mem v with
  | procedure h => exact Or.inl ⟨h, rfl, rfl⟩
  | task t => exact Or.inr ⟨t, rfl, rfl⟩

@[simp] theorem enterTask_dbg (t : TssRef) (k : Delivery) (r : W32) (e : Option W32) (s : State) :
    (enterTask t k r e s).dbg = s.dbg.afterTaskSwitch := by cases e <;> rfl

@[simp] theorem enterTask_boundary (t : TssRef) (k : Delivery) (r : W32) (e : Option W32) (s : State) :
    (enterTask t k r e s).boundary = s.boundary := by cases e <;> rfl

@[simp] theorem enterTask_tick (t : TssRef) (k : Delivery) (r : W32) (e : Option W32) (s : State) :
    (enterTask t k r e s).tick = s.tick := by cases e <;> rfl

@[simp] theorem enterTask_deferred (t : TssRef) (k : Delivery) (r : W32) (e : Option W32) (s : State) :
    (enterTask t k r e s).deferred = s.deferred := by cases e <;> rfl

@[simp] theorem enterTask_tf0 (t : TssRef) (k : Delivery) (r : W32) (e : Option W32) (s : State) :
    (enterTask t k r e s).tf0 = s.tf0 := by cases e <;> rfl

theorem enterTask_wf {s : State} (h : s.mem.wf = true) (t : TssRef) (k : Delivery) (r : W32) (e : Option W32) :
    (enterTask t k r e s).mem.wf = true := by
  cases e with
  | none => exact taskSwitchMemory_wf h _ _ _ _ _
  | some v =>
    exact pushAll_wf (c := (switchTask t true (savedFlags k s.cpu.flags).image r s).cpu)
      (taskSwitchMemory_wf h s.cpu t true (savedFlags k s.cpu.flags).image r) _ [v]

/-- A delivery leaves the debug registers alone, but for what a task switch clears (R19). -/
theorem deliver_dbg (v : Byte) (k : Delivery) (ret : W32) (code : Option W32) (s : State) :
    (deliver v k ret code s).dbg = s.dbg ∨ (deliver v k ret code s).dbg = s.dbg.afterTaskSwitch := by
  rcases deliver_cases v k ret code s with ⟨h, _, he⟩ | ⟨t, _, he⟩
  · exact Or.inl (by rw [he]; rfl)
  · exact Or.inr (by rw [he]; simp)

theorem deliver_boundary (v : Byte) (k : Delivery) (ret : W32) (code : Option W32) (s : State) :
    (deliver v k ret code s).boundary = s.boundary := by
  rcases deliver_cases v k ret code s with ⟨h, _, he⟩ | ⟨t, _, he⟩ <;> rw [he] <;> simp

theorem deliver_wf {s : State} (hm : s.mem.wf = true) (v : Byte) (k : Delivery) (ret : W32) (code : Option W32) :
    (deliver v k ret code s).mem.wf = true := by
  rcases deliver_cases v k ret code s with ⟨h, _, he⟩ | ⟨t, _, he⟩ <;> rw [he]
  · rw [enterProcedure_mem]
    exact pushAll_wf hm _ _
  · exact enterTask_wf (s := { s with deferred := if k = .fault then CondSet.empty else s.deferred }) hm _ _ _ _

/-- A fault drops the deferred reports (R121). -/
theorem deliver_fault_deferred (v : Byte) (ret : W32) (code : Option W32) (s : State) :
    (deliver v .fault ret code s).deferred = CondSet.empty := by
  rcases deliver_cases v .fault ret code s with ⟨h, _, he⟩ | ⟨t, _, he⟩ <;> rw [he] <;> simp

/-- A base fault is over: no completion is reported. -/
theorem raise_boundary (f : BaseFault) (s : State) : (raise f s).boundary = none := deliver_boundary _ _ _ _ _

theorem raise_wf {s : State} (hm : s.mem.wf = true) (f : BaseFault) : (raise f s).mem.wf = true :=
  deliver_wf (s := { s with boundary := none, cpu := _ }) hm _ _ _ _

theorem raise_dbg (f : BaseFault) (s : State) :
    (raise f s).dbg = s.dbg ∨ (raise f s).dbg = s.dbg.afterTaskSwitch := deliver_dbg _ _ _ _ _

/-! ## Sets of conditions -/

@[simp] theorem CondSet.has_collect (f : Fin 4 → Bool) (n : Fin 4) : (CondSet.collect f).has n = f n := by
  fin_cases n <;> rfl

@[simp] theorem CondSet.has_empty (n : Fin 4) : CondSet.empty.has n = false := by fin_cases n <;> rfl

@[simp] theorem CondSet.has_union (a b : CondSet) (n : Fin 4) : (a.union b).has n = (a.has n || b.has n) := by
  fin_cases n <;> rfl

theorem mem_conditions (n : Fin 4) : n ∈ conditions := by fin_cases n <;> simp [conditions]

/-- Some condition of a set is enabled. -/
theorem Debug.anyEnabled_iff (d : Debug) (c : CondSet) :
    d.anyEnabled c = true ↔ ∃ n, c.has n = true ∧ d.enabled n = true := by
  simp [Debug.anyEnabled, List.any_eq_true, mem_conditions]

end Sys2Proof.Machine
end

