-- ==== Sys2Proof/Laws/PerInstr.lean ====
section
/-! SUPPORT. The family of statements made per instruction: an instruction's encoding has at least one byte and fits
in what a fetch reads (log 39). -/

namespace Sys2Proof.Laws.EncodedLength

/-- The encoding of the instruction has at least one byte and at most as many as a fetch reads. -/
def Statement (i : Instr) : Prop :=
  ∀ big : Bool, 1 ≤ (encode big i).length ∧ (encode big i).length ≤ maxLength

theorem movFromDR (r : Reg) (n : DReg) : Statement (.movFromDR r n) :=
  fun _ => ⟨by simp [encode], by simp [encode, maxLength]⟩
theorem movToDR (n : DReg) (r : Reg) : Statement (.movToDR n r) :=
  fun _ => ⟨by simp [encode], by simp [encode, maxLength]⟩
theorem int3 : Statement .int3 := by intro big; decide +revert
theorem intN (v : Byte) : Statement (.intN v) := fun _ => ⟨by simp [encode], by simp [encode, maxLength]⟩
theorem into : Statement .into := by intro big; decide +revert
theorem iret : Statement .iret := by intro big; decide +revert
theorem iretd : Statement .iretd := by intro big; decide +revert
theorem popf : Statement .popf := by intro big; decide +revert
theorem popfd : Statement .popfd := by intro big; decide +revert

/-- Prefixes take at most three bytes. -/
theorem prefixes_length (big : Bool) (os : OpSize) (a : Bool) (g : Option SegName) :
    (encodePrefixes big os a g).length ≤ 3 := by
  cases g <;> cases big <;> cases os <;> cases a <;>
    simp [encodePrefixes, operandSize]

/-- A far pointer takes at most six bytes. -/
theorem farPtr_length (p : FarPtr) : p.bytes.length ≤ 6 := by
  cases p <;> simp [FarPtr.bytes, bytes16, bytes32]

/-- A memory operand takes at most six bytes: ModRM, SIB and a displacement. -/
theorem mem_length (n : BitVec 3) (m : MemOp) : (encodeMem n m).length ≤ 6 := by
  cases m with
  | direct16 d => simp [encodeMem, bytes16]
  | based16 b d => cases d <;> simp [encodeMem, Disp16.bytes, bytes16]
  | direct32 d => simp [encodeMem, bytes32]
  | based32 b d => cases d <;> simp [encodeMem, Disp32.bytes, bytes32]
  | sib b i d => cases b <;> cases d <;> simp [encodeMem, Disp32.bytes, bytes32]

theorem jmpPtr (p : FarPtr) : Statement (.jmpPtr p) := by
  intro big
  have h := prefixes_length big p.opSize big none
  have h' := farPtr_length p
  simp only [encode, List.length_append, List.length_cons, maxLength]
  omega

theorem jmpMem (os : OpSize) (seg : Option SegName) (m : MemOp) : Statement (.jmpMem os seg m) := by
  intro big
  have h := prefixes_length big os m.addr32 seg
  have h' := mem_length 5 m
  simp only [encode, List.length_append, List.length_cons, maxLength]
  omega

theorem callPtr (p : FarPtr) : Statement (.callPtr p) := by
  intro big
  have h := prefixes_length big p.opSize big none
  have h' := farPtr_length p
  simp only [encode, List.length_append, List.length_cons, maxLength]
  omega

theorem callMem (os : OpSize) (seg : Option SegName) (m : MemOp) : Statement (.callMem os seg m) := by
  intro big
  have h := prefixes_length big os m.addr32 seg
  have h' := mem_length 3 m
  simp only [encode, List.length_append, List.length_cons, maxLength]
  omega

end Sys2Proof.Laws.EncodedLength
end

