-- ==== Sys2Proof/Laws/Step.lean ====
section
/-! SUPPORT. What one step can do, said once: the report of traps, the examination of the inputs, the execution of an
instruction, and the step as a whole. The provers derive every invariant from these lemmas. -/

namespace Sys2Proof.Machine

/-! ## What every instruction, delivery and report keeps -/

/-- The parts of the state that only the step itself and the environment change. -/
structure EnvSame (s t : State) : Prop where
  tf0 : t.tf0 = s.tf0
  iceActive : t.iceActive = s.iceActive
  extInt : t.extInt = s.extInt
  inputs : t.inputs = s.inputs
  coherentFetch : t.coherentFetch = s.coherentFetch
  reservedAsWritten : t.reservedAsWritten = s.reservedAsWritten
  nip : t.nip = s.nip
  tick : t.tick = s.tick

theorem EnvSame.refl (s : State) : EnvSame s s := ⟨rfl, rfl, rfl, rfl, rfl, rfl, rfl, rfl⟩

theorem EnvSame.trans {s t u : State} (h : EnvSame s t) (h' : EnvSame t u) : EnvSame s u :=
  ⟨h'.tf0.trans h.tf0, h'.iceActive.trans h.iceActive, h'.extInt.trans h.extInt, h'.inputs.trans h.inputs,
    h'.coherentFetch.trans h.coherentFetch, h'.reservedAsWritten.trans h.reservedAsWritten, h'.nip.trans h.nip,
    h'.tick.trans h.tick⟩

theorem switchTask_env (t : TssRef) (n : Bool) (i r : W32) (s : State) : EnvSame s (switchTask t n i r s) :=
  ⟨rfl, rfl, rfl, rfl, rfl, rfl, rfl, rfl⟩

/-- A delivery is invisible to the environment. -/
theorem deliver_env (v : Byte) (k : Delivery) (ret : W32) (code : Option W32) (s : State) :
    EnvSame s (deliver v k ret code s) := by
  rcases deliver_cases v k ret code s with ⟨h, _, he⟩ | ⟨t, _, he⟩ <;> rw [he]
  · exact ⟨rfl, rfl, rfl, rfl, rfl, rfl, rfl, rfl⟩
  · cases code <;> exact ⟨rfl, rfl, rfl, rfl, rfl, rfl, rfl, rfl⟩

theorem raise_env (f : BaseFault) (s : State) : EnvSame s (raise f s) := by
  have h := deliver_env f.vec .fault s.cpu.eip f.code
    { s with
      boundary := none
      cpu := match f.addr with
        | some a => { s.cpu with cr2 := a }
        | none => s.cpu }
  exact ⟨h.tf0, h.iceActive, h.extInt, h.inputs, h.coherentFetch, h.reservedAsWritten, h.nip, h.tick⟩

/-- A delivery into a procedure. -/
theorem deliver_procedure {v : Byte} {k : Delivery} {ret : W32} {code : Option W32} {s : State} {h : Handler}
    (hg : gateOf s.cpu s.mem v = .procedure h) : deliver v k ret code s =
      enterProcedure h k ret code { s with deferred := if k = .fault then CondSet.empty else s.deferred } := by
  simp only [deliver, hg]

/-- A delivery into a task. -/
theorem deliver_task {v : Byte} {k : Delivery} {ret : W32} {code : Option W32} {s : State} {t : TssRef}
    (hg : gateOf s.cpu s.mem v = .task t) : deliver v k ret code s =
      enterTask t k ret code { s with deferred := if k = .fault then CondSet.empty else s.deferred } := by
  simp only [deliver, hg]

/-- A delivery that is no fault keeps the deferred reports. -/
theorem deliver_deferred {k : Delivery} (hk : k ≠ .fault) (v : Byte) (ret : W32) (code : Option W32) (s : State) :
    (deliver v k ret code s).deferred = s.deferred := by
  rcases deliver_cases v k ret code s with ⟨h, _, he⟩ | ⟨t, _, he⟩ <;> rw [he] <;> simp [hk]

/-- A delivery into a procedure switches no task. -/
theorem deliver_procedure_pendingBT {v : Byte} {k : Delivery} {ret : W32} {code : Option W32} {s : State} {h : Handler}
    (hg : gateOf s.cpu s.mem v = .procedure h) : (deliver v k ret code s).pendingBT = s.pendingBT := by
  rw [deliver_procedure hg]; rfl

/-- The memory outside the pushed frame is as before a delivery into a procedure. -/
theorem deliver_procedure_read_other {v : Byte} {k : Delivery} {ret : W32} {s : State} {h : Handler}
    (hg : gateOf s.cpu s.mem v = .procedure h) :
    MemSameBut s.mem (deliver v k ret none s).mem
      (pushedBytes (entryStack s.cpu h) (frameWidth h) (entryFrame s.cpu h 0 0 none).length) := by
  intro a ha
  rw [deliver_procedure hg]
  refine pushAll_read_other fun i hi j hj he => ha ?_
  refine List.mem_flatMap.2 ⟨i, ?_, List.mem_map.2 ⟨j, List.mem_range.2 hj, he.symm⟩⟩
  rw [List.mem_range]
  simpa [entryFrame] using hi

/-! ## Execution of an instruction -/

/-- What `exec` can do when it answers a next state: it keeps what belongs to the step and the environment, and the
debug registers change by a MOV at level 0 or a task switch alone. -/
structure Executed (i : Instr) (s t : State) : Prop where
  env : EnvSame s t
  dbg : t.dbg = s.dbg ∨ t.dbg = s.dbg.afterTaskSwitch ∨
    ∃ n r, i = .movToDR n r ∧ s.cpu.privilege = 0 ∧ writeDebug s.dbg n (s.cpu.regs.get r) = some t.dbg
  wf : s.mem.wf = true → t.mem.wf = true
  /-- It took a base fault, or it completed. -/
  outcome : (∃ f, t = raise f s) ∨ t.boundary.isSome = true ∧ t.deferred = s.deferred

theorem executed_raise (i : Instr) (f : BaseFault) (s : State) : Executed i s (raise f s) where
  env := raise_env f s
  dbg := by rcases raise_dbg f s with h | h <;> simp [h]
  wf h := raise_wf h f
  outcome := Or.inl ⟨f, rfl⟩

theorem executed_attempt {i : Instr} {s t : State} (l : List Access) (h : Executed i s t) :
    Executed i s (attempt l s t) := by
  rcases attempt_cases l s t with ⟨_, he⟩ | ⟨f, _, he⟩ <;> rw [he]
  · exact h
  · exact executed_raise i f s

/-- A completion that changes the base machine's registers and memory alone. -/
theorem executed_complete (i : Instr) (s : State) (l : List Access) (c : Cpu) (m : Memory)
    (hm : s.mem.wf = true → m.wf = true) : Executed i s (complete l { s with cpu := c, mem := m }) where
  env := ⟨rfl, rfl, rfl, rfl, rfl, rfl, rfl, rfl⟩
  dbg := Or.inl rfl
  wf := hm
  outcome := Or.inr ⟨rfl, rfl⟩

/-- A completion by a task switch. -/
theorem executed_switch (i : Instr) (s : State) (l : List Access) (t : TssRef) (n : Bool) (image ret : W32) :
    Executed i s (complete l (switchTask t n image ret s)) where
  env := ⟨rfl, rfl, rfl, rfl, rfl, rfl, rfl, rfl⟩
  dbg := Or.inr (Or.inl rfl)
  wf h := taskSwitchMemory_wf h _ _ _ _ _
  outcome := Or.inr ⟨rfl, rfl⟩

theorem executed_farTaskSwitch (i : Instr) (s : State) (l : List Access) (t : TssRef) (n : Bool) :
    Executed i s (farTaskSwitch l t n s) := executed_attempt _ (executed_switch i s l t n _ _)

theorem executed_softInt (i : Instr) (v : Byte) (b : Bool) (s : State) : Executed i s (softInt v b s) := by
  unfold softInt
  cases softIntFault s v b with
  | some f => exact executed_raise i f s
  | none =>
    have hw (h : s.mem.wf = true) := deliver_wf h v .trap s.nip none
    have hd := deliver_dbg v .trap s.nip none s
    have he := deliver_env v .trap s.nip none s
    have hf := deliver_deferred (k := .trap) (by simp) v s.nip none s
    simp only [softIntEntry]
    split <;>
      exact ⟨⟨he.tf0, he.iceActive, he.extInt, he.inputs, he.coherentFetch, he.reservedAsWritten, he.nip, he.tick⟩,
        by rcases hd with h | h <;> simp [h], hw, Or.inr ⟨rfl, hf⟩⟩

theorem executed_interruptReturn (i : Instr) (k : Nat) (s : State) : Executed i s (interruptReturn k s) := by
  unfold interruptReturn
  cases returnFault s k with
  | some f => exact executed_raise i f s
  | none =>
    simp only [returnDone]
    cases returnKind s k with
    | faults f => exact executed_raise i f s
    | taskReturn t => exact executed_switch i s _ t _ _ _
    | real => exact executed_complete i s _ _ _ id
    | toV86 => exact executed_complete i s _ _ _ id
    | same cs => exact executed_complete i s _ _ _ id
    | outer cs => exact executed_complete i s _ _ _ id

theorem executed_popFlags (i : Instr) (k : Nat) (s : State) : Executed i s (popFlags k s) := by
  unfold popFlags
  split
  · exact executed_raise i _ s
  · exact executed_attempt _ (executed_complete i s _ _ _ id)

theorem executed_farJump (i : Instr) (l : List Access) (sel : W16) (off : W32) (s : State) :
    Executed i s (farJump l sel off s) := by
  refine executed_attempt l ?_
  unfold jumpDone
  cases farKind s.cpu sel false with
  | faults f => exact executed_raise i f s
  | task t => exact executed_farTaskSwitch i s l t false
  | real => exact executed_complete i s _ _ _ id
  | direct cs => exact executed_complete i s _ _ _ id
  | gate h => exact executed_complete i s _ _ _ id

theorem executed_callPush (i : Instr) (l : List Access) (stack : Cpu) (k : Nat) (values : List W32) (cs : Seg)
    (eip : W32) (cpl : BitVec 2) (s : State) : Executed i s (callPush l stack k values cs eip cpl s) :=
  executed_attempt _ (executed_complete i s _ _ _ fun h => pushAll_wf h k values)

theorem executed_farCall (i : Instr) (os : OpSize) (l : List Access) (sel : W16) (off : W32) (s : State) :
    Executed i s (farCall os l sel off s) := by
  refine executed_attempt l ?_
  unfold callDone
  cases farKind s.cpu sel true with
  | faults f => exact executed_raise i f s
  | task t => exact executed_farTaskSwitch i s l t true
  | real => exact executed_callPush i _ _ _ _ _ _ _ s
  | direct cs => exact executed_callPush i _ _ _ _ _ _ _ s
  | gate h => exact executed_callPush i _ _ _ _ _ _ _ s

/-- Everything `exec` can do. -/
theorem exec_executed {i : Instr} {s t : State} (h : exec i s = .next t) : Executed i s t := by
  cases i with
  | movFromDR r n =>
    simp only [exec, execMovFromDR] at h
    split at h
    · cases h; exact executed_raise _ _ s
    · split at h
      · cases h
      · cases h; exact executed_complete _ s _ _ _ id
  | movToDR n r =>
    simp only [exec, execMovToDR] at h
    split at h
    · cases h; exact executed_raise _ _ s
    · rename_i hp
      split at h
      · cases h
      · rename_i d hd
        cases h
        exact ⟨⟨rfl, rfl, rfl, rfl, rfl, rfl, rfl, rfl⟩, Or.inr (Or.inr ⟨n, r, rfl, by simpa using hp, hd⟩), id,
          Or.inr ⟨rfl, rfl⟩⟩
  | int3 => cases h; exact executed_softInt _ _ _ s
  | intN v => cases h; exact executed_softInt _ _ _ s
  | into =>
    simp only [exec, execInto] at h
    split at h <;> cases h
    · exact executed_softInt _ _ _ s
    · exact executed_complete _ s _ _ _ id
  | iret => cases h; exact executed_interruptReturn _ _ s
  | iretd => cases h; exact executed_interruptReturn _ _ s
  | popf => cases h; exact executed_popFlags _ _ s
  | popfd => cases h; exact executed_popFlags _ _ s
  | jmpPtr p => cases h; exact executed_farJump _ _ _ _ s
  | jmpMem os g m => cases h; exact executed_farJump _ _ _ _ s
  | callPtr p => cases h; exact executed_farCall _ _ _ _ _ s
  | callMem os g m => cases h; exact executed_farCall _ _ _ _ _ s

/-- What INT 3, INT n and a taken INTO are: a software interrupt to their vector. -/
theorem exec_softVector {i : Instr} {s : State} {v : Byte} (h : softVector i s = some v) :
    exec i s = .next (softInt v (needsIOPL i) s) := by
  cases i <;> simp [softVector] at h
  · subst h; rfl
  · subst h; rfl
  · obtain ⟨ho, rfl⟩ := h
    simp [exec, execInto, ho, needsIOPL]

/-! ## What a debug fault depends on -/

theorem fetchBytes_congr {s t : State} (hc : t.cpu = s.cpu) (hm : t.mem = s.mem)
    (hf : t.coherentFetch = s.coherentFetch) (k : Nat) (a : W32) : fetchBytes t k a = fetchBytes s k a := by
  induction k generalizing a with
  | zero => rfl
  | succ k ih => simp only [fetchBytes, hc, hm, hf, ih]

theorem fetch_congr {s t : State} (hc : t.cpu = s.cpu) (hm : t.mem = s.mem)
    (hf : t.coherentFetch = s.coherentFetch) (ht : t.tick = s.tick) : fetch t = fetch s := by
  simp only [fetch, hc, ht, fetchBytes_congr hc hm hf]

/-- The debug faults of the instruction at CS:EIP do not depend on the reports and latches of the step. -/
theorem debugFault_congr {s t : State} (hc : t.cpu = s.cpu) (hm : t.mem = s.mem)
    (hf : t.coherentFetch = s.coherentFetch) (ht : t.tick = s.tick) (hd : t.dbg = s.dbg)
    (hi : t.iceActive = s.iceActive) : debugFault t = debugFault s ∧ faultCause t = faultCause s := by
  simp only [debugFault, breakpointFault, generalDetect, faultCause, hc, hd, hi, fetch_congr hc hm hf ht]
  exact ⟨trivial, trivial⟩

/-! ## Instructions of class Other -/

/-- What an instruction of class Other can do (R104): take a base fault that is no debug exception, or complete with a
change of registers and memory alone, RF cleared and TF and the task as they were. -/
def RanOther (s t : State) : Prop :=
  (∃ f, f.vec ≠ 1 ∧ t = raise f s) ∨
    ∃ l c m, t = complete l { s with cpu := c, mem := m } ∧ (s.mem.wf = true → m.wf = true) ∧
      c.flags.rf = false ∧ c.flags.tf = s.cpu.flags.tf ∧ c.task = s.cpu.task

/-- A page fault is vector 14. -/
theorem accessesFault_vec {c : Cpu} {l : List Access} {f : BaseFault} (h : accessesFault c l = some f) :
    f.vec = 14 := by
  induction l with
  | nil => cases h
  | cons a l ih =>
    unfold accessesFault at h
    split at h
    · rename_i g hg
      cases h
      obtain ⟨i, -, hi⟩ := Option.map_eq_some_iff.1 hg
      rw [← hi]; rfl
    · exact ih h

theorem exceptDebug_vec (f : BaseFault) : f.exceptDebug.vec ≠ 1 ∧ f.exceptDebug.vec ≠ 3 := by
  unfold BaseFault.exceptDebug
  split
  · exact ⟨(by decide : (13 : Byte) ≠ 1), (by decide : (13 : Byte) ≠ 3)⟩
  · rename_i h; exact ⟨fun e => h (Or.inl e), fun e => h (Or.inr e)⟩

theorem ordinaryDone_ran {l : List Access} {s done : State} {c : Cpu} {m : Memory}
    (hd : done = { s with cpu := c, mem := m }) (hm : s.mem.wf = true → m.wf = true)
    (hf : c.flags.tf = s.cpu.flags.tf) (ht : c.task = s.cpu.task) : RanOther s (ordinaryDone l s done) := by
  unfold ordinaryDone
  rcases attempt_cases l s (retire l done) with ⟨_, he⟩ | ⟨f, h, he⟩ <;> rw [he]
  · subst hd
    exact Or.inr ⟨l, _, m, rfl, hm, rfl, hf, ht⟩
  · exact Or.inl ⟨f, by rw [accessesFault_vec h]; decide, rfl⟩

theorem writeRegMem_same (s : State) (os : OpSize) (g : Option SegName) (v : W32) (d : RegMem) :
    ∃ r m, writeRegMem s os g v d = { s with cpu := { s.cpu with regs := r }, mem := m } ∧
      (s.mem.wf = true → m.wf = true) := by
  cases d with
  | reg r => exact ⟨_, s.mem, rfl, id⟩
  | mem m => exact ⟨s.cpu.regs, _, rfl, fun h => storeLE_wf h _ _ _⟩

theorem runOrdinary_ran (o : Ordinary) (s : State) : RanOther s (runOrdinary o s) := by
  cases o with
  | movImm os r imm => exact ordinaryDone_ran (m := s.mem) rfl id rfl rfl
  | inc os r => exact ordinaryDone_ran (m := s.mem) rfl id rfl rfl
  | xor os g d r =>
    obtain ⟨q, m, he, hm⟩ := writeRegMem_same s os g (readRegMem s os g d ^^^ cut os (s.cpu.regs.get r)) d
    exact ordinaryDone_ran (m := m) (congrArg (fun t => State.withFlags t _) he) hm rfl rfl
  | push os imm =>
    obtain ⟨e, he⟩ := pushAll_cpu s.cpu s.mem (opBytes os) [imm]
    exact ordinaryDone_ran rfl (fun h => pushAll_wf h _ _) (by rw [he]) (by rw [he])
  | movMoffs os g off => exact ordinaryDone_ran (m := s.mem) rfl id rfl rfl
  | movByte g d imm =>
    cases d with
    | reg r => exact ordinaryDone_ran (m := s.mem) rfl id rfl rfl
    | mem m => exact ordinaryDone_ran rfl (fun h => storeLE_wf h _ _ _) rfl rfl
  | and os g d imm =>
    obtain ⟨q, m, he, hm⟩ := writeRegMem_same s os g (readRegMem s os g d &&& cut os imm) d
    exact ordinaryDone_ran (m := m) (congrArg (fun t => State.withFlags t _) he) hm rfl rfl

theorem runOther_ran (s : State) : RanOther s (runOther s) := by
  unfold runOther
  cases Config.otherAnswer s.tick with
  | fault f => exact Or.inl ⟨_, (exceptDebug_vec f).1, rfl⟩
  | complete c writes accesses => exact Or.inr ⟨_, _, _, rfl, fun h => storeBytes_wf h writes, rfl, rfl, rfl⟩

/-! ## The report of traps -/

/-- A trap is delivered alone, or merged with the faults of the next instruction, or refused while DR7 holds an
undefined code. -/
theorem deliverTrap_cases {k : Cause} {s : State} {o : Host.Outcome State Fault Refusal} (h : deliverTrap k s = o) :
    o = .next (takeTrap k .trap s) ∨ o = .next (takeTrap (k.merge (faultCause s)) .merged s) ∧ debugFault s = true ∨
      ∃ r, s.dbg.undefinedCode = some r ∧ o = .refused r := by
  unfold deliverTrap at h
  split at h
  · rename_i r hr
    split at h <;> subst h
    · exact Or.inr (Or.inr ⟨r, hr, rfl⟩)
    · exact Or.inl rfl
  · split at h <;> subst h
    · rename_i hd
      exact Or.inr (Or.inl ⟨rfl, by simp at hd; exact hd.1⟩)
    · exact Or.inl rfl

/-- Reading the environment's inputs changes what belongs to the environment alone. -/
theorem sampleInputs_same (s : State) : (sampleInputs s).cpu = s.cpu ∧ (sampleInputs s).mem = s.mem ∧
    (sampleInputs s).dbg = s.dbg ∧ (sampleInputs s).deferred = s.deferred ∧ (sampleInputs s).tick = s.tick ∧
    (sampleInputs s).boundary = s.boundary ∧ (sampleInputs s).pendingBT = s.pendingBT ∧
    (sampleInputs s).tf0 = s.tf0 := by
  unfold sampleInputs
  split <;> exact ⟨rfl, rfl, rfl, rfl, rfl, rfl, rfl, rfl⟩

@[simp] theorem sampleInputs_cpu (s : State) : (sampleInputs s).cpu = s.cpu := (sampleInputs_same s).1
@[simp] theorem sampleInputs_mem (s : State) : (sampleInputs s).mem = s.mem := (sampleInputs_same s).2.1
@[simp] theorem sampleInputs_dbg (s : State) : (sampleInputs s).dbg = s.dbg := (sampleInputs_same s).2.2.1
@[simp] theorem sampleInputs_deferred (s : State) : (sampleInputs s).deferred = s.deferred :=
  (sampleInputs_same s).2.2.2.1
@[simp] theorem sampleInputs_tick (s : State) : (sampleInputs s).tick = s.tick := (sampleInputs_same s).2.2.2.2.1
@[simp] theorem sampleInputs_boundary (s : State) : (sampleInputs s).boundary = s.boundary :=
  (sampleInputs_same s).2.2.2.2.2.1
@[simp] theorem sampleInputs_pendingBT (s : State) : (sampleInputs s).pendingBT = s.pendingBT :=
  (sampleInputs_same s).2.2.2.2.2.2.1
@[simp] theorem sampleInputs_tf0 (s : State) : (sampleInputs s).tf0 = s.tf0 := (sampleInputs_same s).2.2.2.2.2.2.2

/-- With no input left, reading the inputs does nothing. -/
theorem sampleInputs_quiet {s : State} (hi : s.inputs = []) : sampleInputs s = s := by simp [sampleInputs, hi]

/-- The examination of the external interrupt input takes the interrupt then pending, if IF = 1, or does nothing. -/
theorem takeInterrupt_cases (s : State) :
    (takeInterrupt s = s ∧ deliverable s = none) ∨
      ∃ v, s.extInt = some v ∧ s.cpu.flags.intf = true ∧
        takeInterrupt s = deliver v .interrupt s.cpu.eip none { s with extInt := none } := by
  cases hd : deliverable s with
  | none => exact Or.inl ⟨by simp only [takeInterrupt, hd], rfl⟩
  | some v =>
    refine Or.inr ⟨v, ?_, ?_, by simp only [takeInterrupt, hd]⟩ <;> rw [deliverable] at hd <;>
      split at hd <;> simp_all

/-- With no interrupt pending the examination does nothing. -/
theorem takeInterrupt_quiet {s : State} (h : s.extInt = none) : takeInterrupt s = s := by
  rcases takeInterrupt_cases s with ⟨he, _⟩ | ⟨v, hv, _⟩
  · exact he
  · rw [h] at hv; cases hv

/-- What follows an instruction: the inputs are read; then nothing when it faulted, else the report of its traps, and the
examination of the external interrupt input unless a task switch is still to be reported. -/
theorem finish_cases {s t : State} (h : finish (.next s) = .next t) :
    (s.boundary = none ∧ t = sampleInputs s) ∨
      ∃ b u, s.boundary = some b ∧ reportTraps (sampleInputs s) b = .next u ∧
        t = if u.pendingBT then u else takeInterrupt u := by
  unfold finish at h
  cases hb : s.boundary with
  | none => simp only [hb] at h; cases h; exact Or.inl ⟨rfl, rfl⟩
  | some b =>
    simp only [hb] at h
    cases hr : reportTraps (sampleInputs s) b with
    | next u => rw [hr] at h; cases h; exact Or.inr ⟨b, u, rfl, hr, rfl⟩
    | fault r => rw [hr] at h; cases h
    | refused r => rw [hr] at h; cases h

/-- An instruction that faulted is over: the inputs are read, and nothing else happens. -/
theorem finish_faulted {s : State} (h : s.boundary = none) : finish (.next s) = .next (sampleInputs s) := by
  simp only [finish, h]

theorem takeDebugFault_boundary (s : State) : (takeDebugFault s).boundary = none := deliver_boundary _ _ _ _ _

/-- The report of the traps: none pending, a trap, or a trap merged with the faults of the next instruction. -/
theorem reportTraps_cases {s u : State} {b : Boundary} (h : reportTraps s b = .next u) :
    (trapPending s b = false ∧ u = afterLook s b) ∨
      (trapPending s b = true ∧ u = takeTrap (trapCause s b) .trap (afterLook s b)) ∨
      (trapPending s b = true ∧ debugFault (afterLook s b) = true ∧
        u = takeTrap ((trapCause s b).merge (faultCause (afterLook s b))) .merged (afterLook s b)) := by
  unfold reportTraps at h
  split at h
  · rename_i hp
    rcases deliverTrap_cases h with he | ⟨he, hd⟩ | ⟨r, _, he⟩
    · cases he; exact Or.inr (Or.inl ⟨hp, rfl⟩)
    · cases he; exact Or.inr (Or.inr ⟨hp, hd, rfl⟩)
    · cases he
  · rename_i hp
    cases h
    exact Or.inl ⟨by simpa using hp, rfl⟩

/-! ## The step -/

/-- Everything a step can do: report a task switch, take a debug fault, or run what stands at CS:EIP. -/
inductive Stepped (s : State) : State → Prop where
  | taskSwitch {u v : State} (pending : s.pendingBT = true)
      (report : deliverTrap taskSwitchCause (sampleInputs { s with pendingBT := false, boundary := none }) = .next v)
      (after : u = if v.pendingBT then v else takeInterrupt v) : Stepped s u
  | debugFault (pending : s.pendingBT = false) (fault : debugFault s = true) :
      Stepped s (sampleInputs (takeDebugFault s))
  | instr {i : Instr} {len : Nat} {t u : State} (pending : s.pendingBT = false) (fetched : fetch s = .instr i len)
      (executed : exec i (begin len s) = .next t) (after : finish (.next t) = .next u) : Stepped s u
  | ordinary {o : Ordinary} {len : Nat} {u : State} (pending : s.pendingBT = false)
      (fetched : fetch s = .ordinary o len) (after : finish (.next (runOrdinary o (begin len s))) = .next u) :
      Stepped s u
  | other {u : State} (pending : s.pendingBT = false) (fetched : fetch s = .other)
      (after : finish (.next (runOther (begin 0 s))) = .next u) : Stepped s u
  | fetchFault {f : BaseFault} (pending : s.pendingBT = false) (fetched : fetch s = .faults f) :
      Stepped s (sampleInputs (raise f (begin 0 s)))

theorem step_stepped {s t : State} (h : step s = .next t) : ∃ u, Stepped s u ∧ t = { u with tick := u.tick + 1 } := by
  unfold step countStep at h
  cases hc : cycle s with
  | fault r => rw [hc] at h; cases h
  | refused r => rw [hc] at h; cases h
  | next u =>
    rw [hc] at h
    cases h
    refine ⟨u, ?_, rfl⟩
    unfold cycle at hc
    split at hc
    · rename_i hp
      unfold reportTaskSwitch at hc
      cases hd : deliverTrap taskSwitchCause (sampleInputs { s with pendingBT := false, boundary := none }) with
      | next v => rw [hd] at hc; cases hc; exact .taskSwitch hp hd rfl
      | fault r => rw [hd] at hc; cases hc
      | refused r => rw [hd] at hc; cases hc
    · rename_i hp
      have hp : s.pendingBT = false := by simpa using hp
      split at hc
      · cases hc
      · split at hc
        · rename_i hf
          rw [finish_faulted (takeDebugFault_boundary s)] at hc
          cases hc
          exact .debugFault hp hf
        · unfold runInstruction at hc
          split at hc
          · rename_i i len hf
            cases he : exec i (begin len s) with
            | next t => rw [he] at hc; exact .instr hp hf he hc
            | fault r => rw [he] at hc; cases hc
            | refused r => rw [he] at hc; cases hc
          · rename_i o len hf
            exact .ordinary hp hf hc
          · rename_i hf
            exact .other hp hf hc
          · rename_i f hf
            rw [finish_faulted (raise_boundary f _)] at hc
            cases hc
            exact .fetchFault hp hf
          · cases hc

end Sys2Proof.Machine
end

