-- ==== Sys2Proof/Tests/Slice0.lean ====
section
/-! SUPPORT. Tests: ill-formed terms are refused, words written out from the spec's encodings decode, one step of
each instruction on a small state against 95_test_vectors.md, and for every statement with hypotheses a witness that
meets them. -/

namespace Sys2Proof.Tests

open Sys2Proof Sys2Proof.Machine

/-! ## Helpers -/

/-- Whether an outcome is a next state with a property. -/
def nextWith (f : State → Bool) : Host.Outcome State Fault Refusal → Bool
  | .next s => f s
  | .fault _ => false
  | .refused _ => false

/-- Whether an outcome is a given refusal. -/
def refusedAs (r : Refusal) : Host.Outcome State Fault Refusal → Bool
  | .next _ => false
  | .fault _ => false
  | .refused q => q == r

theorem exists_next {o : Host.Outcome State Fault Refusal} (h : nextWith (fun _ => true) o = true) :
    ∃ t, o = .next t := by
  cases o with
  | next s => exact ⟨s, rfl⟩
  | fault r => cases h
  | refused r => cases h

/-- The flat 32-bit code segment of the programs of 95_test_vectors.md. -/
def flatCode : Seg := ⟨0x08, 0, true⟩

/-- A 32-bit handler at level 0. -/
def handlerAt (eip : W32) : Handler :=
  { cs := flatCode, eip := eip, cpl := 0, wide := true, clearsIF := true, ss := ⟨0x10, 0, true⟩, esp := 0x7000 }

/-- The task the tests switch to. -/
def otherTask : TssRef := ⟨0x40, 0x6000, true⟩

/-- The base machine of the programs of 95_test_vectors.md: 32-bit protected mode, flat, level 0, no paging. -/
def flatCpu : Cpu :=
  { Cpu.reset with
    protectedMode := true
    cs := flatCode
    ss := ⟨0x10, 0, true⟩
    ds := ⟨0x10, 0, true⟩
    eip := 0x1000
    regs := { Regs.reset with esp := 0x8000 }
    task := ⟨0x28, 0x5000, true⟩
    gates := [⟨1, 0, .procedure (handlerAt 0x2000)⟩, ⟨3, 3, .procedure (handlerAt 0x3000)⟩,
      ⟨4, 3, .procedure (handlerAt 0x4000)⟩, ⟨13, 0, .procedure (handlerAt 0xD000)⟩,
      ⟨0x20, 0, .procedure (handlerAt 0xE000)⟩, ⟨0x22, 3, .task otherTask⟩]
    descs := [⟨0x08, 0, .code 0 true⟩, ⟨0x10, 0, .data 0 true⟩, ⟨0x18, 3, .code 0 true⟩, ⟨0x20, 3, .data 0 true⟩,
      ⟨0x40, 3, .tss 0x6000 true⟩, ⟨0x48, 3, .taskGate otherTask⟩, ⟨0x50, 3, .callGate (handlerAt 0xC000)⟩] }

/-- The flat machine with its debug registers clear. -/
def flat : State := { State.reset with cpu := flatCpu }

/-- A state with bytes placed at a linear address. -/
def withBytes (s : State) (a : W32) (bs : List Byte) : State := { s with mem := placeBytes s.cpu s.mem a bs }

/-- A state with instruction bytes at CS:EIP. -/
def withCode (s : State) (bs : List Byte) : State := withBytes s (linIP s.cpu) bs

/-- A state with doublewords on top of the stack, the first at the lowest address. -/
def withStack (s : State) (ws : List W32) : State := withBytes s (stackAddr s.cpu 0) (ws.flatMap bytes32)

/-- A state with the debug registers given. -/
def withDebug (s : State) (d : Debug) : State := { s with dbg := d }

/-- A state with the flags of an image. -/
def withImage (s : State) (v : W32) : State := { s with cpu := { s.cpu with flags := Flags.ofImage v } }

/-- A state at level 3. -/
def atLevel3 (s : State) : State := { s with cpu := { s.cpu with cpl := 3 } }

/-- A state in virtual-8086 mode. -/
def inV86 (s : State) : State := { s with cpu := { s.cpu with cpl := 3, flags := { s.cpu.flags with vm := true } } }

/-- A completed instruction that began with TF = 1 and made these accesses. -/
def completed (s : State) (tf0 : Bool) (l : List Access) (isInt : Bool) : State :=
  { s with tf0 := tf0, boundary := some ⟨l, isInt⟩ }

/-- Only DR7 set. -/
def debug7 (v : W32) : Debug := { Debug.reset with dr7 := v }

/-! ## Well-formedness: each check refuses an ill-formed term -/

theorem test_wf_bp_needs_displacement :
    (Instr.jmpMem .s16 none (.based16 .bp .zero)).wellFormed = false := by decide
theorem test_wf_esp_needs_sib : (Instr.jmpMem .s32 none (.based32 .esp .zero)).wellFormed = false := by decide
theorem test_wf_ebp_needs_displacement :
    (Instr.callMem .s32 none (.based32 .ebp .zero)).wellFormed = false := by decide
theorem test_wf_esp_is_no_index :
    (Instr.callMem .s32 none (.sib (some .eax) (some (.esp, .x2)) .zero)).wellFormed = false := by decide
theorem test_wf_sib_without_base_needs_dword :
    (Instr.callMem .s32 none (.sib none none (.byte 4))).wellFormed = false := by decide
theorem test_wf_sib_ebp_needs_displacement :
    (Instr.jmpMem .s32 none (.sib (some .ebp) none .zero)).wellFormed = false := by decide
theorem test_wf_accepts_sib :
    (Instr.jmpMem .s32 (some .fs) (.sib none (some (.eax, .x4)) (.dword 5))).wellFormed = true := by decide

/-! ## Decoding words written out from 30_encoding.md and 95_test_vectors.md V8 -/

theorem test_decode_mov_ebx_dr6 :
    decode true [0b00001111, 0b00100001, 0b11110011] = .instr (.movFromDR .ebx .dr6) 3 := by decide
theorem test_decode_mov_dr2_esp :
    decode true [0b00001111, 0b00100011, 0b11010100] = .instr (.movToDR .dr2 .esp) 3 := by decide
theorem test_decode_mov_operand_size_ignored :
    decode true [0x66, 0x0F, 0x23, 0b11111111] = .instr (.movToDR .dr7 .edi) 4 := by decide
theorem test_decode_mov_mod_01_refused : decode true [0x0F, 0x21, 0b01000101] = .movDebugMod := by decide
theorem test_decode_mov_mod_00_refused : decode true [0x0F, 0x23, 0b00000000] = .movDebugMod := by decide
theorem test_decode_int3 : decode true [0b11001100] = .instr .int3 1 := by decide
theorem test_decode_int_03 : decode true [0b11001101, 0x03] = .instr (.intN 3) 2 := by decide
theorem test_decode_into : decode true [0b11001110] = .instr .into 1 := by decide
theorem test_decode_iret : decode false [0b11001111] = .instr .iret 1 := by decide
theorem test_decode_iretd_prefix : decode false [0x66, 0b11001111] = .instr .iretd 2 := by decide
theorem test_decode_popf_prefix : decode true [0x66, 0b10011101] = .instr .popf 2 := by decide
theorem test_decode_popfd : decode true [0b10011101] = .instr .popfd 1 := by decide
theorem test_decode_jmp_ptr :
    decode true [0b11101010, 0, 0, 0, 0, 0x28, 0] = .instr (.jmpPtr (.ptr32 0 0x28)) 7 := by decide
theorem test_decode_jmp_mem :
    decode true [0b11111111, 0b00101101, 0x00, 0x20, 0, 0] = .instr (.jmpMem .s32 none (.direct32 0x2000)) 6 := by
  decide
theorem test_decode_call_ptr :
    decode false [0b10011010, 0x34, 0x12, 0x28, 0] = .instr (.callPtr (.ptr16 0x1234 0x28)) 5 := by decide
theorem test_decode_call_mem_sib :
    decode true [0b11111111, 0b01011100, 0b00100100, 0x08] =
      .instr (.callMem .s32 none (.sib (some .esp) none (.byte 8))) 4 := by decide
theorem test_decode_jmp_ptr_repeat_prefix :
    decode false [0xF3, 0b11101010, 0x34, 0x12, 0x28, 0] = .instr (.jmpPtr (.ptr16 0x1234 0x28)) 6 := by decide
theorem test_decode_other : decode true [0xF4] = .unlisted := by decide
theorem test_decode_truncated : decode true [0xEA, 0, 0] = .truncated := by decide
theorem test_encode_jmp_mem : encode true (.jmpMem .s16 (some .es) (.based16 .bpsi (.byte 1))) =
    [0x26, 0x66, 0x67, 0xFF, 0x6A, 0x01] := by decide
theorem test_table_word : decodeTableWord 24 0x0F21C3 = some (.movFromDR .ebx .dr0) := by decide
theorem test_table_word_runs :
    nextWith (fun t => t.cpu.eip == 0xFFF3) (step (State.reset.withFetchWord 24 0x0F21C3)) = true := by decide

/-! ## Fields and matching (95_test_vectors.md V2, V3, V4) -/

theorem test_base_of_four_byte_field :
    ({ debug7 0x000C0000 with dr0 := 0xFFFFFFFF } : Debug).base 0 = 0xFFFFFFFC := by decide
theorem test_base_of_two_byte_field :
    ({ debug7 0x00400000 with dr1 := 0x000B0003 } : Debug).base 1 = 0x000B0002 := by decide
theorem test_match_wraps :
    ({ debug7 0x00010000 with dr0 := 0 } : Debug).dataMatch 0 ⟨0xFFFFFFFF, 2, .write⟩ = true := by decide
theorem test_match_kind :
    ({ debug7 0x00010000 with dr0 := 0x2000 } : Debug).dataMatch 0 ⟨0x2000, 1, .read⟩ = false := by decide
theorem test_match_field_overlap :
    ({ debug7 0x07000000 with dr2 := 0xB0002 } : Debug).dataMatch 2 ⟨0xB0001, 4, .read⟩ = true := by decide
theorem test_match_field_below :
    ({ debug7 0x07000000 with dr2 := 0xB0002 } : Debug).dataMatch 2 ⟨0xB0000, 2, .read⟩ = false := by decide
theorem test_fields_of_dr7 : (debug7 0xD0000280).enabled 3 = true ∧ (debug7 0xD0000280).exact = true ∧
    (debug7 0xD0000280).rw 3 = 1 ∧ (debug7 0xD0000280).len 3 = 3 := by decide
theorem test_task_switch_dr7 : (debug7 0x00700104).afterTaskSwitch = debug7 0x00700000 := by decide
theorem test_undefined_code : (debug7 0x00040001).undefinedCode = some .undefinedExecuteLEN := by decide
theorem test_image : (Flags.ofImage 0x00010102).tf = true ∧ (Flags.ofImage 0x00010102).rf = true ∧
    (Flags.ofImage 0x00010102).image = 0x00010102 := by decide

/-! ## One step of each instruction (95_test_vectors.md V5, V6, V7, E9, P5) -/

theorem test_mov_from_dr1 :
    nextWith (fun t => t.cpu.regs.edx == 0xB0002 && t.cpu.eip == 0x1003)
      (step (withDebug (withCode flat [0x0F, 0x21, 0xCA]) { Debug.reset with dr1 := 0xB0002 })) = true := by decide
theorem test_mov_from_dr_level3 :
    nextWith (fun t => t.cpu.eip == 0xD000 && stackValue t 4 4 == 0x1000 && t.cpu.regs.eax == 0)
      (step (atLevel3 (withCode flat [0x0F, 0x21, 0xF8]))) = true := by decide
theorem test_mov_to_dr2_esp :
    nextWith (fun t => t.dbg.dr2 == 0x8000) (step (withCode flat [0x0F, 0x23, 0xD4])) = true := by decide
theorem test_mov_to_dr4_refused :
    refusedAs .undefinedDebugRegister (step (withCode flat [0x0F, 0x23, 0xE0])) = true := by decide
theorem test_int3 :
    nextWith (fun t => t.cpu.eip == 0x3000 && stackValue t 0 4 == 0x1001 && stackValue t 8 4 == 2)
      (step (withCode flat [0xCC])) = true := by decide
theorem test_int3_two_byte :
    nextWith (fun t => t.cpu.eip == 0x3000 && stackValue t 0 4 == 0x1002) (step (withCode flat [0xCD, 0x03])) = true := by
  decide
theorem test_int1_sets_no_bit :
    nextWith (fun t => t.cpu.eip == 0x2000 && t.dbg.dr6 == 0) (step (withCode flat [0xCD, 0x01])) = true := by decide
theorem test_into_taken :
    nextWith (fun t => t.cpu.eip == 0x4000 && stackValue t 0 4 == 0x1001)
      (step (withImage (withCode flat [0xCE]) 0x802)) = true := by decide
theorem test_into_not_taken_steps :
    nextWith (fun t => t.cpu.eip == 0x2000 && stackValue t 0 4 == 0x1001 && t.dbg.dr6 == 0x4000 && !t.cpu.flags.tf)
      (step (withImage (withCode flat [0xCE]) 0x102)) = true := by decide
theorem test_iret_keeps_rf :
    nextWith (fun t => t.cpu.eip == 0x100 && t.cpu.flags.rf && t.cpu.regs.esp == 0x8006)
      (step (withImage (withBytes (withCode flat [0x66, 0xCF]) 0x8000 [0x00, 0x01, 0x08, 0x00, 0x02, 0x00]) 0x10002)) =
      true := by decide
theorem test_iretd_loads_rf :
    nextWith (fun t => t.cpu.eip == 0x1500 && t.cpu.flags.rf && t.cpu.regs.esp == 0x800C)
      (step (withStack (withCode flat [0xCF]) [0x1500, 0x08, 0x00010002])) = true := by decide
theorem test_popf_sets_tf_without_trap :
    nextWith (fun t => t.cpu.flags.tf && t.cpu.eip == 0x1002 && t.dbg.dr6 == 0)
      (step (withStack (withCode flat [0x66, 0x9D]) [0x102])) = true := by decide
theorem test_popfd_clears_tf_and_traps :
    nextWith (fun t => t.dbg.dr6 == 0x4000 && stackValue t 8 4 == 2)
      (step (withImage (withStack (withCode flat [0x9D]) [0x2]) 0x102)) = true := by decide
theorem test_jmp_ptr :
    nextWith (fun t => t.cpu.eip == 0x2222) (step (withCode flat [0xEA, 0x22, 0x22, 0, 0, 0x08, 0])) = true := by decide
theorem test_jmp_to_task_with_trap_bit :
    nextWith (fun t => t.dbg.dr7 == 0x00700000 && t.dbg.dr6 == 0x8000 && t.cpu.eip == 0x2000)
      (step (withDebug (withBytes (withBytes (withBytes (withCode flat [0xEA, 0, 0, 0, 0, 0x40, 0])
        0x6064 [1]) 0x604C [0x08]) 0x6050 [0x10]) (debug7 0x00700104))) = true := by decide
theorem test_jmp_mem :
    nextWith (fun t => t.cpu.eip == 0x2222)
      (step (withBytes (withCode flat [0xFF, 0x2D, 0, 0x20, 0, 0]) 0x2000 [0x22, 0x22, 0, 0, 0x08, 0])) = true := by
  decide
theorem test_call_ptr :
    nextWith (fun t => t.cpu.eip == 0x2222 && stackValue t 0 4 == 0x1007 && stackValue t 4 4 == 8)
      (step (withCode flat [0x9A, 0x22, 0x22, 0, 0, 0x08, 0])) = true := by decide
theorem test_call_gate_keeps_tf :
    nextWith (fun t => t.cpu.flags.tf && t.cpu.eip == 0xC000 && t.cpu.cpl == 0 && stackValue t 0 4 == 0x1007)
      (exec (.callPtr (.ptr32 0 0x50)) (begin 7 (withImage (atLevel3 flat) 0x102))) = true := by decide
theorem test_call_mem :
    nextWith (fun t => t.cpu.eip == 0x2222 && stackValue t 0 4 == 0x1006)
      (step (withBytes (withCode flat [0xFF, 0x1D, 0, 0x20, 0, 0]) 0x2000 [0x22, 0x22, 0, 0, 0x08, 0])) = true := by
  decide

/-- Real mode with a code segment marked 32-bit and an entry for INT 3 in the table of gates. -/
def realMode : State :=
  { withBytes flat 0xC [0x34, 0x12, 0x00, 0x30] with cpu := { flatCpu with protectedMode := false } }

theorem test_real_mode_is_16_bit :
    nextWith (fun t => t.cpu.eip == 0x1500 && t.cpu.regs.esp == 0x800C)
      (step (withStack (withCode realMode [0x66, 0xCF]) [0x1500, 0x08, 0x00000002])) = true := by decide
theorem test_real_mode_saves_words :
    nextWith (fun t => t.cpu.eip == 0x1234 && t.cpu.cs.base == 0x30000 && t.cpu.regs.esp == 0x7FFA &&
      stackValue t 0 2 == 0x1001) (step (withCode realMode [0xCC])) = true := by decide
theorem test_int_to_absent_stack_page :
    nextWith (fun t => t.cpu.eip == 0xE100 && t.cpu.cr2 == 0x7FFC)
      (exec .int3 (begin 1 { flat with cpu := { flatCpu with
        paging := true
        pages := [⟨0, 7, 7, false⟩]
        gates := ⟨14, 0, .procedure (handlerAt 0xE100)⟩ :: flatCpu.gates } })) = true := by decide
theorem test_ice_changes_after_a_fault :
    nextWith (fun t => t.dbg.dr6 == 0x2000 && !t.iceActive)
      (step { withCode flat [0x0F, 0x21, 0xF8] with iceActive := true, inputs := [⟨false, none⟩] }) = true := by decide

/-! ## Debug faults and traps (95_test_vectors.md P1, S1, S2, S3, V6) -/

theorem test_breakpoint_faults :
    nextWith (fun t => t.dbg.dr6 == 1 && t.cpu.eip == 0x2000 && stackValue t 0 4 == 0x1000 && stackValue t 8 4 == 0x10002)
      (step (withDebug (withCode flat [0x40]) { debug7 1 with dr0 := 0x1000 })) = true := by decide
theorem test_breakpoint_suppressed :
    nextWith (fun t => t.dbg.dr6 == 0 && t.cpu.regs.eax == 1 && !t.cpu.flags.rf)
      (step (withImage (withDebug (withCode flat [0x40]) { debug7 1 with dr0 := 0x1000 }) 0x10002)) = true := by decide
theorem test_single_step_and_data_breakpoint :
    nextWith (fun t => t.dbg.dr6 == 0x4001 && stackValue t 0 4 == 0x1007 && readByte t.cpu t.mem 0xC0002 == 0x5A)
      (step (withImage (withDebug (withCode flat [0xC6, 0x05, 0x02, 0x00, 0x0C, 0x00, 0x5A])
        { debug7 0x000D0202 with dr0 := 0xC0000 }) 0x102)) = true := by decide
theorem test_disabled_condition_recorded :
    nextWith (fun t => t.dbg.dr6 == 3)
      (finish (.next (completed (withDebug flat { debug7 0x00330201 with dr0 := 0xA0001, dr1 := 0xA0001 }) false
        [⟨0xA0001, 1, .read⟩] false))) = true := by decide
theorem test_disabled_conditions_do_nothing :
    nextWith (fun t => t.dbg.dr6 == 0 && t.cpu.eip == 0x1000)
      (finish (.next (completed (withDebug flat { debug7 0x00330200 with dr0 := 0xA0001, dr1 := 0xA0001 }) false
        [⟨0xA0001, 1, .read⟩] false))) = true := by decide
theorem test_general_detect :
    nextWith (fun t => t.dbg.dr6 == 0x2002 && t.dbg.dr0 == 0 && stackValue t 8 4 == 0x10002)
      (step { withDebug (withCode flat [0x0F, 0x21, 0xF8]) { debug7 4 with dr1 := 0x1000 } with iceActive := true }) =
      true := by decide

/-! ## Witnesses: states and operands that meet the hypotheses of each statement of Obligations.lean -/

/-- The flat machine with INTO at CS:EIP: an instruction that only advances. -/
def intoState : State := withCode flat [0xCE]

theorem witness_inv_keeps : intoState.inv = true ∧ ∃ t, step intoState = .next t :=
  ⟨by decide, exists_next (by decide)⟩
theorem witness_decode_encode :
    (Instr.callMem .s16 (some .gs) (.sib (some .esp) (some (.ebp, .x8)) (.byte 0x80))).wellFormed = true := by decide
theorem witness_fetch : Instr.int3.wellFormed = true ∧ InstrAt (withCode flat [0xCC]) .int3 :=
  ⟨by decide, by unfold InstrAt; decide⟩

theorem intoState_ready : ReadyToRun intoState := ⟨by decide, by decide, by decide⟩
theorem intoState_fetch : fetch intoState = .instr .into 1 := by decide
theorem intoState_exec : exec .into (begin 1 intoState) = .next (retire [] (begin 1 intoState)) := rfl

theorem witness_step_decoded :
    decode intoState.cpu.codeBig (fetchBytes intoState maxLength (linIP intoState.cpu)).1 = .instr .into 1 ∧
      ReadyToRun intoState := ⟨by decide, intoState_ready⟩
theorem witness_mov_other_mod :
    fieldMod 0x45 ≠ 3 ∧ ReadyToRun (withCode flat [0x0F, 0x21, 0x45]) ∧
      decode flat.cpu.codeBig (fetchBytes (withCode flat [0x0F, 0x21, 0x45]) maxLength (linIP flat.cpu)).1 =
        .movDebugMod := ⟨by decide, ⟨by decide, by decide, by decide⟩, by decide⟩
theorem witness_quiet_fault : flat.boundary = none := rfl
theorem witness_quiet :
    trapPending (completed flat false [] false) ⟨[], false⟩ = false ∧ (completed flat false [] false).pendingBT = false ∧
      (completed flat false [] false).extInt = none ∧ (completed flat false [] false).inputs = [] := by decide

theorem witness_mov_from_level0 : flat.cpu.privilege = 0 ∧ DReg.dr3 ≠ .dr4 ∧ DReg.dr3 ≠ .dr5 := by decide
theorem witness_mov_real_mode : State.reset.cpu.privilege = 0 ∧ DReg.dr7 ≠ .dr4 ∧ DReg.dr6 ≠ .dr5 := by decide
theorem witness_reserved_premise :
    ({ flat with reservedAsWritten := true } : State).cpu.privilege = 0 ∧
      flat.dbg.dr6 &&& ~~~definedDR6 = 0 ∧ (debug7 0xFFFF03FF).dr7 &&& ~~~definedDR7 = 0 := by decide
theorem witness_not_level0 : (atLevel3 flat).cpu.privilege ≠ 0 ∧ (inV86 flat).cpu.privilege ≠ 0 := by decide
theorem witness_dr4_dr5 : flat.cpu.privilege = 0 ∧ (DReg.dr4 = .dr4 ∨ DReg.dr4 = .dr5) ∧
    (DReg.dr5 = .dr4 ∨ DReg.dr5 = .dr5) := by decide

theorem witness_software_int3 :
    softVector .int3 flat = some 3 ∧ softIntFault flat 3 (needsIOPL .int3) = none ∧
      gateOf flat.cpu flat.mem 3 = .procedure (handlerAt 0x3000) := by decide
theorem witness_software_intN :
    softVector (.intN 4) (atLevel3 flat) = some 4 ∧ softIntFault (atLevel3 flat) 4 (needsIOPL (.intN 4)) = none ∧
      gateOf (atLevel3 flat).cpu flat.mem 4 = .procedure (handlerAt 0x4000) := by decide
theorem witness_software_into :
    softVector .into (withImage flat 0x802) = some 4 ∧
      softIntFault (withImage flat 0x802) 4 (needsIOPL .into) = none ∧
      gateOf (withImage flat 0x802).cpu flat.mem 4 = .procedure (handlerAt 0x4000) := by decide
theorem witness_software_frame :
    softVector .int3 flat = some 3 ∧ softIntFault flat 3 (needsIOPL .int3) = none ∧
      gateOf flat.cpu flat.mem 3 = .procedure (handlerAt 0x3000) ∧ flat.cpu.paging = false ∧ flat.mem.wf = true ∧
      ∃ t, exec .int3 flat = .next t :=
  ⟨by decide, by decide, by decide, by decide, by decide, _, rfl⟩
theorem witness_into_no_overflow : flat.cpu.flags.ovf = false := rfl
theorem witness_gate_check :
    softVector (.intN 1) (atLevel3 flat) = some 1 ∧
      gateEntry (atLevel3 flat).cpu 1 = some ⟨1, 0, .procedure (handlerAt 0x2000)⟩ ∧
      (atLevel3 flat).cpu.protectedMode = true ∧ (atLevel3 flat).cpu.flags.vm = false ∧
      (0 : BitVec 2) < (atLevel3 flat).cpu.cpl := by decide

/-- Level 0 with a handler of level 3 for INT 22h. -/
def outerHandler : State :=
  { flat with cpu := { flatCpu with gates := [⟨0x22, 3, .procedure { handlerAt 0x3000 with cpl := 3 }⟩] } }
theorem witness_handler_less_privileged :
    softVector (.intN 0x22) outerHandler = some 0x22 ∧ gateFault outerHandler.cpu 0x22 true = none ∧
      gateOf outerHandler.cpu outerHandler.mem 0x22 = .procedure { handlerAt 0x3000 with cpl := 3 } ∧
      outerHandler.cpu.protectedMode = true ∧ outerHandler.cpu.flags.vm = false ∧ outerHandler.cpu.cpl < 3 := by decide

/-- The flat machine with paging and the stack's page absent. -/
def absentStack : State := { flat with cpu := { flatCpu with paging := true, pages := [⟨0, 7, 7, false⟩] } }
theorem witness_handler_absent_page :
    softVector .int3 absentStack = some 3 ∧ gateFault absentStack.cpu 3 (needsIOPL .int3) = none ∧
      gateOf absentStack.cpu absentStack.mem 3 = .procedure (handlerAt 0x3000) ∧
      absentStack.cpu.flags.vm = false ∧ (handlerAt 0x3000).cpl ≤ absentStack.cpu.cpl ∧
      accessesFault absentStack.cpu (pushAccesses (entryStack absentStack.cpu (handlerAt 0x3000))
        (frameWidth (handlerAt 0x3000)) (entryFrame absentStack.cpu (handlerAt 0x3000) 0 0 none).length) =
        some ⟨14, some 2, some 0x7FFC⟩ := by decide
/-- The flat machine with paging and the page of the other task's TSS absent. -/
def absentTask : State := { flat with cpu := { flatCpu with paging := true, pages := [⟨0, 6, 6, false⟩] } }
theorem witness_task_absent_page :
    softVector (.intN 0x22) absentTask = some 0x22 ∧ gateFault absentTask.cpu 0x22 true = none ∧
      gateOf absentTask.cpu absentTask.mem 0x22 = .task otherTask ∧
      accessesFault absentTask.cpu (switchAccesses absentTask.cpu otherTask true) =
        some ⟨14, some 2, some 0x6000⟩ := by decide

/-- A 32-bit frame that returns to the same level. -/
def frameSame : State := withStack flat [0x1500, 0x08, 0x00010102]
/-- A 32-bit frame that returns to level 3. -/
def frameOuter : State := withStack flat [0x1500, 0x1B, 0x00010102, 0x9000, 0x23]
/-- A 16-bit frame that returns to the same level. -/
def frameNarrow : State := withBytes flat 0x8000 [0x00, 0x15, 0x08, 0x00, 0x02, 0x01]

theorem witness_return_same :
    returnWidth .iretd = some 4 ∧ returnKind frameSame 4 = .same flatCode ∧
      accessesFault frameSame.cpu (frameReads frameSame.cpu 4) = none := by decide
theorem witness_return_narrow :
    returnWidth .iret = some 2 ∧ returnKind frameNarrow 2 = .same flatCode ∧
      accessesFault frameNarrow.cpu (frameReads frameNarrow.cpu 2) = none := by decide
theorem witness_return_real :
    returnWidth .iretd = some 4 ∧ returnKind State.reset 4 = .real ∧
      accessesFault State.reset.cpu (frameReads State.reset.cpu 4) = none := by decide
theorem witness_return_outer :
    returnWidth .iretd = some 4 ∧ returnKind frameOuter 4 = .outer ⟨0x1B, 0, true⟩ ∧
      accessesFault frameOuter.cpu (frameReads frameOuter.cpu 4) = none ∧
      accessesFault frameOuter.cpu [stackRead frameOuter.cpu 12 4, stackRead frameOuter.cpu 16 4] = none := by decide
theorem witness_return_v86 :
    returnKind (withStack flat [0x100, 0x200, 0x00020002]) 4 = .toV86 ∧
      accessesFault flat.cpu (frameReads flat.cpu 4) = none ∧
      accessesFault flat.cpu ([3, 4, 5, 6, 7, 8].map fun i => stackRead flat.cpu (4 * i) 4) = none := by decide
theorem witness_popf :
    popWidth .popf = some 2 ∧ popWidth .popfd = some 4 ∧ flat.cpu.isV86 = false ∧
      accessesFault flat.cpu [stackRead flat.cpu 0 2] = none ∧
      accessesFault flat.cpu [stackRead flat.cpu 0 4] = none := by decide
theorem witness_popf_v86 :
    (inV86 (withImage flat 0x3002)).cpu.isV86 = true ∧ (inV86 (withImage flat 0x3002)).cpu.flags.iopl = 3 := by decide
theorem witness_v86_iopl :
    (inV86 flat).cpu.isV86 = true ∧ (inV86 flat).cpu.flags.iopl ≠ 3 := by decide

/-- The operand of a far transfer to the flat code segment. -/
def flatTarget (isCall : Bool) : FarOperand := ⟨isCall, .s32, [], 0x08, 0x2222⟩

theorem witness_far_jump :
    farOperand (.jmpPtr (.ptr32 0x2222 0x08)) flat = some (flatTarget false) ∧ (flatTarget false).isCall = false ∧
      accessesFault flat.cpu (flatTarget false).accesses = none ∧
      farKind flat.cpu (flatTarget false).sel false = .direct flatCode :=
  ⟨rfl, rfl, by decide, by decide⟩
theorem witness_far_jump_real :
    ∃ o, farOperand (.jmpMem .s16 none (.direct16 0x20)) State.reset = some o ∧ o.isCall = false ∧
      accessesFault State.reset.cpu o.accesses = none ∧ farKind State.reset.cpu o.sel false = .real :=
  ⟨_, rfl, rfl, by decide, by decide⟩
theorem witness_far_call :
    farOperand (.callPtr (.ptr32 0x2222 0x08)) flat = some (flatTarget true) ∧ (flatTarget true).isCall = true ∧
      accessesFault flat.cpu (flatTarget true).accesses = none ∧
      accessesFault flat.cpu ((flatTarget true).accesses ++ pushAccesses flat.cpu 4 2) = none ∧
      farKind flat.cpu (flatTarget true).sel true = .direct flatCode ∧ flat.cpu.paging = false ∧ flat.mem.wf = true :=
  ⟨rfl, rfl, by decide, by decide, by decide, by decide, by decide⟩
theorem witness_far_call_real :
    ∃ o, farOperand (.callMem .s16 none (.direct16 0x20)) State.reset = some o ∧ o.isCall = true ∧
      accessesFault State.reset.cpu o.accesses = none ∧
      accessesFault State.reset.cpu (o.accesses ++ pushAccesses State.reset.cpu (opBytes o.os) 2) = none ∧
      farKind State.reset.cpu o.sel true = .real :=
  ⟨_, rfl, rfl, by decide, by decide, by decide⟩
theorem witness_call_gate :
    ∃ o, farOperand (.callPtr (.ptr32 0 0x50)) (atLevel3 flat) = some o ∧ o.isCall = true ∧
      farKind (atLevel3 flat).cpu o.sel true = .gate (handlerAt 0xC000) ∧
      switchesStack (atLevel3 flat).cpu (handlerAt 0xC000) = true ∧
      accessesFault (atLevel3 flat).cpu o.accesses = none ∧
      accessesFault (atLevel3 flat).cpu (o.accesses ++
        pushAccesses (entryStack (atLevel3 flat).cpu (handlerAt 0xC000)) (frameWidth (handlerAt 0xC000)) 4) = none ∧
      (atLevel3 flat).cpu.paging = false ∧ (atLevel3 flat).mem.wf = true :=
  ⟨_, rfl, rfl, by decide, by decide, by decide, by decide, by decide, by decide⟩
theorem witness_call_gate_same_level :
    ∃ o, farOperand (.callPtr (.ptr32 0 0x50)) flat = some o ∧ o.isCall = true ∧
      farKind flat.cpu o.sel true = .gate (handlerAt 0xC000) ∧
      switchesStack flat.cpu (handlerAt 0xC000) = false ∧ accessesFault flat.cpu o.accesses = none ∧
      accessesFault flat.cpu (o.accesses ++
        pushAccesses (entryStack flat.cpu (handlerAt 0xC000)) (frameWidth (handlerAt 0xC000)) 2) = none :=
  ⟨_, rfl, rfl, by decide, by decide, by decide, by decide⟩
theorem witness_jump_gate :
    ∃ o, farOperand (.jmpPtr (.ptr32 0 0x50)) flat = some o ∧ o.isCall = false ∧
      accessesFault flat.cpu o.accesses = none ∧ farKind flat.cpu o.sel false = .gate (handlerAt 0xC000) :=
  ⟨_, rfl, rfl, by decide, by decide⟩

/-- A nested task whose link names the other task. -/
def nestedTask : State := withImage (withBytes flat 0x5000 [0x40]) 0x4002

theorem witness_task_jump :
    taskTarget (.jmpPtr (.ptr32 0 0x40)) flat = some otherTask ∧
      (∀ o, farOperand (.jmpPtr (.ptr32 0 0x40)) flat = some o → accessesFault flat.cpu o.accesses = none) ∧
      (∀ v, softVector (.jmpPtr (.ptr32 0 0x40)) flat = some v → softIntFault flat v false = none) ∧
      (∀ k, returnWidth (.jmpPtr (.ptr32 0 0x40)) = some k →
        accessesFault flat.cpu [⟨flat.cpu.task.base, 2, .read⟩] = none) ∧
      accessesFault flat.cpu (switchAccesses flat.cpu otherTask false) = none :=
  ⟨by decide, fun o ho => by cases ho; rfl, fun v hv => (by cases hv), fun k hk => (by cases hk), by decide⟩
theorem witness_task_call :
    taskTarget (.callPtr (.ptr32 0 0x48)) flat = some otherTask ∧
      (∀ o, farOperand (.callPtr (.ptr32 0 0x48)) flat = some o → accessesFault flat.cpu o.accesses = none) ∧
      accessesFault flat.cpu (switchAccesses flat.cpu otherTask true) = none :=
  ⟨by decide, fun o ho => (by cases ho; rfl), by decide⟩
theorem witness_task_int :
    taskTarget (.intN 0x22) flat = some otherTask ∧
      (∀ v, softVector (.intN 0x22) flat = some v → softIntFault flat v true = none) ∧
      accessesFault flat.cpu (switchAccesses flat.cpu otherTask true) = none :=
  ⟨by decide, fun v hv => (by cases hv; decide), by decide⟩
theorem witness_task_return : taskTarget .iretd nestedTask = some otherTask ∧
    taskTarget .iret nestedTask = some otherTask ∧
    accessesFault nestedTask.cpu [⟨nestedTask.cpu.task.base, 2, .read⟩] = none ∧
    accessesFault nestedTask.cpu (switchAccesses nestedTask.cpu otherTask false) = none := by decide
theorem witness_rf_completion :
    exec .into (begin 1 intoState) = .next (retire [] (begin 1 intoState)) ∧
      (retire [] (begin 1 intoState)).boundary = some ⟨[], false⟩ := ⟨intoState_exec, rfl⟩

/-- The instruction breakpoint of program P1 about to be met. -/
def armed : State := withDebug (withCode flat [0x40]) { debug7 1 with dr0 := 0x1000 }

theorem witness_breakpoint :
    armed.pendingBT = false ∧ armed.dbg.undefinedCode = none ∧ armed.dbg.enabled 0 = true ∧
      armed.dbg.instrMatch 0 (linIP armed.cpu) = true ∧ armed.cpu.flags.rf = false ∧
      gateOf armed.cpu armed.mem 1 = .procedure (handlerAt 0x2000) ∧ armed.cpu.paging = false ∧
      armed.mem.wf = true := by decide
theorem witness_resume_flag :
    (withImage armed 0x10002).cpu.flags.rf = true ∧ (withImage armed 0x10002).pendingBT = false ∧
      (withImage armed 0x10002).dbg.undefinedCode = none ∧ (withImage armed 0x10002).iceActive = false := by decide

/-- A MOV from a debug register while ICE-386 uses them. -/
def iceState : State := { withCode flat [0x0F, 0x21, 0xF8] with iceActive := true }

theorem witness_general_detect :
    iceState.pendingBT = false ∧ iceState.dbg.undefinedCode = none ∧
      fetch iceState = .instr (.movFromDR .eax .dr7) 3 ∧ iceState.iceActive = true ∧ iceState.cpu.privilege = 0 ∧
      gateOf iceState.cpu iceState.mem 1 = .procedure (handlerAt 0x2000) := by decide
theorem witness_general_detect_level3 :
    (atLevel3 iceState).pendingBT = false ∧ (atLevel3 iceState).dbg.undefinedCode = none ∧
      fetch (atLevel3 iceState) = .instr (.movFromDR .eax .dr7) 3 ∧ (atLevel3 iceState).iceActive = true ∧
      (atLevel3 iceState).cpu.privilege ≠ 0 ∧ breakpointFault (atLevel3 iceState) = false ∧
      gateOf (atLevel3 iceState).cpu (atLevel3 iceState).mem 1 = .procedure (handlerAt 0x2000) ∧
      gateOf (atLevel3 iceState).cpu (atLevel3 iceState).mem 13 = .procedure (handlerAt 0xD000) := by decide
theorem witness_undefined_codes :
    flat.pendingBT = false ∧ (debug7 0x00020000).rw 0 = 2 ∧ (debug7 0x80000000).len 3 = 2 ∧
      (debug7 0x00040000).rw 0 = 0 ∧ (debug7 0x00040000).len 0 ≠ 0 := by decide
theorem witness_delivery :
    gateOf flat.cpu flat.mem 13 = .procedure (handlerAt 0xD000) ∧ flat.cpu.paging = false ∧ flat.mem.wf = true := by
  decide
/-- The flat machine with a task for vector 13. -/
def taskHandler : State :=
  { flat with cpu := { flatCpu with gates := [⟨13, 0, .task otherTask⟩] } }
theorem witness_delivery_to_task :
    gateOf taskHandler.cpu taskHandler.mem 13 = .task otherTask ∧ taskHandler.cpu.paging = false ∧
      taskHandler.mem.wf = true ∧
      ∀ a ∈ savedImageBytes taskHandler.cpu, a ∉ laterTaskBytes taskHandler.cpu
        (loadTask taskHandler.cpu (taskSwitchMemory taskHandler.cpu taskHandler.mem otherTask true 0x10002 0x1000)
          otherTask true) otherTask (some 0) := by decide
theorem witness_resume_after_fault :
    flat.cpu.protectedMode = true ∧ flat.cpu.flags.vm = false ∧ flat.cpu.cpl = 0 ∧ flat.cpu.paging = false ∧
      flat.mem.wf = true ∧ gateOf flat.cpu flat.mem 1 = .procedure (handlerAt 0x2000) ∧
      (handlerAt 0x2000).wide = true ∧ selIndex flat.cpu.cs.sel ≠ 0 ∧ selLevel flat.cpu.cs.sel = 0 ∧
      findDesc flat.cpu flat.cpu.cs.sel = some ⟨0x08, 0, .code flat.cpu.cs.base flat.cpu.cs.big⟩ := by decide

/-- INTO with OF = 0 about to be single-stepped. -/
def stepping : State := withImage intoState 0x102

theorem witness_single_step :
    ReadyToRun stepping ∧ InstructionRan stepping (retire [] (begin 1 stepping)) ∧ stepping.cpu.flags.tf = true ∧
      (retire [] (begin 1 stepping)).boundary = some ⟨[], false⟩ ∧
      (retire [] (begin 1 stepping)).dbg.undefinedCode = none ∧
      gateOf (retire [] (begin 1 stepping)).cpu (retire [] (begin 1 stepping)).mem 1 =
        .procedure (handlerAt 0x2000) :=
  ⟨⟨by decide, by decide, by decide⟩, .table .into 1 (by decide) rfl, by decide, rfl, by decide, by decide⟩
theorem witness_single_step_ordinary :
    ReadyToRun (withImage (withCode flat [0x40]) 0x102) ∧
      InstructionRan (withImage (withCode flat [0x40]) 0x102)
        (runOrdinary (.inc .s32 .eax) (begin 1 (withImage (withCode flat [0x40]) 0x102))) ∧
      (runOrdinary (.inc .s32 .eax) (begin 1 (withImage (withCode flat [0x40]) 0x102))).boundary =
        some ⟨[], false⟩ :=
  ⟨⟨by decide, by decide, by decide⟩, .ordinary _ 1 (by decide) rfl, by decide⟩

/-- An instruction that began with TF = 1 has completed. -/
def stepped : State := completed (withImage flat 0x102) true [] false

theorem witness_single_step_handler :
    stepped.boundary = some ⟨[], false⟩ ∧ stepped.tf0 = true ∧ trapPending stepped ⟨[], false⟩ = true ∧
      stepped.dbg.undefinedCode = none ∧ stepped.extInt = none ∧ stepped.inputs = [] ∧
      gateOf stepped.cpu stepped.mem 1 = .procedure (handlerAt 0x2000) ∧ stepped.cpu.paging = false ∧
      stepped.mem.wf = true := by decide

/-- An instruction that wrote into the field of an enabled, exact write breakpoint has completed. -/
def wroteField : State :=
  completed (withDebug flat { debug7 0x000D0202 with dr0 := 0xC0000 }) false [⟨0xC0003, 1, .write⟩] false

theorem witness_exact_data :
    wroteField.boundary = some ⟨[⟨0xC0003, 1, .write⟩], false⟩ ∧ wroteField.dbg.exact = true ∧
      wroteField.dbg.undefinedCode = none ∧ wroteField.dbg.enabled 0 = true ∧
      (wroteField.dbg.dataMatches [⟨0xC0003, 1, .write⟩]).has 0 = true ∧
      gateOf wroteField.cpu wroteField.mem 1 = .procedure (handlerAt 0x2000) ∧ wroteField.extInt = none ∧
      wroteField.inputs = [] := by decide
/-- A write that matches condition 0, which is disabled; condition 1 is enabled and GE is set. -/
def matchedDisabled : State := completed (withDebug flat (debug7 0x00010204)) false [⟨0, 1, .write⟩] false
theorem witness_disabled :
    matchedDisabled.boundary = some ⟨[⟨0, 1, .write⟩], false⟩ ∧ matchedDisabled.dbg.enabled 1 = true ∧
      (reportedNow matchedDisabled [⟨0, 1, .write⟩]).has 0 = true ∧
      (∀ n, (reportedNow matchedDisabled [⟨0, 1, .write⟩]).has n = true → matchedDisabled.dbg.enabled n = false) ∧
      matchedDisabled.tf0 = false ∧ matchedDisabled.pendingBT = false ∧ matchedDisabled.extInt = none ∧
      matchedDisabled.inputs = [] := by decide

/-- A task switch to a TSS with T = 1 has completed. -/
def switched : State := { completed flat false [] false with pendingBT := true }

theorem witness_task_switch_trap :
    switched.boundary = some ⟨[], false⟩ ∧ switched.pendingBT = true ∧ switched.dbg.undefinedCode = none ∧
      gateOf switched.cpu switched.mem 1 = .procedure (handlerAt 0x2000) ∧ switched.extInt = none ∧
      switched.inputs = [] := by decide

/-- The debug handler is a task whose TSS has T = 1, and it is entered again. -/
def hanging : State :=
  let s : State := { flat with cpu := { flatCpu with gates := [⟨1, 0, .task otherTask⟩], task := otherTask } }
  { withBytes s 0x6064 [1] with pendingBT := true }

theorem witness_hang :
    gateOf hanging.cpu hanging.mem 1 = .task otherTask ∧ hanging.cpu.protectedMode = true ∧ hanging.cpu.task = otherTask ∧ otherTask.is386 = true ∧
      hanging.cpu.paging = false ∧ hanging.mem.wf = true ∧
      tssTrapBit hanging.cpu hanging.mem otherTask = true ∧ hanging.dbg.undefinedCode = none ∧
      hanging.pendingBT = true := by decide

/-- A stepped instruction with interrupt 20h pending and enabled. -/
def steppedWithInterrupt : State := { completed (withImage flat 0x302) true [] false with extInt := some 0x20 }

theorem witness_single_step_and_interrupt :
    steppedWithInterrupt.boundary = some ⟨[], false⟩ ∧ trapPending steppedWithInterrupt ⟨[], false⟩ = true ∧
      steppedWithInterrupt.dbg.undefinedCode = none ∧ steppedWithInterrupt.inputs = [] ∧
      steppedWithInterrupt.extInt = some 0x20 ∧ steppedWithInterrupt.cpu.flags.intf = true ∧
      gateOf steppedWithInterrupt.cpu steppedWithInterrupt.mem 1 = .procedure (handlerAt 0x2000) := by decide
/-- The same with a trap gate for vector 1, which leaves IF alone. -/
def steppedTrapGate : State :=
  { steppedWithInterrupt with cpu :=
    { steppedWithInterrupt.cpu with gates := [⟨1, 0, .procedure { handlerAt 0x2000 with clearsIF := false }⟩] } }
theorem witness_single_step_trap_gate :
    steppedTrapGate.cpu.flags.intf = true ∧
      gateOf steppedTrapGate.cpu steppedTrapGate.mem 1 =
        .procedure { handlerAt 0x2000 with clearsIF := false } := by decide

/-- An untrapped instruction with interrupt 20h pending, and the same with IF = 0. -/
def quietWithInterrupt (image : W32) : State :=
  { completed (withImage flat image) false [] false with extInt := some 0x20 }
theorem witness_interrupt_without_trap :
    (quietWithInterrupt 0x202).boundary = some ⟨[], false⟩ ∧ trapPending (quietWithInterrupt 0x202) ⟨[], false⟩ = false ∧ (quietWithInterrupt 0x202).inputs = [] ∧
      (quietWithInterrupt 0x202).extInt = some 0x20 ∧ (quietWithInterrupt 0x202).cpu.flags.intf = true ∧
      gateOf (quietWithInterrupt 0x202).cpu (quietWithInterrupt 0x202).mem 0x20 = .procedure (handlerAt 0xE000) := by
  decide
theorem witness_interrupt_masked :
    (quietWithInterrupt 2).boundary = some ⟨[], false⟩ ∧ trapPending (quietWithInterrupt 2) ⟨[], false⟩ = false ∧
      (quietWithInterrupt 2).inputs = [] ∧ (quietWithInterrupt 2).extInt = some 0x20 ∧
      (quietWithInterrupt 2).cpu.flags.intf = false := by decide
/-- A task switch with T = 1 and an enabled interrupt together. -/
def switchedWithInterrupt : State := { quietWithInterrupt 0x202 with pendingBT := true }
theorem witness_task_switch_and_interrupt :
    switchedWithInterrupt.boundary = some ⟨[], false⟩ ∧ trapPending switchedWithInterrupt ⟨[], false⟩ = true ∧
      switchedWithInterrupt.dbg.undefinedCode = none ∧ switchedWithInterrupt.inputs = [] ∧
      switchedWithInterrupt.extInt = some 0x20 ∧ switchedWithInterrupt.cpu.flags.intf = true ∧
      gateOf switchedWithInterrupt.cpu switchedWithInterrupt.mem 1 = .procedure (handlerAt 0x2000) := by decide

/-- An INT that began with TF = 1 has entered its handler; LE and GE are clear. -/
def steppedInt : State := completed flat true [] true

theorem witness_single_step_int :
    steppedInt.boundary = some ⟨[], true⟩ ∧ steppedInt.tf0 = true ∧ steppedInt.pendingBT = false ∧
      steppedInt.dbg.exact = false ∧ steppedInt.deferred = CondSet.empty ∧ steppedInt.dbg.undefinedCode = none ∧
      steppedInt.extInt = none ∧ steppedInt.inputs = [] ∧
      gateOf steppedInt.cpu steppedInt.mem 1 = .procedure (handlerAt 0x2000) := by decide
theorem witness_inexact : (debug7 0xD0000080).exact = false := by decide
theorem witness_nothing_deferred :
    (completed (withDebug flat (debug7 0x100)) false [] false).boundary = some ⟨[], false⟩ ∧
      (completed (withDebug flat (debug7 0x100)) false [] false).dbg.exact = true ∧
      ∃ u, finish (.next (completed (withDebug flat (debug7 0x100)) false [] false)) = .next u :=
  ⟨by decide, by decide, exists_next (by decide)⟩
theorem witness_not_mov_dr6 :
    (∃ t, step intoState = .next t) ∧ ∀ r len, fetch intoState ≠ .instr (.movToDR .dr6 r) len :=
  ⟨exists_next (by decide), fun r len h => by rw [intoState_fetch] at h; cases h⟩
theorem witness_not_mov_to :
    (∃ t, step intoState = .next t) ∧ ∀ n r len, fetch intoState ≠ .instr (.movToDR n r) len :=
  ⟨exists_next (by decide), fun n r len h => by rw [intoState_fetch] at h; cases h⟩
theorem witness_other_levels :
    (∃ t, step (atLevel3 (withCode flat [0x0F, 0x23, 0xF8])) = .next t) ∧
      (atLevel3 (withCode flat [0x0F, 0x23, 0xF8])).cpu.privilege ≠ 0 :=
  ⟨exists_next (by decide), by decide⟩
theorem witness_no_ice :
    intoState.noICE = true ∧ (∃ t, step intoState = .next t) ∧
      ∀ r len, fetch intoState ≠ .instr (.movToDR .dr6 r) len :=
  ⟨by decide, exists_next (by decide), witness_not_mov_dr6.2⟩
theorem witness_field_lengths :
    (debug7 0).len 0 = 0 ∧ (debug7 0x00400000).len 1 = 1 ∧ (debug7 0xC0000000).len 3 = 3 := by decide
theorem witness_access_at_top : 1 ≤ (⟨0xFFFFFFFF, 1, .read⟩ : Access).size ∧
    (⟨0xFFFFFFFF, 1, .read⟩ : Access).addr.toNat + (⟨0xFFFFFFFF, 1, .read⟩ : Access).size ≤ 2 ^ 32 := by decide
theorem witness_defined_rw : (debug7 0x00310000).rw 0 ≠ 2 ∧ (debug7 0x00310000).len 0 = 0 ∧
    (debug7 0x00710000).rw 1 ≠ 2 ∧ (debug7 0x00710000).len 1 = 1 ∧
    (debug7 0xF0000000).rw 3 ≠ 2 ∧ (debug7 0xF0000000).len 3 = 3 := by decide
theorem witness_later_byte :
    ({ debug7 1 with dr0 := 0x1001 } : Debug).addr 0 = linIP flat.cpu + BitVec.ofNat 32 1 := by decide
theorem witness_undefined_length : (debug7 0x00040000).rw 0 = 0 ∧ (debug7 0x00040000).len 0 ≠ 0 := by decide
theorem witness_linear_no_paging : flat.cpu.paging = false := rfl

/-- INT 21h whose second byte a store has written. -/
def writtenState : State := { withCode flat [0xCD] with mem := (withCode flat [0xCD]).mem.write 0x1001 0x21 }

theorem witness_written_code :
    ReadyToRun writtenState ∧ writtenState.coherentFetch = false ∧
      (0xCD = readByte writtenState.cpu writtenState.mem (linIP writtenState.cpu + BitVec.ofNat 32 0) ∧
        pagePresent writtenState.cpu (linIP writtenState.cpu + BitVec.ofNat 32 0) = true ∧
        writtenState.mem.isWritten (physical writtenState.cpu (linIP writtenState.cpu + BitVec.ofNat 32 0)) = false) ∧
      decode writtenState.cpu.codeBig [0xCD] = .truncated ∧
      pagePresent writtenState.cpu (linIP writtenState.cpu + BitVec.ofNat 32 1) = true ∧
      writtenState.mem.isWritten (physical writtenState.cpu (linIP writtenState.cpu + BitVec.ofNat 32 1)) = true :=
  ⟨⟨by decide, by decide, by decide⟩, by decide, by decide, by decide, by decide, by decide⟩

end Sys2Proof.Tests
end

section
/-! PROOFS. The family of 10_state.md: where the fields of DR7 lie (R23), what a task switch does to the debug registers
(R19), and what the step adds after an instruction (R139). -/

namespace Sys2Proof.Machine

/-! ## Bits and fields of DR7 -/

/-- A word with one flag holds it at its own position and nothing anywhere else. -/
theorem getLsbD_bitAt (v : Bool) (p : Nat) {b : Nat} (hb : b < 32) : (bitAt v p).getLsbD b = (v && decide (b = p)) := by
  cases v with
  | false => simp [bitAt]
  | true =>
    simp only [bitAt, if_true, BitVec.getLsbD_shiftLeft, BitVec.getLsbD_one, Bool.true_and]
    grind

/-- The mask of a task switch holds L0 to L3 and LE (R19), at the places of R23. -/
theorem getLsbD_localBitsDR7 {b : Nat} (hb : b < 32) :
    localBitsDR7.getLsbD b = decide (b = 0 ∨ b = 2 ∨ b = 4 ∨ b = 6 ∨ b = 8) := by
  simp [localBitsDR7, Config.layout, getLsbD_bitAt _ _ hb, Bool.or_assoc]

theorem Debug.localEnable_eq (d : Debug) (n : Fin 4) : d.localEnable n = d.dr7.getLsbD (2 * n.val) := by
  simp [Debug.localEnable, Config.layout]

theorem Debug.globalEnable_eq (d : Debug) (n : Fin 4) : d.globalEnable n = d.dr7.getLsbD (2 * n.val + 1) := by
  simp [Debug.globalEnable, Config.layout, Nat.add_comm]

theorem Debug.rw_eq (d : Debug) (n : Fin 4) : d.rw n = d.dr7.extractLsb' (16 + 4 * n.val) 2 := rfl

theorem Debug.len_eq (d : Debug) (n : Fin 4) : d.len n = d.dr7.extractLsb' (18 + 4 * n.val) 2 := rfl

theorem Debug.exact_eq (d : Debug) : d.exact = (d.dr7.getLsbD 8 || d.dr7.getLsbD 9) := rfl

/-- Bits 10 to 15 of DR7 are the ones without a name. -/
theorem definedDR7_eq : definedDR7 = 0xFFFF03FF := by decide

/-! ## DR7 after a task switch -/

/-- Bit by bit, a task switch clears the bits of `localBitsDR7` in DR7. -/
theorem afterTaskSwitch_dr7_getLsbD (d : Debug) {b : Nat} (hb : b < 32) :
    d.afterTaskSwitch.dr7.getLsbD b = (d.dr7.getLsbD b && !decide (b = 0 ∨ b = 2 ∨ b = 4 ∨ b = 6 ∨ b = 8)) := by
  rw [afterTaskSwitch_dr7, BitVec.getLsbD_and, BitVec.getLsbD_not, getLsbD_localBitsDR7 hb, decide_eq_true hb,
    Bool.true_and]

/-- L0 to L3 and LE are cleared (R19). -/
theorem afterTaskSwitch_dr7_cleared (d : Debug) {b : Nat} (h : b = 0 ∨ b = 2 ∨ b = 4 ∨ b = 6 ∨ b = 8) :
    d.afterTaskSwitch.dr7.getLsbD b = false := by
  rw [afterTaskSwitch_dr7_getLsbD d (by omega), decide_eq_true h, Bool.not_true, Bool.and_false]

/-- Every other bit of DR7 stays (R19). -/
theorem afterTaskSwitch_dr7_kept (d : Debug) {b : Nat} (hb : b < 32)
    (h : ¬(b = 0 ∨ b = 2 ∨ b = 4 ∨ b = 6 ∨ b = 8)) : d.afterTaskSwitch.dr7.getLsbD b = d.dr7.getLsbD b := by
  rw [afterTaskSwitch_dr7_getLsbD d hb, decide_eq_false h, Bool.not_false, Bool.and_true]

/-! ## After an instruction -/

/-- Without a task switch to report, the look at the instruction notes what R121 puts off, and nothing else. -/
theorem afterLook_of_pendingBT_false {s : State} (h : s.pendingBT = false) (b : Boundary) :
    afterLook s b = { s with deferred := reportedNext s b.accesses, boundary := none } := by
  simp [afterLook, h]

/-- Without a trap condition the report is the look alone. -/
theorem reportTraps_of_trapPending_false {s : State} {b : Boundary} (h : trapPending s b = false) :
    reportTraps s b = .next (afterLook s b) := by
  simp [reportTraps, h]

/-- With no input and no interrupt, an instruction that completed without a trap condition is only looked at. -/
theorem finish_quiet {s : State} {b : Boundary} (hb : s.boundary = some b) (ht : trapPending s b = false)
    (he : s.extInt = none) (hi : s.inputs = []) : finish (.next s) = .next (afterLook s b) := by
  have hx : takeInterrupt (afterLook s b) = afterLook s b := takeInterrupt_quiet (by simpa using he)
  simp [finish, hb, sampleInputs_quiet hi, reportTraps_of_trapPending_false ht, afterReport, hx]

/-! ## The statements -/

/-- Settles O27: the debug registers of the switched task are those of `afterTaskSwitch`, read bit by bit. -/
theorem taskSwitchClearsTheLocalEnables : Obligations.TaskSwitchClearsTheLocalEnables := by
  intro e nested image ret s
  rw [switchTask_dbg]
  exact ⟨fun n => afterTaskSwitch_dr7_cleared _ (by omega), afterTaskSwitch_dr7_cleared _ (by omega),
    fun b hb h0 h2 h4 h6 h8 => afterTaskSwitch_dr7_kept _ hb (by omega), rfl, rfl, rfl, rfl, rfl⟩

/-- Settles O8: the faulted instruction by `finish_faulted`, the quiet one by `finish_quiet`. -/
theorem nothingFollowsAQuietInstruction : Obligations.NothingFollowsAQuietInstruction := by
  refine ⟨fun t h => finish_faulted h, fun t b hb ht hbt he hi => ?_⟩
  rw [finish_quiet hb ht he hi, afterLook_of_pendingBT_false hbt]

/-- Settles O51: each field by its equation. -/
theorem fieldsOfDR7 : Obligations.FieldsOfDR7 := fun d n =>
  ⟨d.localEnable_eq n, d.globalEnable_eq n, d.rw_eq n, d.len_eq n, rfl, rfl, definedDR7_eq, rfl, d.exact_eq⟩

end Sys2Proof.Machine
end

section
/-! PROOFS. The family of 20_memory.md: which addresses an instruction breakpoint matches (R45), and which byte of memory
the fetched instruction begins with. -/

namespace Sys2Proof.Machine

/-! ## The instruction match -/

theorem Debug.instrMatch_iff (d : Debug) (n : Fin 4) (ip : W32) :
    d.instrMatch n ip = true ↔ d.rw n = 0 ∧ d.len n = 0 ∧ d.addr n = ip := by
  simp [Debug.instrMatch, and_assoc]

@[simp] theorem Debug.instrMatches_has (d : Debug) (ip : W32) (n : Fin 4) :
    (d.instrMatches ip).has n = d.instrMatch n ip := CondSet.has_collect _ n

/-- The fault is a match of some enabled condition at LinIP, with RF = 0 (R113, R115). -/
theorem breakpointFault_iff (s : State) :
    breakpointFault s = true ↔
      s.cpu.flags.rf = false ∧ ∃ n, s.dbg.enabled n = true ∧ s.dbg.instrMatch n (linIP s.cpu) = true := by
  simp [breakpointFault, Debug.anyEnabled_iff, and_comm]

/-- A nonzero distance below 2^32 leads to another address, wrapping or not. -/
theorem add_ofNat_ne_self (a : W32) {k : Nat} (h0 : 0 < k) (hk : k < 2 ^ 32) : a + BitVec.ofNat 32 k ≠ a := by
  intro h
  have hz : BitVec.ofNat 32 k = 0#32 := add_eq_left.mp h
  have hn : k % 2 ^ 32 = 0 := by simpa using congrArg BitVec.toNat hz
  omega

/-- A breakpoint somewhere else does not match. -/
theorem Debug.instrMatch_eq_false {d : Debug} {n : Fin 4} {ip : W32} (h : d.addr n ≠ ip) :
    d.instrMatch n ip = false := by
  rw [← Bool.not_eq_true, Debug.instrMatch_iff]
  exact fun ⟨_, _, ha⟩ => h ha

/-- An execution breakpoint of another length than one byte is an undefined code (R81). -/
theorem Debug.undefinedCode_of_execute_len {d : Debug} {n : Fin 4} (hrw : d.rw n = 0) (hlen : d.len n ≠ 0) :
    d.undefinedCode ≠ none := by
  have hany : (conditions.any fun m => d.rw m == 0 && d.len m != 0) = true :=
    List.any_eq_true.mpr ⟨n, mem_conditions n, by simpa [hrw] using hlen⟩
  unfold Debug.undefinedCode
  rw [if_pos hany]
  split
  · simp
  · split <;> simp

/-! ## The fetched instruction -/

/-- No byte, no instruction. -/
@[simp] theorem decode_nil (big : Bool) : decode big [] = .truncated := rfl

/-- Bytes that could not be fetched are no instruction of the table. -/
theorem fetchStopped_ne_instr (c : Cpu) (stop : FetchStop) (i : Instr) (len : Nat) :
    fetchStopped c stop ≠ .instr i len := by
  cases stop <;> simp [fetchStopped]

/-- An instruction of the table is fetched only where the fetched bytes decode to it. -/
theorem decode_of_fetch_instr {s : State} {i : Instr} {len : Nat} (h : fetch s = .instr i len) :
    decode s.cpu.codeBig (fetchBytes s maxLength (linIP s.cpu)).1 = .instr i len := by
  unfold fetch at h
  dsimp only at h
  split at h
  case h_1 hd => cases h; exact hd
  case h_2 => cases h
  case h_3 =>
    split at h
    · cases h
    · exact absurd h (fetchStopped_ne_instr _ _ _ _)
  case h_4 => cases h
  case h_5 => exact absurd h (fetchStopped_ne_instr _ _ _ _)

/-- If a fetch finds any byte, the first one is the byte at the address it starts from. -/
theorem fetchBytes_head? {s : State} {k : Nat} {a : W32} (h : (fetchBytes s k a).1 ≠ []) :
    (fetchBytes s k a).1.head? = some (readByte s.cpu s.mem a) := by
  cases k with
  | zero => exact absurd rfl h
  | succ k =>
    simp only [fetchBytes] at h ⊢
    split at h
    · exact absurd rfl h
    · split at h
      · exact absurd rfl h
      · simp [*]

/-- The bytes of a fetched instruction begin with the byte at LinIP (R45). -/
theorem fetchBytes_head?_of_fetch_instr {s : State} {i : Instr} {len : Nat} (h : fetch s = .instr i len) :
    (fetchBytes s maxLength (linIP s.cpu)).1.head? = some (readByte s.cpu s.mem (linIP s.cpu)) := by
  refine fetchBytes_head? fun hnil => ?_
  have hd := decode_of_fetch_instr h
  rw [hnil, decode_nil] at hd
  cases hd

/-! ## The statement -/

/-- Settles O56: the match and the fault by their equivalences, a later byte by its distance from the first, the fetch by
the first byte it reads, and the undefined code by the scan of the conditions. -/
theorem instructionMatchIsAtTheFirstByte : Obligations.InstructionMatchIsAtTheFirstByte := by
  refine ⟨Debug.instrMatch_iff, fun s => ?_, fun s n k h0 hk ha => ?_, fun s i len h => ?_,
    fun d n => Debug.undefinedCode_of_execute_len⟩
  · simp only [breakpointFault_iff, Debug.instrMatch_iff]
  · have hk' : k < 2 ^ 32 := lt_trans hk (by decide)
    exact Debug.instrMatch_eq_false (ha ▸ add_ofNat_ne_self _ h0 hk')
  · exact ⟨_, rfl, decode_of_fetch_instr h, fetchBytes_head?_of_fetch_instr h⟩

end Sys2Proof.Machine
end

section
/-! PROOFS. What every step keeps: one induction over the parts of a step (`step_keeps`), and the invariants of memory, of
the debug registers and of the premise NoICE as its uses (R11, R19, R21, R37, R123). -/

namespace Sys2Proof.Machine

/-! ## A property that deliveries, reports and inputs keep -/

/-- A property of the debug registers, the form of memory and ICE-386's use that the parts of a step other than an
instruction of the table keep. -/
structure KeptAround (P : State → Prop) : Prop where
  /-- It looks at the debug registers, the canonical form of memory and ICE-386 alone. -/
  frame : ∀ {s t : State}, P s → t.dbg = s.dbg → (s.mem.wf = true → t.mem.wf = true) →
    t.iceActive = s.iceActive → t.inputs = s.inputs → P t
  taskSwitch : ∀ {s : State}, P s → P { s with dbg := s.dbg.afterTaskSwitch }
  /-- BD is reported for a general detect alone. -/
  report : ∀ {s : State} (k : Cause), (k.bd = true → generalDetect s = true) → P s →
    P { s with dbg := s.dbg.report k }
  inputs : ∀ {s : State}, P s → P (sampleInputs s)

namespace KeptAround

variable {P : State → Prop} (K : KeptAround P) {s t : State}

include K

theorem deliver (v : Byte) (k : Delivery) (ret : W32) (code : Option W32) (h : P s) :
    P (deliver v k ret code s) := by
  have e := deliver_env v k ret code s
  rcases deliver_dbg v k ret code s with hd | hd
  · exact K.frame h hd (fun hm => deliver_wf hm v k ret code) e.iceActive e.inputs
  · exact K.frame (K.taskSwitch h) hd (fun hm => deliver_wf (s := s) hm v k ret code) e.iceActive e.inputs

theorem raise (f : BaseFault) (h : P s) : P (raise f s) :=
  K.deliver _ _ _ _ (K.frame h rfl id rfl rfl)

theorem takeTrap {k : Cause} (hk : k.bd = true → generalDetect s = true) (d : Delivery) (h : P s) :
    P (takeTrap k d s) := K.deliver _ _ _ _ (K.report k hk h)

theorem takeDebugFault (h : P s) : P (takeDebugFault s) :=
  K.deliver _ _ _ _ (K.frame (K.report (faultCause s) id h) rfl id rfl rfl)

/-- A trap cause has no BD of its own: BD comes from the merged faults of the next instruction. -/
theorem deliverTrap {k : Cause} (hk : k.bd = false) (h : P s) (ht : deliverTrap k s = .next t) : P t := by
  rcases deliverTrap_cases ht with he | ⟨he, -⟩ | ⟨r, -, he⟩ <;> cases he
  · exact K.takeTrap (by simp [hk]) _ h
  · exact K.takeTrap (by simp [Cause.merge, hk, faultCause]) _ h

theorem takeInterrupt (h : P s) : P (takeInterrupt s) := by
  rcases takeInterrupt_cases s with ⟨he, -⟩ | ⟨v, -, -, he⟩ <;> rw [he]
  · exact h
  · exact K.deliver _ _ _ _ (K.frame h rfl id rfl rfl)

theorem afterReport (h : P s) : P (if s.pendingBT then s else Machine.takeInterrupt s) := by
  split
  · exact h
  · exact K.takeInterrupt h

theorem reportTraps {b : Boundary} (h : P s) (ht : reportTraps s b = .next t) : P t := by
  have hl : P (afterLook s b) := K.frame h rfl id rfl rfl
  unfold Machine.reportTraps at ht
  split at ht
  · exact K.deliverTrap rfl hl ht
  · cases ht; exact hl

theorem finish (h : P s) (ht : finish (.next s) = .next t) : P t := by
  rcases finish_cases ht with ⟨-, rfl⟩ | ⟨b, u, -, hu, rfl⟩
  · exact K.inputs h
  · exact K.afterReport (K.reportTraps (K.inputs h) hu)

theorem begin (n : Nat) (h : P s) : P (begin n s) := K.frame h rfl id rfl rfl

theorem ranOther (h : P s) (ht : RanOther s t) : P t := by
  rcases ht with ⟨f, -, rfl⟩ | ⟨l, c, m, rfl, hm, -, -, -⟩
  · exact K.raise f h
  · exact K.frame h rfl hm rfl rfl

/-- The step keeps the property if the instruction it runs does. -/
theorem step_keeps (h : P s) (ht : step s = .next t)
    (hi : ∀ i len u, fetch s = .instr i len → exec i (Machine.begin len s) = .next u → P u) : P t := by
  obtain ⟨u, hu, rfl⟩ := step_stepped ht
  refine K.frame (s := u) ?_ rfl id rfl rfl
  cases hu with
  | taskSwitch _ report after =>
    subst after
    have h' : P { s with pendingBT := false, boundary := none } := K.frame h rfl id rfl rfl
    exact K.afterReport (K.deliverTrap rfl (K.inputs h') report)
  | debugFault => exact K.inputs (K.takeDebugFault h)
  | instr _ fetched executed after => exact K.finish (hi _ _ _ fetched executed) after
  | ordinary _ _ after => exact K.finish (K.ranOther (K.begin _ h) (runOrdinary_ran _ _)) after
  | other _ _ after => exact K.finish (K.ranOther (K.begin _ h) (runOther_ran _)) after
  | fetchFault => exact K.inputs (K.raise _ (K.begin _ h))

end KeptAround

/-! ## Memory and the boundary -/

theorem keptAround_wf : KeptAround fun s => s.mem.wf = true where
  frame h _ hm _ _ := hm h
  taskSwitch h := h
  report _ _ h := h
  inputs h := by simpa using h

/-- Every step keeps memory canonical. -/
theorem step_wf {s t : State} (h : s.mem.wf = true) (ht : step s = .next t) : t.mem.wf = true :=
  keptAround_wf.step_keeps h ht fun _ _ _ _ he => (exec_executed he).wf h

theorem takeTrap_boundary (k : Cause) (d : Delivery) (s : State) : (takeTrap k d s).boundary = s.boundary :=
  deliver_boundary _ _ _ _ _

theorem deliverTrap_boundary {k : Cause} {s t : State} (h : deliverTrap k s = .next t) : t.boundary = s.boundary := by
  rcases deliverTrap_cases h with he | ⟨he, -⟩ | ⟨r, -, he⟩ <;> cases he <;> exact takeTrap_boundary _ _ _

theorem reportTraps_boundary {s t : State} {b : Boundary} (h : reportTraps s b = .next t) : t.boundary = none := by
  rcases reportTraps_cases h with ⟨-, rfl⟩ | ⟨-, rfl⟩ | ⟨-, -, rfl⟩ <;> simp [takeTrap_boundary]

theorem takeInterrupt_boundary (s : State) : (takeInterrupt s).boundary = s.boundary := by
  rcases takeInterrupt_cases s with ⟨he, -⟩ | ⟨v, -, -, he⟩ <;> rw [he]
  exact deliver_boundary _ _ _ _ _

theorem afterReport_boundary {s : State} (h : s.boundary = none) :
    (if s.pendingBT then s else takeInterrupt s).boundary = none := by
  split
  · exact h
  · rw [takeInterrupt_boundary, h]

theorem finish_boundary {s t : State} (h : finish (.next s) = .next t) : t.boundary = none := by
  rcases finish_cases h with ⟨hb, rfl⟩ | ⟨b, u, -, hu, rfl⟩
  · simpa using hb
  · exact afterReport_boundary (reportTraps_boundary hu)

/-- No step leaves a report over. -/
theorem step_boundary {s t : State} (h : step s = .next t) : t.boundary = none := by
  obtain ⟨u, hu, rfl⟩ := step_stepped h
  show u.boundary = none
  cases hu with
  | taskSwitch _ report after =>
    subst after
    exact afterReport_boundary (by rw [deliverTrap_boundary report, sampleInputs_boundary])
  | debugFault => rw [sampleInputs_boundary, takeDebugFault_boundary]
  | instr _ _ _ after => exact finish_boundary after
  | ordinary _ _ after => exact finish_boundary after
  | other _ _ after => exact finish_boundary after
  | fetchFault => rw [sampleInputs_boundary, raise_boundary]

/-- Settles O3: memory by `step_wf`, the boundary by `step_boundary`. -/
theorem everyStepKeepsTheInvariant : Obligations.EveryStepKeepsTheInvariant := by
  intro s t hs h
  obtain ⟨hm, -⟩ := (Bool.and_eq_true _ _).mp hs
  simp [State.inv, step_wf hm h, step_boundary h]

/-- Settles O2: memory after reset is empty and nothing was completed. -/
theorem resetMeetsTheInvariant : Obligations.ResetMeetsTheInvariant :=
  (Bool.and_eq_true _ _).mpr ⟨rfl, rfl⟩

/-! ## The debug registers -/

/-- What the processor does to the debug registers by itself: it sets bits of DR6 (R21) and clears the L bits of
DR7 at a task switch (R19). -/
structure Debug.Kept (d e : Debug) : Prop where
  dr0 : e.dr0 = d.dr0
  dr1 : e.dr1 = d.dr1
  dr2 : e.dr2 = d.dr2
  dr3 : e.dr3 = d.dr3
  dr6 : e.dr6 &&& d.dr6 = d.dr6
  dr7 : e.dr7 = d.dr7 ∨ e.dr7 = d.dr7 &&& ~~~localBitsDR7

theorem Debug.Kept.refl (d : Debug) : d.Kept d := ⟨rfl, rfl, rfl, rfl, BitVec.and_self, Or.inl rfl⟩

theorem Debug.Kept.report {d e : Debug} (h : d.Kept e) (k : Cause) : d.Kept (e.report k) where
  dr0 := h.dr0
  dr1 := h.dr1
  dr2 := h.dr2
  dr3 := h.dr3
  dr6 := by
    rw [report_dr6, ← h.dr6, ← BitVec.and_assoc]
    congr 1
    ext i
    simp only [BitVec.getElem_and, BitVec.getElem_or]
    cases e.dr6[i] <;> simp
  dr7 := h.dr7

theorem Debug.Kept.afterTaskSwitch {d e : Debug} (h : d.Kept e) : d.Kept e.afterTaskSwitch where
  dr0 := h.dr0
  dr1 := h.dr1
  dr2 := h.dr2
  dr3 := h.dr3
  dr6 := h.dr6
  dr7 := by
    rcases h.dr7 with h7 | h7 <;> simp [h7, BitVec.and_assoc]

/-- The debug registers are what the processor by itself makes of some in a set. -/
theorem keptAround_debug (A : Debug → Prop) : KeptAround fun s => ∃ d, A d ∧ d.Kept s.dbg where
  frame h hd _ _ _ := hd ▸ h
  taskSwitch := fun ⟨d, hd, h⟩ => ⟨d, hd, h.afterTaskSwitch⟩
  report k _ := fun ⟨d, hd, h⟩ => ⟨d, hd, h.report k⟩
  inputs h := by simpa using h

/-- The instruction at CS:EIP is a MOV to a debug register at level 0, which writes `d`. -/
def MovWrites (s : State) (n : DReg) (d : Debug) : Prop :=
  ∃ r len, fetch s = .instr (.movToDR n r) len ∧ s.cpu.privilege = 0 ∧
    writeDebug s.dbg n (s.cpu.regs.get r) = some d

/-- A step does no more to the debug registers than the processor by itself, after the write of a MOV at level 0. -/
theorem step_debug {s t : State} (h : step s = .next t) :
    ∃ d, (d = s.dbg ∨ ∃ n, MovWrites s n d) ∧ d.Kept t.dbg := by
  refine (keptAround_debug _).step_keeps ⟨s.dbg, Or.inl rfl, Debug.Kept.refl _⟩ h fun i len u hf he => ?_
  rcases (exec_executed he).dbg with hd | hd | ⟨n, r, rfl, hp, hd⟩
  · exact ⟨_, Or.inl rfl, hd ▸ Debug.Kept.refl _⟩
  · exact ⟨_, Or.inl rfl, hd ▸ (Debug.Kept.refl _).afterTaskSwitch⟩
  · exact ⟨_, Or.inr ⟨n, r, len, hf, hp, hd⟩, Debug.Kept.refl _⟩

/-- A step whose instruction writes no debug register by a MOV. -/
theorem step_debug_kept {s t : State} (h : step s = .next t) (hm : ∀ n d, ¬ MovWrites s n d) :
    s.dbg.Kept t.dbg := by
  obtain ⟨d, rfl | ⟨n, hw⟩, hk⟩ := step_debug h
  · exact hk
  · exact absurd hw (hm n d)

/-- A MOV to another debug register than DR6 leaves DR6 alone. -/
theorem writeDebug_dr6 {d e : Debug} {n : DReg} {v : W32} (h : writeDebug d n v = some e) (hn : n ≠ .dr6) :
    e.dr6 = d.dr6 := by
  cases n <;> simp [writeDebug] at h hn <;> subst h <;> rfl

/-- Settles O47: what a step does to the debug registers by itself sets bits of DR6, and a MOV to another one leaves it. -/
theorem processorNeverClearsDR6 : Obligations.ProcessorNeverClearsDR6 := by
  intro s t h hf
  obtain ⟨d, rfl | ⟨n, r, len, hn, -, hw⟩, hk⟩ := step_debug h
  · exact hk.dr6
  · rw [← writeDebug_dr6 hw fun he => hf r len (he ▸ hn)]
    exact hk.dr6

/-- Settles O48: without a MOV to a debug register the step does what the processor does by itself. -/
theorem onlyMovWritesTheDebugRegisters : Obligations.OnlyMovWritesTheDebugRegisters := by
  intro s t h hf
  have hk := step_debug_kept h fun n d ⟨r, len, hn, _⟩ => hf n r len hn
  exact ⟨hk.dr0, hk.dr1, hk.dr2, hk.dr3, hk.dr7⟩

/-- Settles O49: off level 0 a MOV to a debug register writes none. -/
theorem otherLevelsNeverWriteTheDebugRegisters : Obligations.OtherLevelsNeverWriteTheDebugRegisters := by
  intro s t h hp
  have hk := step_debug_kept h fun n d ⟨r, len, _, h0, _⟩ => hp h0
  exact ⟨hk.dr0, hk.dr1, hk.dr2, hk.dr3, hk.dr7, hk.dr6⟩

/-! ## The bits of a report -/

/-- The mask of a cause has B[n], BD, BS and BT at the places of R22, and no other bit. -/
theorem Cause.getLsbD_mask (k : Cause) {b : Nat} (hb : b < 32) :
    k.mask.getLsbD b = (k.b.c0 && decide (b = 0) || k.b.c1 && decide (b = 1) || k.b.c2 && decide (b = 2) ||
      k.b.c3 && decide (b = 3) || k.bd && decide (b = 13) || k.bs && decide (b = 14) ||
      k.bt && decide (b = 15)) := by
  simp [Cause.mask, Config.layout, getLsbD_bitAt _ _ hb]

theorem Cause.mask_b (k : Cause) (n : Fin 4) : k.mask.getLsbD n.val = k.b.has n := by
  rw [k.getLsbD_mask (by omega)]
  fin_cases n <;> simp [CondSet.has]

theorem Cause.mask_bd (k : Cause) : k.mask.getLsbD 13 = k.bd := by rw [k.getLsbD_mask (by decide)]; simp

theorem Cause.mask_bs (k : Cause) : k.mask.getLsbD 14 = k.bs := by rw [k.getLsbD_mask (by decide)]; simp

theorem Cause.mask_bt (k : Cause) : k.mask.getLsbD 15 = k.bt := by rw [k.getLsbD_mask (by decide)]; simp

theorem Cause.mask_other (k : Cause) {b : Nat} (h4 : 4 ≤ b) (hb : b < 32) (h13 : b ≠ 13) (h14 : b ≠ 14)
    (h15 : b ≠ 15) : k.mask.getLsbD b = false := by
  rw [k.getLsbD_mask hb]
  simp [h13, h14, h15, show b ≠ 0 by omega, show b ≠ 1 by omega, show b ≠ 2 by omega, show b ≠ 3 by omega]

/-- Settles O52: DR6 is OR-ed with the mask, whose bits are those of R22. -/
theorem reportSetsTheBitsOfDR6 : Obligations.ReportSetsTheBitsOfDR6 := by
  intro d k
  simp only [report_dr6, BitVec.getLsbD_or, Cause.mask_b, Cause.mask_bd, Cause.mask_bs, Cause.mask_bt]
  refine ⟨fun _ => trivial, trivial, trivial, trivial, fun b h4 hb h13 h14 h15 => ?_, rfl, fun n => ?_⟩
  · rw [k.mask_other h4 hb h13 h14 h15, Bool.or_false]
  · fin_cases n <;> rfl

/-! ## Without ICE-386 -/

/-- The premise NoICE at every input. -/
theorem noICE_iff (s : State) : s.noICE = true ↔ s.iceActive = false ∧ ∀ e ∈ s.inputs, e.ice = false := by
  simp [State.noICE]

theorem noICE_congr {s t : State} (hi : t.iceActive = s.iceActive) (hn : t.inputs = s.inputs) :
    t.noICE = s.noICE := by
  simp [State.noICE, hi, hn]

theorem sampleInputs_noICE {s : State} (h : s.noICE = true) : (sampleInputs s).noICE = true := by
  rw [noICE_iff] at h
  unfold sampleInputs
  split
  · exact (noICE_iff s).mpr h
  · rename_i e rest hin
    simp only [hin, List.mem_cons, forall_eq_or_imp] at h
    exact (noICE_iff _).mpr h.2

/-- Without ICE-386 there is no general detect. -/
theorem generalDetect_of_noICE {s : State} (h : s.noICE = true) : generalDetect s = false := by
  simp [generalDetect, ((noICE_iff s).mp h).1]

/-- NoICE stays, and BD is `v` as long as no general detect can be reported. -/
theorem keptAround_noICE (v : Bool) : KeptAround fun s => s.noICE = true ∧ s.dbg.dr6.getLsbD 13 = v where
  frame h hd _ hi hn := by rwa [noICE_congr hi hn, hd]
  taskSwitch h := h
  report k hk := fun ⟨h, hv⟩ => by
    have hb : k.bd = false := by
      rw [← Bool.not_eq_true]
      exact fun hb => by simp [generalDetect_of_noICE h] at hk; simp [hk] at hb
    exact ⟨h, by rw [report_dr6, BitVec.getLsbD_or, k.mask_bd, hb, hv, Bool.or_false]⟩
  inputs := fun ⟨h, hv⟩ => ⟨sampleInputs_noICE h, by simpa using hv⟩

theorem keptAround_noICE_only : KeptAround fun s => s.noICE = true where
  frame h _ _ hi hn := by rwa [noICE_congr hi hn]
  taskSwitch h := h
  report _ _ h := h
  inputs h := sampleInputs_noICE h

/-- Settles O50: NoICE and BD as properties that every part of a step keeps, the second unless the instruction is a MOV to
DR6. -/
theorem withoutICENoGeneralDetect : Obligations.WithoutICENoGeneralDetect := by
  intro s t hs h
  have hice {i : Instr} {len : Nat} {u : State} (he : exec i (begin len s) = .next u) : u.noICE = true :=
    (noICE_congr (exec_executed he).env.iceActive (exec_executed he).env.inputs).trans hs
  refine ⟨keptAround_noICE_only.step_keeps hs h fun i len u _ he => hice he, fun hf => ?_⟩
  refine ((keptAround_noICE (s.dbg.dr6.getLsbD 13)).step_keeps ⟨hs, rfl⟩ h fun i len u hfi he =>
    ⟨hice he, ?_⟩).2
  rcases (exec_executed he).dbg with hd | hd | ⟨n, r, rfl, -, hd⟩
  · rw [hd, begin_dbg]
  · rw [hd, afterTaskSwitch_dr6, begin_dbg]
  · rw [writeDebug_dr6 hd fun hn => hf r len (hn ▸ hfi), begin_dbg]

end Sys2Proof.Machine
end

section
/-! PROOFS. Taking an exception (R114, R136): the machine in a procedure handler, the frame on its stack, and what a task
switch stores and reads back (R102). -/

namespace Sys2Proof.Machine

/-! ## Reads that depend on a part of the machine -/

theorem regsSameButESP_withESP (g : Regs) (e : W32) : RegsSameButESP g { g with esp := e } := by
  intro r hr
  cases r
  case esp => exact absurd rfl hr
  all_goals rfl

theorem RegsSameButESP.refl (g : Regs) : RegsSameButESP g g := fun _ _ => rfl

theorem MemSameBut.refl (m : Memory) (l : List Nat) : MemSameBut m m l := fun _ _ => rfl

theorem MemSameBut.trans {m m' m'' : Memory} {l l' : List Nat} (h : MemSameBut m m' l) (h' : MemSameBut m' m'' l') :
    MemSameBut m m'' (l ++ l') := by
  intro a ha
  rw [List.mem_append, not_or] at ha
  rw [h' a ha.2, h a ha.1]

/-- A load finds the same bytes in a memory that is the same where it reads. -/
theorem MemSameBut.loadLE {m m' : Memory} {l : List Nat} (h : MemSameBut m m' l) {c : Cpu} {a : W32} {k : Nat}
    (hk : ∀ j < k, physical c (a + BitVec.ofNat 32 j) ∉ l) : loadLE c m' a k = loadLE c m a k :=
  loadLE_congr fun j hj => h _ (hk j hj)

/-- The parts of the base machine that reading the stack depends on are the same. -/
structure StackSame (c d : Cpu) : Prop where
  ss : d.ss = c.ss
  esp : d.regs.esp = c.regs.esp
  paging : d.paging = c.paging
  space : d.space = c.space
  pages : d.pages = c.pages

theorem StackSame.of_eq {c d : Cpu} (h : d = c) : StackSame c d := by subst h; exact ⟨rfl, rfl, rfl, rfl, rfl⟩

theorem StackSame.stackTop {c d : Cpu} (h : StackSame c d) : stackTop d = stackTop c := by
  simp [Machine.stackTop, wrapStack, h.ss, h.esp]

theorem StackSame.stackAddr {c d : Cpu} (h : StackSame c d) (off : W32) : stackAddr d off = stackAddr c off := by
  simp [Machine.stackAddr, h.stackTop, wrapStack, h.ss]

theorem StackSame.loadLE {c d : Cpu} (h : StackSame c d) (m : Memory) (off : W32) (k : Nat) :
    loadLE d m (Machine.stackAddr d off) k = loadLE c m (Machine.stackAddr c off) k := by
  rw [h.stackAddr]
  exact loadLE_congr fun _ _ => by rw [physical_congr h.paging h.space h.pages]

theorem stackValue_congr {s t : State} (hc : StackSame s.cpu t.cpu) (hm : t.mem = s.mem) (off k : Nat) :
    stackValue t off k = stackValue s off k := by
  rw [stackValue, hm]
  exact hc.loadLE s.mem _ k

theorem SavedFrame.congr {s t : State} {k off : Nat} {ret : W32} {cs : W16} {image : W32}
    (hc : StackSame s.cpu t.cpu) (hm : t.mem = s.mem) (h : SavedFrame s k off ret cs image) :
    SavedFrame t k off ret cs image where
  eip := (stackValue_congr hc hm _ _).trans h.eip
  cs := (stackValue_congr hc hm _ _).trans h.cs
  flags := (stackValue_congr hc hm _ _).trans h.flags

/-! ## The low bytes of a pushed value -/

theorem frameWidth_eq (h : Handler) : frameWidth h = 4 ∨ frameWidth h = 2 := by
  cases hw : h.wide <;> simp [frameWidth, hw]

theorem opBytes_eq (os : OpSize) : opBytes os = 4 ∨ opBytes os = 2 := by cases os <;> simp [opBytes]

theorem lowLE_eq_lowBytes {k : Nat} (hk : k = 4 ∨ k = 2) (v : W32) : lowLE k v = lowBytes k v := by
  rcases hk with rfl | rfl <;> simp [lowLE_four, lowLE_two, lowBytes]

/-- A selector fits in a word. -/
theorem lowLE_selector {k : Nat} (hk : k = 4 ∨ k = 2) (v : W16) : lowLE k (v.setWidth 32) = v.setWidth 32 := by
  rcases hk with rfl | rfl
  · rw [lowLE_four]
  · rw [lowLE_two]
    ext i hi
    rw [BitVec.getElem_and, show (0xFFFF : W32) = BitVec.setWidth 32 (BitVec.allOnes 16) by decide]
    simp only [BitVec.getElem_setWidth, BitVec.getLsbD_allOnes]
    by_cases h : i < 16
    · simp [h]
    · simp [h, BitVec.getLsbD_of_ge v i (by omega)]

/-- Without paging the `i`-th value from the top of the stack is the `i`-th last one pushed. -/
theorem stackValue_pushAll {c : Cpu} {m : Memory} (hp : c.paging = false) (hm : m.wf = true) {k : Nat}
    (hk : k = 4 ∨ k = 2) {l : List W32} (hl : l.length ≤ 10) {i : Nat} {v : W32} (hi : l.reverse[i]? = some v)
    {t : State} (hc : StackSame (pushAll c m k l).1 t.cpu) (ht : t.mem = (pushAll c m k l).2) :
    stackValue t (k * i) k = lowLE k v := by
  obtain ⟨hlt, hv⟩ := List.getElem?_eq_some_iff.mp hi
  rw [List.length_reverse] at hlt
  have hw : k * l.length + k ≤ 65536 := by
    rcases hk with rfl | rfl <;> omega
  rw [stackValue, ht, hc.loadLE, pushAll_readback hp hm l hw i hlt, hv]

/-! ## The machine in a procedure handler -/

theorem entryStack_eq (c : Cpu) (h : Handler) :
    entryStack c h = { c with
      ss := if switchesStack c h then h.ss else c.ss
      regs := { c.regs with esp := if switchesStack c h then h.esp else c.regs.esp } } := by
  unfold entryStack
  split <;> rfl

theorem entryStack_paging (c : Cpu) (h : Handler) : (entryStack c h).paging = c.paging := by rw [entryStack_eq]

/-- The base machine after a push on the handler's stack. -/
theorem pushAll_entryStack (c : Cpu) (h : Handler) (m : Memory) (k : Nat) (l : List W32) :
    ∃ e, (pushAll (entryStack c h) m k l).1 = { c with
      ss := if switchesStack c h then h.ss else c.ss
      regs := { c.regs with esp := e } } := by
  obtain ⟨e, he⟩ := pushAll_cpu (entryStack c h) m k l
  exact ⟨e, by rw [he, entryStack_eq]⟩

/-- The base machine in the handler: nothing but what R136 and the family's entry set. -/
theorem enterProcedure_cpu (h : Handler) (k : Delivery) (r : W32) (e : Option W32) (s : State) :
    ∃ esp, (enterProcedure h k r e s).cpu = { s.cpu with
      regs := { s.cpu.regs with esp := esp }
      ss := if switchesStack s.cpu h then h.ss else s.cpu.ss
      cs := h.cs
      eip := h.eip
      cpl := if switchesStack s.cpu h then h.cpl else s.cpu.cpl
      flags := entryFlags s.cpu h
      ds := if s.cpu.isV86 then Seg.zero else s.cpu.ds
      es := if s.cpu.isV86 then Seg.zero else s.cpu.es
      fs := if s.cpu.isV86 then Seg.zero else s.cpu.fs
      gs := if s.cpu.isV86 then Seg.zero else s.cpu.gs } := by
  obtain ⟨esp, he⟩ := pushAll_entryStack s.cpu h s.mem (frameWidth h)
    (entryFrame s.cpu h (savedFlags k s.cpu.flags).image r e)
  exact ⟨esp, by simp only [enterProcedure, he]⟩

theorem enterProcedure_regs (h : Handler) (k : Delivery) (r : W32) (e : Option W32) (s : State) :
    RegsSameButESP s.cpu.regs (enterProcedure h k r e s).cpu.regs := by
  obtain ⟨esp, hc⟩ := enterProcedure_cpu h k r e s
  rw [hc]
  exact regsSameButESP_withESP _ esp

/-! ## The frame -/

/-- The error code that lies below the frame: none in real mode (log 21). -/
def entryCode (c : Cpu) (code : Option W32) : List W32 :=
  match code with
  | some v => if c.protectedMode then [v] else []
  | none => []

/-- The frame from the top of the stack up begins with the error code, if any, the return offset, CS and the image. -/
theorem entryFrame_reverse (c : Cpu) (h : Handler) (image ret : W32) (code : Option W32) :
    ∃ l, (entryFrame c h image ret code).reverse =
      entryCode c code ++ ret :: c.cs.sel.setWidth 32 :: image :: l ∧ l.length ≤ 6 := by
  refine ⟨((if c.isV86 then
      [c.gs.sel.setWidth 32, c.fs.sel.setWidth 32, c.ds.sel.setWidth 32, c.es.sel.setWidth 32] else []) ++
      (if switchesStack c h then [c.ss.sel.setWidth 32, c.regs.esp] else [])).reverse, ?_, ?_⟩
  · have hcode : (entryCode c code).reverse = entryCode c code := by
      cases code <;> simp [entryCode]
      split <;> rfl
    have hf : entryFrame c h image ret code = ((if c.isV86 then
        [c.gs.sel.setWidth 32, c.fs.sel.setWidth 32, c.ds.sel.setWidth 32, c.es.sel.setWidth 32] else []) ++
        (if switchesStack c h then [c.ss.sel.setWidth 32, c.regs.esp] else [])) ++
        [image, c.cs.sel.setWidth 32, ret] ++ entryCode c code := rfl
    rw [hf, List.reverse_append, List.reverse_append, hcode]
    rfl
  · cases c.isV86 <;> cases switchesStack c h <;> simp

theorem entryCode_length (c : Cpu) (code : Option W32) :
    (entryCode c code).length = if code.isSome && c.protectedMode then 1 else 0 := by
  cases code <;> cases hp : c.protectedMode <;> simp [entryCode, hp]

/-- Without paging the `i`-th value from the top of the handler's stack is the `i`-th last of the frame. -/
theorem enterProcedure_stackValue {s : State} (hp : s.cpu.paging = false) (hm : s.mem.wf = true) (h : Handler)
    (k : Delivery) (ret : W32) (code : Option W32) {l : List W32}
    (hl : (entryFrame s.cpu h (savedFlags k s.cpu.flags).image ret code).reverse = l) {i : Nat} {v : W32}
    (hi : l[i]? = some v) (hlen : l.length ≤ 10) :
    stackValue (enterProcedure h k ret code s) (frameWidth h * i) (frameWidth h) = lowLE (frameWidth h) v := by
  subst hl
  rw [List.length_reverse] at hlen
  exact stackValue_pushAll ((entryStack_paging _ _).trans hp) hm (frameWidth_eq h) hlen hi
    ⟨rfl, rfl, rfl, rfl, rfl⟩ rfl

/-- Without paging the frame stands on the handler's stack, above the error code if one is pushed (R136). -/
theorem enterProcedure_frame {s : State} (hp : s.cpu.paging = false) (hm : s.mem.wf = true) (h : Handler)
    (k : Delivery) (ret : W32) (code : Option W32) :
    SavedFrame (enterProcedure h k ret code s) (frameWidth h)
      (if code.isSome && s.cpu.protectedMode then frameWidth h else 0) ret s.cpu.cs.sel
      (savedFlags k s.cpu.flags).image := by
  obtain ⟨l, hl, hlen⟩ := entryFrame_reverse s.cpu h (savedFlags k s.cpu.flags).image ret code
  have hc := entryCode_length s.cpu code
  have hc1 : (entryCode s.cpu code).length ≤ 1 := by rw [hc]; split <;> omega
  have hw := frameWidth_eq h
  have hoff : (if code.isSome && s.cpu.protectedMode then frameWidth h else 0) =
      frameWidth h * (entryCode s.cpu code).length := by
    rw [hc]; split <;> simp
  have key (i : Nat) (v : W32) (hv : (ret :: s.cpu.cs.sel.setWidth 32 :: (savedFlags k s.cpu.flags).image :: l)[i]? = some v) :
      stackValue (enterProcedure h k ret code s) (frameWidth h * ((entryCode s.cpu code).length + i)) (frameWidth h) =
        lowLE (frameWidth h) v :=
    enterProcedure_stackValue hp hm h k ret code hl (by simpa [List.getElem?_append_right] using hv)
      (by simp only [List.length_append, List.length_cons]; omega)
  rw [hoff]
  refine ⟨?_, ?_, ?_⟩
  · rw [← lowLE_eq_lowBytes hw]; exact key 0 _ rfl
  · rw [← lowLE_selector hw s.cpu.cs.sel, ← Nat.mul_succ]; exact key 1 _ rfl
  · rw [← lowLE_eq_lowBytes hw, Nat.mul_comm 2, ← Nat.mul_add]; exact key 2 _ rfl

/-- In protected mode the error code lies at the top of the handler's stack (log 21). -/
theorem enterProcedure_code {s : State} (hp : s.cpu.paging = false) (hm : s.mem.wf = true) (h : Handler)
    (k : Delivery) (ret x : W32) (hpm : s.cpu.protectedMode = true) :
    stackValue (enterProcedure h k ret (some x) s) 0 (frameWidth h) = lowBytes (frameWidth h) x := by
  obtain ⟨l, hl, hlen⟩ := entryFrame_reverse s.cpu h (savedFlags k s.cpu.flags).image ret (some x)
  have hcode : entryCode s.cpu (some x) = [x] := by simp [entryCode, hpm]
  rw [hcode] at hl
  rw [← lowLE_eq_lowBytes (frameWidth_eq h)]
  exact enterProcedure_stackValue (i := 0) hp hm h k ret (some x) hl rfl
    (by simp only [List.length_append, List.length_cons, List.length_nil]; omega)

/-! ## Deliveries into a procedure -/

section
variable {v : Byte} {k : Delivery} {ret : W32} {code : Option W32} {s : State} {h : Handler}
  (hg : gateOf s.cpu s.mem v = .procedure h)
include hg

/-- But for the reports that a fault drops, a delivery into a procedure is the entry. -/
theorem deliver_procedure_cpu :
    (deliver v k ret code s).cpu = (enterProcedure h k ret code s).cpu ∧
      (deliver v k ret code s).mem = (enterProcedure h k ret code s).mem ∧
      (deliver v k ret code s).dbg = s.dbg := by
  rw [deliver_procedure hg]
  exact ⟨rfl, rfl, rfl⟩

theorem deliver_procedure_frame (hp : s.cpu.paging = false) (hm : s.mem.wf = true) :
    SavedFrame (deliver v k ret code s) (frameWidth h)
      (if code.isSome && s.cpu.protectedMode then frameWidth h else 0) ret s.cpu.cs.sel
      { s.cpu.flags with rf := k.imageRF s.cpu.flags.rf }.image := by
  obtain ⟨hc, hmem, -⟩ := deliver_procedure_cpu (k := k) (ret := ret) (code := code) hg
  exact (enterProcedure_frame hp hm h k ret code).congr (.of_eq hc) hmem

theorem deliver_procedure_regs : RegsSameButESP s.cpu.regs (deliver v k ret code s).cpu.regs := by
  rw [(deliver_procedure_cpu hg).1]
  exact enterProcedure_regs h k ret code s

end

/-- A delivery without error code into a procedure, as `TrapDelivered` says it. -/
theorem deliver_trapDelivered {v : Byte} {s : State} {h : Handler} (hg : gateOf s.cpu s.mem v = .procedure h)
    (k : Delivery) :
    TrapDelivered s (deliver v k s.cpu.eip none s) h (k.imageRF s.cpu.flags.rf) where
  cs := by rw [(deliver_procedure_cpu hg).1]; rfl
  eip := by rw [(deliver_procedure_cpu hg).1]; rfl
  tf := by rw [(deliver_procedure_cpu hg).1]; rfl
  regs := deliver_procedure_regs hg
  mem := deliver_procedure_read_other hg
  frame hp hm := deliver_procedure_frame (code := none) hg hp hm

/-- `TrapDelivered` looks at the base machine and memory alone. -/
theorem TrapDelivered.congr {s t u v : State} {h : Handler} {rf : Bool} (hd : TrapDelivered s u h rf)
    (hc : t.cpu = s.cpu) (hm : t.mem = s.mem) (hc' : v.cpu = u.cpu) (hm' : v.mem = u.mem) :
    TrapDelivered t v h rf where
  cs := by rw [hc', hd.cs]
  eip := by rw [hc', hd.eip]
  tf := by rw [hc', hd.tf]
  regs := by rw [hc, hc']; exact hd.regs
  mem := by rw [hc, hm, hm']; exact hd.mem
  frame hp hw := by
    rw [hc] at hp ⊢
    rw [hm] at hw
    exact (hd.frame hp hw).congr (.of_eq hc') hm'

end Sys2Proof.Machine
end

section
/-! PROOFS. Task switches (R102): the bytes they store to, what is read back from a TSS, deliveries to a task (R136), and the
debug handler task whose own TSS has T = 1 (R131). -/

namespace Sys2Proof.Machine

/-! ## The bytes of a TSS -/

theorem mem_fieldBytes {c : Cpu} {base : W32} {fs : List (W32 × Nat × W32)} {p : Nat} :
    p ∈ fieldBytes c base fs ↔ ∃ f ∈ fs, ∃ j < f.2.1, physical c (base + f.1 + BitVec.ofNat 32 j) = p := by
  simp [fieldBytes, List.mem_flatMap]

theorem storeFields_sameBut (c : Cpu) (m : Memory) (base : W32) (fs : List (W32 × Nat × W32)) :
    MemSameBut m (storeFields c m base fs) (fieldBytes c base fs) := by
  induction fs generalizing m with
  | nil => exact MemSameBut.refl _ _
  | cons f fs ih =>
    intro p hp
    simp only [mem_fieldBytes, List.mem_cons, exists_eq_or_imp, not_or, not_exists, not_and] at hp
    rw [storeFields, ih _ p (by simpa [mem_fieldBytes] using hp.2)]
    exact storeLE_read_other _ fun j hj he => hp.1 j hj he.symm

/-- A store at an address as the store of a field at offset 0. -/
theorem storeLE_sameBut (c : Cpu) (m : Memory) (a : W32) (k : Nat) (v : W32) :
    MemSameBut m (storeLE c m a k v) (fieldBytes c a [(0, k, 0)]) := fun p hp =>
  storeLE_read_other v fun j hj he => hp (mem_fieldBytes.mpr ⟨_, List.mem_singleton_self _, j, hj, by
    rw [he]; simp⟩)

/-- Where the outgoing task is saved does not depend on what is saved. -/
theorem saveTask_sameBut (c : Cpu) (m : Memory) (image ret : W32) :
    MemSameBut m (saveTask c m image ret)
      (fieldBytes c c.task.base (if c.task.is386 then savedFields386 c 0 0 else savedFields286 c 0 0)) := by
  unfold saveTask
  cases c.task.is386 <;> exact storeFields_sameBut c m _ _

/-- A task switch stores to the two TSSs alone. -/
theorem taskSwitchMemory_sameBut (c : Cpu) (m : Memory) (t : TssRef) (n : Bool) (image ret : W32) :
    MemSameBut m (taskSwitchMemory c m t n image ret) (taskSwitchBytes c t n) := by
  cases n with
  | false => simpa [taskSwitchMemory, taskSwitchBytes] using saveTask_sameBut c m image ret
  | true => exact (saveTask_sameBut c m image ret).trans (storeLE_sameBut c _ t.base 2 _)

/-- A field of `k` bytes at an offset shares no byte with these. -/
def FieldsApart (off k : Nat) (fs : List (W32 × Nat × W32)) : Prop :=
  ∀ f ∈ fs, f.1.toNat + f.2.1 ≤ off ∨ off + k ≤ f.1.toNat ∧ f.1.toNat + f.2.1 ≤ 2 ^ 32

/-- Without paging, fields apart are bytes apart. -/
theorem FieldsApart.not_mem {c : Cpu} (hp : c.paging = false) {off k : Nat} {fs : List (W32 × Nat × W32)}
    (h : FieldsApart off k fs) (ho : off + k ≤ 2 ^ 32) (base : W32) {j : Nat} (hj : j < k) :
    physical c (base + BitVec.ofNat 32 off + BitVec.ofNat 32 j) ∉ fieldBytes c base fs := by
  rw [mem_fieldBytes]
  rintro ⟨f, hf, i, hi, he⟩
  rw [physical_of_not_paging hp, physical_of_not_paging hp, BitVec.add_assoc, BitVec.add_assoc] at he
  have hc := congrArg BitVec.toNat (add_left_cancel (BitVec.eq_of_toNat_eq he))
  simp only [BitVec.toNat_add, BitVec.toNat_ofNat] at hc
  rcases h f hf with hl | ⟨hl, hr⟩ <;> omega

/-- Without paging, the first of some fields apart is read back after all are stored. -/
theorem loadLE_storeFields_head {c : Cpu} {m : Memory} (hp : c.paging = false) (hm : m.wf = true) (base : W32)
    {off k : Nat} (v : W32) {fs : List (W32 × Nat × W32)} (h : FieldsApart off k fs) (ho : off + k ≤ 2 ^ 32)
    (hk : k < 2 ^ 32) :
    loadLE c (storeFields c m base ((BitVec.ofNat 32 off, k, v) :: fs)) (base + BitVec.ofNat 32 off) k =
      lowLE k v := by
  rw [storeFields, (storeFields_sameBut c _ base fs).loadLE fun j hj => h.not_mem hp ho base hj]
  exact loadLE_storeLE hp hm _ k hk v

/-- The width of the fields a task's return offset and flags image are saved in, in its TSS format. -/
def tssWidth (t : TssRef) : Nat := if t.is386 then 4 else 2

/-- The offset of the saved return offset in a TSS; the flags image lies above it. -/
def tssEipOffset (t : TssRef) : Nat := if t.is386 then 0x20 else 0x0E

theorem tssWidth_eq (t : TssRef) : tssWidth t = 4 ∨ tssWidth t = 2 := by
  unfold tssWidth; split <;> simp

theorem tssEip_eq (c : Cpu) (m : Memory) (t : TssRef) :
    tssEip c m t = loadLE c m (t.base + BitVec.ofNat 32 (tssEipOffset t)) (tssWidth t) := by
  cases h : t.is386 <;> simp [tssEip, tssEipOffset, tssWidth, h]

theorem tssFlagsImage_eq (c : Cpu) (m : Memory) (t : TssRef) :
    tssFlagsImage c m t = loadLE c m (t.base + BitVec.ofNat 32 (tssEipOffset t + tssWidth t)) (tssWidth t) := by
  cases h : t.is386 <;> simp [tssFlagsImage, tssEipOffset, tssWidth, h, Config.layout]

theorem savedImageBytes_eq (c : Cpu) : savedImageBytes c = fieldBytes c c.task.base
    [(BitVec.ofNat 32 (tssEipOffset c.task), tssWidth c.task, 0),
      (BitVec.ofNat 32 (tssEipOffset c.task + tssWidth c.task), tssWidth c.task, 0)] := by
  cases h : c.task.is386 <;> simp [savedImageBytes, tssEipOffset, tssWidth, h]

/-- The return offset and the flags image come first, apart from each other and from everything else that is saved. -/
theorem saveTask_eq (c : Cpu) (m : Memory) (image ret : W32) :
    ∃ rest, saveTask c m image ret = storeFields c m c.task.base
        ((BitVec.ofNat 32 (tssEipOffset c.task), tssWidth c.task, ret) ::
          (BitVec.ofNat 32 (tssEipOffset c.task + tssWidth c.task), tssWidth c.task, image) :: rest) ∧
      FieldsApart (tssEipOffset c.task) (tssWidth c.task)
        ((BitVec.ofNat 32 (tssEipOffset c.task + tssWidth c.task), tssWidth c.task, image) :: rest) ∧
      FieldsApart (tssEipOffset c.task + tssWidth c.task) (tssWidth c.task) rest := by
  cases h : c.task.is386
  · refine ⟨(savedFields286 c image ret).drop 2, ?_, ?_, ?_⟩ <;>
      simp [saveTask, FieldsApart, savedFields286, tssEipOffset, tssWidth, h]
  · refine ⟨(savedFields386 c image ret).drop 2, ?_, ?_, ?_⟩ <;>
      simp [saveTask, FieldsApart, savedFields386, tssEipOffset, tssWidth, h, Config.layout]

/-- The saved return offset and flags image are read back from the outgoing TSS. -/
theorem saveTask_readback {c : Cpu} {m : Memory} (hp : c.paging = false) (hm : m.wf = true) (image ret : W32) :
    tssEip c (saveTask c m image ret) c.task = lowBytes (tssWidth c.task) ret ∧
      tssFlagsImage c (saveTask c m image ret) c.task = lowBytes (tssWidth c.task) image := by
  obtain ⟨rest, he, h1, h2⟩ := saveTask_eq c m image ret
  have hw := tssWidth_eq c.task
  have ho : tssEipOffset c.task ≤ 0x20 := by unfold tssEipOffset; split <;> simp
  rw [tssEip_eq, tssFlagsImage_eq, he, ← lowLE_eq_lowBytes hw, ← lowLE_eq_lowBytes hw]
  exact ⟨loadLE_storeFields_head hp hm _ ret h1 (by omega) (by omega),
    loadLE_storeFields_head hp (storeLE_wf hm _ _ _) _ image h2 (by omega) (by omega)⟩

/-- The two fields are read from the bytes of `savedImageBytes` alone. -/
theorem savedImage_congr {c : Cpu} {m m' : Memory} {l : List Nat} (h : MemSameBut m m' l)
    (hl : ∀ a ∈ savedImageBytes c, a ∉ l) :
    tssEip c m' c.task = tssEip c m c.task ∧ tssFlagsImage c m' c.task = tssFlagsImage c m c.task := by
  simp only [savedImageBytes_eq, mem_fieldBytes] at hl
  rw [tssEip_eq, tssEip_eq, tssFlagsImage_eq, tssFlagsImage_eq]
  exact ⟨h.loadLE fun j hj => hl _ ⟨_, List.mem_cons_self, j, hj, rfl⟩,
    h.loadLE fun j hj => hl _ ⟨_, List.mem_cons_of_mem _ List.mem_cons_self, j, hj, rfl⟩⟩

/-! ## The incoming task -/

/-- A segment register holds the selector it was loaded with. -/
@[simp] theorem segFor_sel (c : Cpu) (v86 : Bool) (sel : W16) : (segFor c v86 sel).sel = sel := by
  unfold segFor
  split
  · rfl
  · split
    · rfl
    · split <;> rfl

theorem loadTask_entry (c : Cpu) (m : Memory) (t : TssRef) (n : Bool) :
    (loadTask c m t n).eip = tssEip c m t ∧ (loadTask c m t n).cs.sel = tssCS c m t ∧
      (loadTask c m t n).cpl = selLevel (tssCS c m t) ∧
      (loadTask c m t n).flags = { Flags.ofImage (tssFlagsImage c m t) with
        nt := (Flags.ofImage (tssFlagsImage c m t)).nt || n } :=
  ⟨rfl, segFor_sel _ _ _, rfl, rfl⟩

/-- A push stores to the pushed slots alone. -/
theorem pushAll_sameBut (c : Cpu) (m : Memory) (k : Nat) (l : List W32) :
    MemSameBut m (pushAll c m k l).2 (pushedBytes c k l.length) := fun _ hp =>
  pushAll_read_other fun i hi j hj he => hp (List.mem_flatMap.mpr
    ⟨i, List.mem_range.mpr hi, List.mem_map.mpr ⟨j, List.mem_range.mpr hj, he.symm⟩⟩)

/-- A handler task is entered by a nested switch; an error code is then pushed on its stack. -/
theorem enterTask_cpu (t : TssRef) (k : Delivery) (ret : W32) (code : Option W32) (s : State) :
    ∃ esp, (enterTask t k ret code s).cpu =
      { (switchTask t true (savedFlags k s.cpu.flags).image ret s).cpu with
        regs := { (switchTask t true (savedFlags k s.cpu.flags).image ret s).cpu.regs with esp := esp } } := by
  cases code with
  | none => exact ⟨_, rfl⟩
  | some v => exact pushAll_cpu _ (switchTask t true (savedFlags k s.cpu.flags).image ret s).mem _ [v]

theorem enterTask_pendingBT (t : TssRef) (k : Delivery) (ret : W32) (code : Option W32) (s : State) :
    (enterTask t k ret code s).pendingBT =
      (switchTask t true (savedFlags k s.cpu.flags).image ret s).pendingBT := by
  cases code <;> rfl

/-- What is stored after the outgoing task is saved. -/
theorem enterTask_sameBut (t : TssRef) (k : Delivery) (ret : W32) (code : Option W32) (s : State) :
    MemSameBut (saveTask s.cpu s.mem (savedFlags k s.cpu.flags).image ret) (enterTask t k ret code s).mem
      (laterTaskBytes s.cpu (loadTask s.cpu
        (taskSwitchMemory s.cpu s.mem t true (savedFlags k s.cpu.flags).image ret) t true) t code) := by
  refine (storeLE_sameBut s.cpu _ t.base 2 (s.cpu.task.sel.setWidth 32)).trans ?_
  cases code with
  | none => exact MemSameBut.refl _ _
  | some v => exact pushAll_sameBut _ _ _ [v]

/-! ## Delivery -/

theorem Delivery.imageRF_eq (k : Delivery) (rf : Bool) :
    k.imageRF rf = (k == Delivery.fault || k == Delivery.merged || rf) := by
  cases k <;> simp [Delivery.imageRF]

/-- The flags image a delivery saves, with RF as R114 and R134 say. -/
theorem savedFlags_eq (k : Delivery) (f : Flags) :
    savedFlags k f = { f with rf := k == Delivery.fault || k == Delivery.merged || f.rf } := by
  rw [savedFlags, Delivery.imageRF_eq]

/-- Settles O33: a procedure's frame by what its entry pushed, a task's image by what was saved and not stored over. -/
theorem deliverySavesTheFrame : Obligations.DeliverySavesTheFrame := by
  constructor
  · intro v k ret code s h hg
    obtain ⟨hcpu, hmem, hdbg⟩ := deliver_procedure_cpu (k := k) (ret := ret) (code := code) hg
    refine ⟨fun hp hm => ⟨?_, ?_⟩, by rw [hcpu]; rfl, by rw [hcpu]; rfl, by rw [hcpu]; rfl, by rw [hcpu]; rfl, hdbg⟩
    · rw [← Delivery.imageRF_eq]
      exact deliver_procedure_frame hg hp hm
    · rintro x rfl hpm
      rw [stackValue_congr (.of_eq hcpu) hmem]
      exact enterProcedure_code hp hm h k ret x hpm
  · rintro v k ret image code s t e m hg hp hm rfl rfl rfl
    rw [← savedFlags_eq, deliver_task hg]
    obtain ⟨esp, hcpu⟩ := enterTask_cpu e k ret code
      { s with deferred := if k = .fault then CondSet.empty else s.deferred }
    obtain ⟨heip, hcs, hcpl, hflags⟩ := loadTask_entry s.cpu
      (taskSwitchMemory s.cpu s.mem e true (savedFlags k s.cpu.flags).image ret) e true
    rw [hcpu]
    refine ⟨rfl, enterTask_dbg _ _ _ _ _, heip, hcs, hcpl, hflags.trans (by simp), enterTask_pendingBT _ _ _ _ _, ?_,
      fun hl => ?_⟩
    · rintro rfl; rfl
    · obtain ⟨he, hf⟩ := savedImage_congr (enterTask_sameBut e k ret code s) hl
      obtain ⟨he', hf'⟩ := saveTask_readback hp hm (savedFlags k s.cpu.flags).image ret
      have hmem : (enterTask e k ret code
          { s with deferred := if k = .fault then CondSet.empty else s.deferred }).mem =
          (enterTask e k ret code s).mem := by cases code <;> rfl
      rw [hmem]
      exact ⟨he.trans he', hf.trans hf'⟩

/-! ## The endless report of a task switch -/

/-- A task switch changes no RW and no LEN code. -/
theorem afterTaskSwitch_codes (d : Debug) (n : Fin 4) :
    d.afterTaskSwitch.rw n = d.rw n ∧ d.afterTaskSwitch.len n = d.len n := by
  have key (p : Nat) (hp : 16 ≤ p) (hp' : p + 2 ≤ 32) :
      d.afterTaskSwitch.dr7.extractLsb' p 2 = d.dr7.extractLsb' p 2 := by
    apply BitVec.eq_of_getLsbD_eq
    intro i hi
    simp only [BitVec.getLsbD_extractLsb']
    rw [afterTaskSwitch_dr7_kept d (by omega) (by omega)]
  simp only [Debug.rw_eq, Debug.len_eq]
  exact ⟨key _ (by omega) (by omega), key _ (by omega) (by omega)⟩

theorem afterTaskSwitch_undefinedCode (d : Debug) : d.afterTaskSwitch.undefinedCode = d.undefinedCode := by
  simp only [Debug.undefinedCode, fun n => (afterTaskSwitch_codes d n).1, fun n => (afterTaskSwitch_codes d n).2]

theorem report_undefinedCode (d : Debug) (k : Cause) : (d.report k).undefinedCode = d.undefinedCode := rfl

/-- While DR7 holds no undefined code a trap is delivered, alone or merged as `mergesFaults` says. -/
theorem deliverTrap_defined {s : State} (h : s.dbg.undefinedCode = none) (k : Cause) :
    deliverTrap k s = .next (if mergesFaults s then takeTrap (k.merge (faultCause s)) .merged s
      else takeTrap k .trap s) := by
  unfold deliverTrap mergesFaults
  rw [h, Bool.and_comm]
  simp only
  split <;> rfl

/-- In protected mode the gate of a vector does not depend on memory. -/
theorem gateOf_congr {c d : Cpu} (hc : c.protectedMode = true) (hd : d.protectedMode = true) (hg : d.gates = c.gates)
    (m m' : Memory) (v : Byte) : gateOf d m' v = gateOf c m v := by
  simp [gateOf, gateEntry, hc, hd, hg]

/-- Without paging a switch of an 80386 task to itself leaves its T-bit as it is. -/
theorem tssTrapBit_switch_self {c d : Cpu} {m : Memory} (hc : c.paging = false) (hd : d.paging = false)
    (h386 : c.task.is386 = true) (n : Bool) (image ret : W32) :
    tssTrapBit d (taskSwitchMemory c m c.task n image ret) c.task = tssTrapBit c m c.task := by
  have hb (j : Nat) (hj : j < 2) :
      physical c (c.task.base + BitVec.ofNat 32 Config.layout.tbit + BitVec.ofNat 32 j) ∉
        taskSwitchBytes c c.task n := by
    have h1 : FieldsApart Config.layout.tbit 2 (savedFields386 c 0 0) := by
      simp [FieldsApart, savedFields386, Config.layout]
    have h2 : FieldsApart Config.layout.tbit 2 [(0, 2, 0)] := by simp [FieldsApart, Config.layout]
    simp only [taskSwitchBytes, h386, if_true, List.mem_append, not_or]
    refine ⟨h1.not_mem hc (by decide) _ hj, ?_⟩
    cases n
    · simp
    · exact h2.not_mem hc (by decide) _ hj
  simp only [tssTrapBit, h386, Bool.true_and]
  congr 1
  rw [← (taskSwitchMemory_sameBut c m c.task n image ret).loadLE hb]
  exact loadLE_congr fun j _ => by rw [physical_of_not_paging hc, physical_of_not_paging hd]

/-- The machine is in the handler task `e` of vector 1, whose T-bit is set. -/
structure InTrappingHandler (e : TssRef) (s : State) : Prop where
  gate : gateOf s.cpu s.mem 1 = .task e
  protectedMode : s.cpu.protectedMode = true
  task : s.cpu.task = e
  is386 : e.is386 = true
  paging : s.cpu.paging = false
  trapBit : tssTrapBit s.cpu s.mem e = true
  codes : s.dbg.undefinedCode = none

namespace InTrappingHandler

variable {e : TssRef} {s t : State}

theorem congr (h : InTrappingHandler e s) (hc : t.cpu = s.cpu) (hm : t.mem = s.mem) (hd : t.dbg = s.dbg) :
    InTrappingHandler e t where
  gate := hc ▸ hm ▸ h.gate
  protectedMode := hc ▸ h.protectedMode
  task := hc ▸ h.task
  is386 := h.is386
  paging := hc ▸ h.paging
  trapBit := hc ▸ hm ▸ h.trapBit
  codes := hd ▸ h.codes

/-- Taking the trap enters the same task again, and its T-bit makes the switch to be reported again. -/
theorem takeTrap (h : InTrappingHandler e s) (k : Cause) (d : Delivery) :
    InTrappingHandler e (takeTrap k d s) ∧ (takeTrap k d s).pendingBT = true := by
  obtain ⟨gate, pm, rfl, is386, paging, trapBit, codes⟩ := h
  have ht (c : Cpu) (hc : c.paging = false) :
      tssTrapBit c (taskSwitchMemory s.cpu s.mem s.cpu.task true (savedFlags d s.cpu.flags).image s.cpu.eip)
        s.cpu.task = true := (tssTrapBit_switch_self paging hc is386 _ _ _).trans trapBit
  have hd : Machine.takeTrap k d s = enterTask s.cpu.task d s.cpu.eip none
      { s with dbg := s.dbg.report k, deferred := if d = .fault then CondSet.empty else s.deferred } :=
    deliver_task (s := { s with dbg := s.dbg.report k }) gate
  set m := taskSwitchMemory s.cpu s.mem s.cpu.task true (savedFlags d s.cpu.flags).image s.cpu.eip
  have hcpu : (Machine.takeTrap k d s).cpu = loadTask s.cpu m s.cpu.task true := congrArg State.cpu hd
  have hmem : (Machine.takeTrap k d s).mem = m := congrArg State.mem hd
  have hdbg : (Machine.takeTrap k d s).dbg = (s.dbg.report k).afterTaskSwitch := congrArg State.dbg hd
  have hbt : (Machine.takeTrap k d s).pendingBT = (s.pendingBT || tssTrapBit s.cpu m s.cpu.task) :=
    congrArg State.pendingBT hd
  have hpm : (Machine.takeTrap k d s).cpu.protectedMode = true := by rw [hcpu, loadTask_protectedMode, pm]
  have hpg : (Machine.takeTrap k d s).cpu.paging = false := by rw [hcpu, loadTask_paging, paging]
  refine ⟨⟨?_, ?_, ?_, is386, ?_, ?_, ?_⟩, ?_⟩
  · exact (gateOf_congr pm hpm (by rw [hcpu, loadTask_gates]) _ _ _).trans gate
  · exact hpm
  · rw [hcpu, loadTask_task]
  · exact hpg
  · rw [hmem, ht _ hpg]
  · rw [hdbg, afterTaskSwitch_undefinedCode, report_undefinedCode, codes]
  · rw [hbt, ht _ paging, Bool.or_true]

/-- A step that reports the switch to it leads to it again, with the switch to be reported (R131). -/
theorem step (h : InTrappingHandler e s) (hp : s.pendingBT = true) :
    ∃ t, step s = .next t ∧ InTrappingHandler e t ∧ t.pendingBT = true ∧ t.tick = s.tick + 1 := by
  set r : State := sampleInputs { s with pendingBT := false, boundary := none } with hr
  have hin : InTrappingHandler e r := h.congr (by simp [hr]) (by simp [hr]) (by simp [hr])
  obtain ⟨k, d, hu⟩ : ∃ k d, deliverTrap taskSwitchCause r = .next (Machine.takeTrap k d r) := by
    rw [deliverTrap_defined hin.codes]
    split <;> exact ⟨_, _, rfl⟩
  obtain ⟨hin', hp'⟩ := hin.takeTrap k d
  have htick : (Machine.takeTrap k d r).tick = s.tick :=
    (deliver_env _ _ _ _ _).tick.trans (by simp [hr])
  refine ⟨{ Machine.takeTrap k d r with tick := s.tick + 1 }, ?_, hin'.congr rfl rfl rfl, hp', rfl⟩
  simp only [Machine.step, cycle, hp, if_true, reportTaskSwitch, ← hr, hu, afterReport, hp', countStep, htick]

end InTrappingHandler

/-- Settles O42: by induction on the number of steps, each of which `InTrappingHandler.step` makes. -/
theorem handlerTaskWithTrapBitNeverRuns : Obligations.HandlerTaskWithTrapBitNeverRuns := by
  intro s e gate pm task is386 paging hm trapBit codes pending k
  have h : InTrappingHandler e s := ⟨gate, pm, task, is386, paging, trapBit, codes⟩
  clear gate pm task is386 paging hm trapBit codes
  induction k generalizing s with
  | zero => exact ⟨s, rfl, pending, h.task, rfl⟩
  | succ k ih =>
    obtain ⟨t, hs, ht, hp, htick⟩ := h.step pending
    obtain ⟨u, hu, hup, htask, hut⟩ := ih t hp ht
    refine ⟨u, ?_, hup, htask, by omega⟩
    simp only [Host.Core.run, Sys2Proof.core, hs]
    exact hu

end Sys2Proof.Machine
end

section
/-! PROOFS. The encoder and the decoder agree (30_encoding.md), and what a fetch finds (R45, R56). -/

namespace Sys2Proof

/-! ## Numbers and fields -/

@[simp] theorem Reg.ofNum_num (r : Reg) : Reg.ofNum r.num = r := by cases r <;> rfl

@[simp] theorem DReg.ofNum_num (n : DReg) : DReg.ofNum n.num = n := by cases n <;> rfl

@[simp] theorem Base16.ofNum_num (b : Base16) : Base16.ofNum b.num = b := by cases b <;> rfl

@[simp] theorem Scale.ofNum_num (x : Scale) : Scale.ofNum x.num = x := by cases x <;> rfl

@[simp] theorem fieldMod_packByte (m : BitVec 2) (n r : BitVec 3) : fieldMod (packByte m n r) = m := by
  apply BitVec.eq_of_getLsbD_eq
  intro i hi
  simp only [fieldMod, packByte, BitVec.getLsbD_extractLsb', BitVec.getLsbD_append]
  simp [hi, show ¬ 6 + i < 3 by omega, show ¬ 6 + i - 3 < 3 by omega, show 6 + i - 3 - 3 = i by omega]

@[simp] theorem fieldReg_packByte (m : BitVec 2) (n r : BitVec 3) : fieldReg (packByte m n r) = n := by
  apply BitVec.eq_of_getLsbD_eq
  intro i hi
  simp only [fieldReg, packByte, BitVec.getLsbD_extractLsb', BitVec.getLsbD_append]
  simp [hi]

@[simp] theorem fieldRM_packByte (m : BitVec 2) (n r : BitVec 3) : fieldRM (packByte m n r) = r := by
  apply BitVec.eq_of_getLsbD_eq
  intro i hi
  simp only [fieldRM, packByte, BitVec.getLsbD_extractLsb', BitVec.getLsbD_append]
  simp [hi]

@[simp] theorem take16_bytes16 (w : W16) (rest : List Byte) : take16 (bytes16 w ++ rest) = some (w, rest) := by
  have h : word16 (w.extractLsb' 0 8) (w.extractLsb' 8 8) = w := by
    apply BitVec.eq_of_getLsbD_eq
    intro i hi
    simp only [word16, BitVec.getLsbD_append, BitVec.getLsbD_extractLsb']
    by_cases h8 : i < 8
    · simp [h8]
    · simp [h8, show i - 8 < 8 by omega, show 8 + (i - 8) = i by omega]
  simp [bytes16, take16, h]

@[simp] theorem take32_bytes32 (w : W32) (rest : List Byte) : take32 (bytes32 w ++ rest) = some (w, rest) := by
  have h : word32 (w.extractLsb' 0 8) (w.extractLsb' 8 8) (w.extractLsb' 16 8) (w.extractLsb' 24 8) = w := by
    apply BitVec.eq_of_getLsbD_eq
    intro i hi
    simp only [word32, BitVec.getLsbD_append, BitVec.getLsbD_extractLsb']
    by_cases h8 : i < 8
    · simp [h8]
    by_cases h16 : i - 8 < 8
    · simp [h8, h16, show 8 + (i - 8) = i by omega]
    by_cases h24 : i - 8 - 8 < 8
    · simp [h8, h16, h24, show 16 + (i - 8 - 8) = i by omega]
    · simp [h8, h16, h24, show i - 8 - 8 - 8 < 8 by omega, show 24 + (i - 8 - 8 - 8) = i by omega]
  simp [bytes32, take32, h]

/-! ## Memory operands -/

theorem takeDisp16_bytes (d : Disp16) (rest : List Byte) :
    takeDisp16 d.mod (d.bytes ++ rest) = some (d, d.bytes.length, rest) := by
  cases d with
  | zero => rfl
  | byte d => rfl
  | word d => simp [takeDisp16, Disp16.mod, Disp16.bytes]; rfl

theorem takeDisp32_bytes (d : Disp32) (rest : List Byte) :
    takeDisp32 d.mod (d.bytes ++ rest) = some (d, d.bytes.length, rest) := by
  cases d with
  | zero => rfl
  | byte d => rfl
  | dword d => simp [takeDisp32, Disp32.mod, Disp32.bytes]; rfl

/-- A displacement never calls for mod 11. -/
theorem Disp16.mod_ne (d : Disp16) : d.mod ≠ 3#2 := by cases d <;> simp [Disp16.mod]

theorem Disp32.mod_ne (d : Disp32) : d.mod ≠ 3#2 := by cases d <;> simp [Disp32.mod]

theorem Disp16.mod_eq_zero (d : Disp16) : d.mod = 0#2 ↔ d = .zero := by cases d <;> simp [Disp16.mod]

theorem Disp32.mod_eq_zero (d : Disp32) : d.mod = 0#2 ↔ d = .zero := by cases d <;> simp [Disp32.mod]

theorem Reg.num_eq (r q : Reg) : r.num = q.num ↔ r = q := by
  cases r <;> cases q <;> simp [Reg.num]

/-- A SIB byte gives its index back, unless the index is ESP. -/
theorem sibIndex_encodeSib {index : Option (Reg × Scale)} (h : ∀ r s, index = some (r, s) → r ≠ .esp)
    (base : BitVec 3) : sibIndex (encodeSib index base) = index := by
  rcases index with - | ⟨r, s⟩
  · simp [sibIndex, encodeSib]
  · have hr : r.num ≠ 4#3 := fun he => h r s rfl ((Reg.num_eq r .esp).mp he)
    simp [sibIndex, encodeSib, hr]

theorem fieldRM_encodeSib (index : Option (Reg × Scale)) (base : BitVec 3) :
    fieldRM (encodeSib index base) = base := by
  rcases index with - | ⟨r, s⟩ <;> simp [encodeSib]

/-- What decoding a memory operand needs of its first byte: mod is not 11, the reg field is free, and the operand and its
number of bytes come back. -/
structure Encodes (n : BitVec 3) (m : MemOp) (modrm : Byte) (tail : List Byte) : Prop where
  bytes : encodeMem n m = modrm :: tail
  mod : fieldMod modrm ≠ 3
  reg : fieldReg modrm = n
  take : ∀ rest, takeMem m.addr32 modrm (tail ++ rest) = some (m, tail.length, rest)

theorem encodes_mem (n : BitVec 3) {m : MemOp} (h : m.wellFormed = true) : ∃ modrm tail, Encodes n m modrm tail := by
  cases m with
  | direct16 d =>
    refine ⟨_, _, rfl, by simp, by simp, fun rest => ?_⟩
    simp [takeMem, takeMem16, MemOp.addr32]; rfl
  | based16 b d =>
    have hb : ¬(d.mod = 0#2 ∧ b.num = 6#3) := by
      rw [d.mod_eq_zero]
      rintro ⟨rfl, hb⟩
      cases b <;> simp [MemOp.wellFormed, Base16.num] at h hb
    refine ⟨_, _, rfl, by simpa using d.mod_ne, by simp, fun rest => ?_⟩
    simp [takeMem, takeMem16, MemOp.addr32, hb, takeDisp16_bytes]
  | direct32 d =>
    refine ⟨_, _, rfl, by simp, by simp, fun rest => ?_⟩
    simp [takeMem, takeMem32, MemOp.addr32]; rfl
  | based32 b d =>
    obtain ⟨hesp, hebp⟩ : b ≠ .esp ∧ (b ≠ .ebp ∨ d ≠ .zero) := by simpa [MemOp.wellFormed] using h
    have h4 : b.num ≠ 4#3 := fun he => hesp ((Reg.num_eq b .esp).mp he)
    have h5 : ¬(d.mod = 0#2 ∧ b.num = 5#3) := by
      rw [d.mod_eq_zero]
      exact fun ⟨hd, hb⟩ => hebp.elim (· ((Reg.num_eq b .ebp).mp hb)) (· hd)
    refine ⟨_, _, rfl, by simpa using d.mod_ne, by simp, fun rest => ?_⟩
    simp [takeMem, takeMem32, MemOp.addr32, h4, h5, takeDisp32_bytes]
  | sib b index d =>
    have hi : ∀ r s, index = some (r, s) → r ≠ .esp := by
      rintro r s rfl
      simp [MemOp.wellFormed] at h
      exact h.1
    cases b with
    | none =>
      obtain ⟨x, rfl⟩ : ∃ x, d = .dword x := by
        cases d <;> simp [MemOp.wellFormed] at h
        exact ⟨_, rfl⟩
      refine ⟨_, _, rfl, by simp, by simp, fun rest => ?_⟩
      simp [takeMem, takeMem32, takeSib, MemOp.addr32, fieldRM_encodeSib, sibIndex_encodeSib hi, Disp32.bytes]
      rfl
    | some b =>
      have h5 : ¬(d.mod = 0#2 ∧ b.num = 5#3) := by
        rw [d.mod_eq_zero]
        rintro ⟨rfl, hb⟩
        rw [(Reg.num_eq b .ebp).mp hb] at h
        simp [MemOp.wellFormed] at h
      refine ⟨_, _, rfl, by simpa using d.mod_ne, by simp, fun rest => ?_⟩
      simp [takeMem, takeMem32, takeSib, MemOp.addr32, fieldRM_encodeSib, sibIndex_encodeSib hi, h5, takeDisp32_bytes]

theorem takeFarPtr_bytes (p : FarPtr) (rest : List Byte) :
    takeFarPtr p.opSize (p.bytes ++ rest) = some (p, p.bytes.length) := by
  cases p <;> simp [takeFarPtr, FarPtr.opSize, FarPtr.bytes, List.append_assoc] <;> rfl

/-! ## Bytes in front of an opcode -/

/-- What is read of the bytes the encoder puts in front of an opcode. -/
def frontBytes (big : Bool) (os : OpSize) (addr32 : Bool) (seg : Option SegName) : PrefixBytes :=
  ⟨operandSize big false != os, big != addr32, seg, false, (encodePrefixes big os addr32 seg).length⟩

@[simp] theorem operandSize_frontBytes (big : Bool) (os : OpSize) (a : Bool) (g : Option SegName) :
    operandSize big (frontBytes big os a g).opSize = os := by
  cases big <;> cases os <;> rfl

@[simp] theorem addr32_frontBytes (big : Bool) (os : OpSize) (a : Bool) (g : Option SegName) :
    (big != (frontBytes big os a g).addrSize) = a := by
  cases big <;> cases a <;> rfl

@[simp] theorem frontBytes_count (big : Bool) (os : OpSize) (a : Bool) (g : Option SegName) :
    (frontBytes big os a g).count = (encodePrefixes big os a g).length := rfl

@[simp] theorem frontBytes_seg (big : Bool) (os : OpSize) (a : Bool) (g : Option SegName) :
    (frontBytes big os a g).seg = g := rfl

theorem readPrefixes_override (p : PrefixBytes) (g : SegName) (rest : List Byte) :
    readPrefixes p (overrideByte g :: rest) = readPrefixes { p with seg := some g, count := p.count + 1 } rest := by
  cases g <;> rfl

/-- The bytes in front of an opcode are read back, up to the opcode. -/
theorem readPrefixes_encodePrefixes (big : Bool) (os : OpSize) (a : Bool) (g : Option SegName) {rest : List Byte}
    (hop : ∀ p, readPrefixes p rest = (p, rest)) :
    readPrefixes ⟨false, false, none, false, 0⟩ (encodePrefixes big os a g ++ rest) =
      (frontBytes big os a g, rest) := by
  have sizes (p : PrefixBytes) (h1 : p.opSize = false) (h2 : p.addrSize = false) :
      readPrefixes p ((if operandSize big false = os then [] else [0x66]) ++ (if big = a then [] else [0x67]) ++ rest) =
        ({ p with
            opSize := operandSize big false != os
            addrSize := big != a
            count := p.count + ((if operandSize big false = os then [] else [0x66]) ++
              (if big = a then [] else [0x67]) : List Byte).length }, rest) := by
    obtain ⟨o, ad, sg, lr, c⟩ := p
    subst h1 h2
    obtain rfl | ha := eq_or_ne big a <;> by_cases ho : operandSize big false = os <;>
      simp [*, readPrefixes]
  cases g with
  | none => exact (sizes _ rfl rfl).trans (by simp [frontBytes, encodePrefixes])
  | some g =>
    have e : encodePrefixes big os a (some g) ++ rest = overrideByte g ::
        ((if operandSize big false = os then [] else [0x66]) ++ (if big = a then [] else [0x67]) ++ rest) := by
      simp [encodePrefixes]
    rw [e, readPrefixes_override, sizes _ rfl rfl]
    simp [frontBytes, encodePrefixes, Nat.add_comm]

/-- Decoding past the bytes in front of an opcode that is none of them itself. -/
theorem decode_encodePrefixes (big : Bool) (os : OpSize) (a : Bool) (g : Option SegName) {rest : List Byte}
    (hop : ∀ p, readPrefixes p rest = (p, rest)) :
    decode big (encodePrefixes big os a g ++ rest) = decodeOpcode big (frontBytes big os a g) rest := by
  simp only [decode, readPrefixes_encodePrefixes big os a g hop]

/-- The rows IRET and IRETD share the opcode CF, and the operand size tells them apart. -/
theorem decode_opcodeCF (big : Bool) (os : OpSize) (rest : List Byte) :
    decode big (encodePrefixes big os big none ++ 0xCF :: rest) =
      .instr (if os = .s16 then .iret else .iretd) ((encodePrefixes big os big none).length + 1) := by
  rw [decode_encodePrefixes _ _ _ _ fun p => rfl]
  cases os <;> simp [decodeOpcode]

/-- The rows POPF and POPFD share the opcode 9D. -/
theorem decode_opcode9D (big : Bool) (os : OpSize) (rest : List Byte) :
    decode big (encodePrefixes big os big none ++ 0x9D :: rest) =
      .instr (if os = .s16 then .popf else .popfd) ((encodePrefixes big os big none).length + 1) := by
  rw [decode_encodePrefixes _ _ _ _ fun p => rfl]
  cases os <;> simp [decodeOpcode]

/-- A far transfer through memory: the reg field of the ModRM byte tells JMP and CALL apart. -/
theorem decode_opcodeFF (big : Bool) (os : OpSize) (seg : Option SegName) {n : BitVec 3} {m : MemOp}
    (h : m.wellFormed = true) (rest : List Byte) :
    decode big (encodePrefixes big os m.addr32 seg ++ 0xFF :: encodeMem n m ++ rest) =
      if n = 5 then .instr (.jmpMem os seg m) (encodePrefixes big os m.addr32 seg ++ 0xFF :: encodeMem n m).length
      else if n = 3 then
        .instr (.callMem os seg m) (encodePrefixes big os m.addr32 seg ++ 0xFF :: encodeMem n m).length
      else .unlisted := by
  obtain ⟨modrm, tail, he⟩ := encodes_mem n h
  have hmod : ¬fieldMod modrm = 3#2 := he.mod
  have hlen (x : Nat) : x + 2 + tail.length = x + (tail.length + 1 + 1) := by omega
  rw [List.append_assoc, List.cons_append, decode_encodePrefixes _ _ _ _ fun p => rfl, he.bytes]
  simp [decodeOpcode, decodeGroupFF, hmod, he.reg, he.take, hlen]

/-- Settles O4: row by row, past the bytes in front of the opcode, with the operands read back. -/
theorem decodeOfEncodeIsTheInstruction : Obligations.DecodeOfEncodeIsTheInstruction := by
  intro big i rest h
  cases i with
  | movFromDR r n => simp [encode, decode, readPrefixes, overrideOf, decodeOpcode, decodeMovDebug]
  | movToDR n r => simp [encode, decode, readPrefixes, overrideOf, decodeOpcode, decodeMovDebug]
  | int3 => rfl
  | intN v => rfl
  | into => rfl
  | iret => simpa [encode] using decode_opcodeCF big .s16 rest
  | iretd => simpa [encode] using decode_opcodeCF big .s32 rest
  | popf => simpa [encode] using decode_opcode9D big .s16 rest
  | popfd => simpa [encode] using decode_opcode9D big .s32 rest
  | jmpPtr p =>
    rw [encode, List.append_assoc, List.cons_append, decode_encodePrefixes _ _ _ _ fun p => rfl]
    simp [decodeOpcode, takeFarPtr_bytes, Nat.add_assoc, Nat.add_comm 1]
  | jmpMem os seg m => exact (decode_opcodeFF big os seg h rest).trans (by rw [encode, if_pos rfl])
  | callPtr p =>
    rw [encode, List.append_assoc, List.cons_append, decode_encodePrefixes _ _ _ _ fun p => rfl]
    simp [decodeOpcode, takeFarPtr_bytes, Nat.add_assoc, Nat.add_comm 1]
  | callMem os seg m =>
    exact (decode_opcodeFF big os seg h rest).trans (by rw [encode, if_neg (by decide), if_pos rfl])

/-- Settles O5: the decoder on each word. -/
theorem sampleWordsDecode : Obligations.SampleWordsDecode := by
  unfold Obligations.SampleWordsDecode
  decide

end Sys2Proof

namespace Sys2Proof.Machine

/-! ## Fetched bytes -/

/-- The byte at a linear address can be fetched (R56). -/
def Fetchable (s : State) (a : W32) : Prop :=
  pagePresent s.cpu a = true ∧ (s.coherentFetch = true ∨ s.mem.isWritten (physical s.cpu a) = false)

theorem fetchBytes_of_fetchable {s : State} {a : W32} (h : Fetchable s a) (k : Nat) :
    fetchBytes s (k + 1) a =
      (readByte s.cpu s.mem a :: (fetchBytes s k (a + 1)).1, (fetchBytes s k (a + 1)).2) := by
  obtain ⟨hp, hw | hw⟩ := h <;> simp [fetchBytes, hp, hw]

theorem add_one_add_ofNat (a : W32) (j : Nat) : a + 1 + BitVec.ofNat 32 j = a + BitVec.ofNat 32 (j + 1) := by
  rw [BitVec.add_assoc, BitVec.add_comm 1, BitVec.ofNat_add]
  rfl

/-- Bytes that stand in memory and can be fetched come first in a fetch that is long enough; the rest of the fetch begins
after them. -/
theorem fetchBytes_append {s : State} {bs : List Byte} {a : W32}
    (h : ∀ j, ∀ hj : j < bs.length, bs[j] = readByte s.cpu s.mem (a + BitVec.ofNat 32 j) ∧
      Fetchable s (a + BitVec.ofNat 32 j)) (k : Nat) :
    fetchBytes s (bs.length + k) a = (bs ++ (fetchBytes s k (a + BitVec.ofNat 32 bs.length)).1,
      (fetchBytes s k (a + BitVec.ofNat 32 bs.length)).2) := by
  induction bs generalizing a with
  | nil => simp
  | cons b bs ih =>
    obtain ⟨hb, hf⟩ := h 0 (by simp)
    simp only [BitVec.add_zero, List.getElem_cons_zero] at hb hf
    have ih' := ih (a := a + 1) fun j hj => by
      rw [add_one_add_ofNat]
      exact h (j + 1) (Nat.succ_lt_succ hj)
    rw [add_one_add_ofNat] at ih'
    rw [List.length_cons, Nat.add_right_comm, fetchBytes_of_fetchable hf, ih', ← hb]
    rfl

/-- The encoding of an instruction fits in a fetch. -/
theorem encode_length_le (big : Bool) (i : Instr) : (encode big i).length ≤ maxLength := by
  cases i with
  | movFromDR r n => exact (Laws.EncodedLength.movFromDR r n big).2
  | movToDR n r => exact (Laws.EncodedLength.movToDR n r big).2
  | int3 => exact (Laws.EncodedLength.int3 big).2
  | intN v => exact (Laws.EncodedLength.intN v big).2
  | into => exact (Laws.EncodedLength.into big).2
  | iret => exact (Laws.EncodedLength.iret big).2
  | iretd => exact (Laws.EncodedLength.iretd big).2
  | popf => exact (Laws.EncodedLength.popf big).2
  | popfd => exact (Laws.EncodedLength.popfd big).2
  | jmpPtr p => exact (Laws.EncodedLength.jmpPtr p big).2
  | jmpMem os g m => exact (Laws.EncodedLength.jmpMem os g m big).2
  | callPtr p => exact (Laws.EncodedLength.callPtr p big).2
  | callMem os g m => exact (Laws.EncodedLength.callMem os g m big).2

/-- The converse of `decode_of_fetch_instr`. -/
theorem fetch_of_decode_instr {s : State} {i : Instr} {len : Nat}
    (h : decode s.cpu.codeBig (fetchBytes s maxLength (linIP s.cpu)).1 = .instr i len) : fetch s = .instr i len := by
  simp only [fetch, h]

/-- Settles O6: the fetch begins with the encoding, which decodes whatever follows it. -/
theorem fetchFindsTheEncodedInstruction : Obligations.FetchFindsTheEncodedInstruction := by
  intro s i hi h
  have hb := fetchBytes_append (fun j hj => ⟨(h j hj).1.symm, (h j hj).2⟩)
    (maxLength - (encode s.cpu.codeBig i).length)
  rw [Nat.add_sub_cancel' (encode_length_le _ i)] at hb
  refine fetch_of_decode_instr ?_
  rw [hb]
  exact decodeOfEncodeIsTheInstruction s.cpu.codeBig i _ hi

/-! ## The step of an instruction -/

/-- A step with nothing before the instruction runs it. -/
theorem ReadyToRun.step {s : State} (h : ReadyToRun s) : step s = countStep (runInstruction s) := by
  simp [Machine.step, cycle, h.pendingBT, h.codes, h.noFault]

/-- Where the fetch is refused, so is the step. -/
theorem ReadyToRun.step_refused {s : State} (h : ReadyToRun s) {r : Refusal} (hf : fetch s = .refused r) :
    Machine.step s = .refused r := by
  simp only [h.step, runInstruction, hf, countStep]

/-- Settles O7: the fetch finds what the bytes decode to. -/
theorem stepRunsTheDecodedInstruction : Obligations.StepRunsTheDecodedInstruction := by
  intro s i len hd h
  refine ⟨rfl, rfl, ?_⟩
  simp only [h.step, runInstruction, fetch_of_decode_instr hd]

/-- A fetch that meets a written byte before the instruction is complete is refused (R56). -/
theorem fetch_written {s : State} {bs : List Byte} (hb : fetchBytes s maxLength (linIP s.cpu) = (bs, .written))
    (hd : decode s.cpu.codeBig bs = .truncated ∨
      decode s.cpu.codeBig bs = .unlisted ∧ bs.length < Config.otherLength s.tick) :
    fetch s = .refused .writtenCodeFetched := by
  rcases hd with hd | ⟨hd, hl⟩
  · simp only [fetch, hb, hd, fetchStopped]
  · simp only [fetch, hb, hd, fetchStopped, if_neg (Nat.not_le.mpr hl)]

/-- Settles O58: the fetch ends at the written byte. -/
theorem writtenCodeIsRefused : Obligations.WrittenCodeIsRefused := by
  intro s bs h hc hlen hbs hd hp hw
  refine h.step_refused (fetch_written ?_ hd)
  have hb := fetchBytes_append (fun j hj => ⟨(hbs j hj).1, (hbs j hj).2.1, Or.inr (hbs j hj).2.2⟩)
    (maxLength - bs.length)
  obtain ⟨k, hk⟩ : ∃ k, maxLength - bs.length = k + 1 := ⟨_, (Nat.succ_pred (by omega)).symm⟩
  rw [Nat.add_sub_cancel' hlen.le, hk] at hb
  rw [hb]
  simp [fetchBytes, hp, hw, hc]

/-- Settles O59: by the ModRM byte at decode, by the fetch at the step. -/
theorem movDebugOtherModIsRefused : Obligations.MovDebugOtherModIsRefused := by
  refine ⟨fun big toDebug modrm rest hm => ?_, fun s h hd => h.step_refused ?_⟩
  · have hm' : ¬fieldMod modrm = 3#2 := hm
    cases toDebug <;> simp [decode, readPrefixes, overrideOf, decodeOpcode, decodeMovDebug, hm']
  · simp only [fetch, hd]

end Sys2Proof.Machine
end

section
/-! PROOFS. What the instructions of the table do: MOV to and from a debug register (40), software interrupts (41). -/

namespace Sys2Proof.Machine

/-! ## MOV to and from a debug register -/

theorem exec_movFromDR {s : State} {n : DReg} {v : W32} (hp : s.cpu.privilege = 0) (hv : readDebug s n = some v)
    (r : Reg) : exec (.movFromDR r n) s = .next (retire []
      { s with cpu := { s.cpu with
        regs := s.cpu.regs.set r v
        flags := s.cpu.flags.withArith (Config.movDebugFlags s.tick) } }) := by
  simp [exec, execMovFromDR, hp, hv]

theorem exec_movToDR {s : State} {n : DReg} {r : Reg} {d : Debug} (hp : s.cpu.privilege = 0)
    (hd : writeDebug s.dbg n (s.cpu.regs.get r) = some d) : exec (.movToDR n r) s = .next (retire []
      { s with
        cpu := { s.cpu with flags := s.cpu.flags.withArith (Config.movDebugFlags s.tick) }
        dbg := d }) := by
  simp [exec, execMovToDR, hp, hd]

theorem exec_movDebug_unprivileged {s : State} (hp : s.cpu.privilege ≠ 0) (r : Reg) (n : DReg) :
    exec (.movFromDR r n) s = .next (raise (gpFault 0) s) ∧ exec (.movToDR n r) s = .next (raise (gpFault 0) s) := by
  constructor
  · simp only [exec, execMovFromDR, if_pos hp]
  · simp only [exec, execMovToDR, if_pos hp]

theorem readDebug_isSome (s : State) {n : DReg} (h4 : n ≠ .dr4) (h5 : n ≠ .dr5) : ∃ v, readDebug s n = some v := by
  cases n
  case dr4 => exact absurd rfl h4
  case dr5 => exact absurd rfl h5
  all_goals exact ⟨_, rfl⟩

theorem writeDebug_isSome (d : Debug) {n : DReg} (v : W32) (h4 : n ≠ .dr4) (h5 : n ≠ .dr5) :
    ∃ e, writeDebug d n v = some e := by
  cases n
  case dr4 => exact absurd rfl h4
  case dr5 => exact absurd rfl h5
  all_goals exact ⟨_, rfl⟩

/-- The named bits of a register read as written, whatever its reserved bits read as (R35). -/
theorem readReserved_defined (premise : Bool) (v defined draw : W32) :
    readReserved premise v defined draw &&& defined = v &&& defined := by
  unfold readReserved
  split
  · rfl
  · ext i
    simp only [BitVec.getElem_and, BitVec.getElem_or, BitVec.getElem_not]
    cases defined[i] <;> simp

/-- Under the premise a register whose reserved bits are 0 reads as written (R35). -/
theorem readReserved_premise {v defined : W32} (h : v &&& ~~~defined = 0) (draw : W32) :
    readReserved true v defined draw = v := by
  simp [readReserved, h]

/-- Settles O9: the read register takes the value, and the completion changes EIP, RF and the arithmetic flags. -/
theorem movFromDebugRegisterCompletes : Obligations.MovFromDebugRegisterCompletes := by
  intro s r n hp h4 h5
  obtain ⟨v, hv⟩ := readDebug_isSome s h4 h5
  have hget (w : W32) (hw : readDebug s n = some w) : (s.cpu.regs.set r v).get r = w := by
    rw [Regs.get_set_same]
    exact Option.some.inj (hv.symm.trans hw)
  refine ⟨_, exec_movFromDR hp hv r, ?_, ?_, ?_, ?_, ?_, ?_, fun q hq => Regs.get_set_other _ _ hq,
    rfl, rfl, rfl, rfl, ⟨rfl, rfl, rfl, rfl, rfl, rfl⟩, ⟨rfl, rfl, rfl, rfl, rfl⟩,
    ⟨rfl, rfl, rfl, rfl, rfl, rfl, rfl, rfl⟩, ⟨rfl, rfl, rfl, rfl, rfl, rfl, rfl, rfl, rfl, rfl⟩, rfl, rfl, rfl⟩
  · rintro rfl; exact hget _ rfl
  · rintro rfl; exact hget _ rfl
  · rintro rfl; exact hget _ rfl
  · rintro rfl; exact hget _ rfl
  · rintro rfl
    exact (congrArg (· &&& definedDR6) (hget _ rfl)).trans (readReserved_defined _ _ _ _)
  · rintro rfl
    exact (congrArg (· &&& definedDR7) (hget _ rfl)).trans (readReserved_defined _ _ _ _)

/-- Settles O10: by the reading of a register with reserved bits under the premise. -/
theorem reservedBitsReadAsWrittenUnderThePremise : Obligations.ReservedBitsReadAsWrittenUnderThePremise := by
  intro s r hp hr
  constructor <;> intro h
  · have hv : readDebug s .dr6 = some s.dbg.dr6 := by
      rw [readDebug, hr, readReserved_premise h]
    exact ⟨_, exec_movFromDR hp hv r, Regs.get_set_same _ _ _⟩
  · have hv : readDebug s .dr7 = some s.dbg.dr7 := by
      rw [readDebug, hr, readReserved_premise h]
    exact ⟨_, exec_movFromDR hp hv r, Regs.get_set_same _ _ _⟩

/-- Settles O11: the written register takes the value, by the register named. -/
theorem movToDebugRegisterCompletes : Obligations.MovToDebugRegisterCompletes := by
  intro s n r hp h4 h5
  obtain ⟨d, hd⟩ := writeDebug_isSome s.dbg (s.cpu.regs.get r) h4 h5
  have hw : d.dr0 = (if n = .dr0 then s.cpu.regs.get r else s.dbg.dr0) ∧
      d.dr1 = (if n = .dr1 then s.cpu.regs.get r else s.dbg.dr1) ∧
      d.dr2 = (if n = .dr2 then s.cpu.regs.get r else s.dbg.dr2) ∧
      d.dr3 = (if n = .dr3 then s.cpu.regs.get r else s.dbg.dr3) ∧
      d.dr6 = (if n = .dr6 then s.cpu.regs.get r else s.dbg.dr6) ∧
      d.dr7 = (if n = .dr7 then s.cpu.regs.get r else s.dbg.dr7) := by
    cases n <;> simp [writeDebug] at hd <;> subst hd <;> simp
  obtain ⟨h0, h1, h2, h3, h6, h7⟩ := hw
  exact ⟨_, exec_movToDR hp hd, h0, h1, h2, h3, h6, h7, fun _ => rfl, rfl, rfl, rfl, rfl,
    ⟨rfl, rfl, rfl, rfl, rfl, rfl⟩, ⟨rfl, rfl, rfl, rfl, rfl⟩, ⟨rfl, rfl, rfl, rfl, rfl, rfl, rfl, rfl⟩,
    ⟨rfl, rfl, rfl, rfl, rfl, rfl, rfl, rfl, rfl, rfl⟩, rfl, rfl⟩

/-- Settles O12: both forms raise general protection with error code 0 there. -/
theorem movDebugNeedsLevelZero : Obligations.MovDebugNeedsLevelZero :=
  fun _ r n hp => exec_movDebug_unprivileged hp r n

/-- Settles O13: neither register has a value to read or to write. -/
theorem movDebugRefusesDR4AndDR5 : Obligations.MovDebugRefusesDR4AndDR5 := by
  rintro s r n hp (rfl | rfl) <;>
    simp [exec, execMovFromDR, execMovToDR, hp, readDebug, writeDebug]

/-! ## Software interrupts -/

/-- A software interrupt without a fault of its delivery enters its handler. -/
theorem exec_softInt {i : Instr} {s : State} {v : Byte} (hv : softVector i s = some v)
    (hf : softIntFault s v (needsIOPL i) = none) : exec i s = .next (softIntEntry v s) := by
  rw [exec_softVector hv, softInt, hf]

/-- A software interrupt whose delivery takes a fault raises it. -/
theorem exec_softInt_fault {i : Instr} {s : State} {v : Byte} {f : BaseFault} (hv : softVector i s = some v)
    (hf : softIntFault s v (needsIOPL i) = some f) : exec i s = .next (raise f s) := by
  rw [exec_softVector hv, softInt, hf]

/-- A software interrupt into a procedure: the entry, with RF cleared at completion (R116). -/
theorem softIntEntry_procedure {s : State} {v : Byte} {h : Handler} (hg : gateOf s.cpu s.mem v = .procedure h) :
    softIntEntry v s = { enterProcedure h .trap s.nip none s with
      cpu := (enterProcedure h .trap s.nip none s).cpu.setRF false
      boundary := some ⟨[], true⟩ } := by
  simp only [softIntEntry, deliver_procedure hg, hg]
  rfl

/-- Settles O14: the entry of the handler, of which only ESP and the pushed frame are not given. -/
theorem softwareInterruptEntersTheProcedure : Obligations.SoftwareInterruptEntersTheProcedure := by
  intro i s v h hv hf hg
  refine ⟨_, exec_softInt hv hf, ?_⟩
  rw [softIntEntry_procedure hg]
  obtain ⟨esp, hcpu⟩ := enterProcedure_cpu h .trap s.nip none s
  have hmem := deliver_procedure_read_other (k := .trap) (ret := s.nip) hg
  rw [(deliver_procedure_cpu hg).2.1] at hmem
  rw [hcpu]
  refine ⟨rfl, rfl, rfl, rfl, rfl, regsSameButESP_withESP _ _, fun hv86 => ?_, fun hv86 => ?_,
    ⟨rfl, rfl, rfl, rfl, rfl, rfl, rfl, rfl⟩, ⟨rfl, rfl, rfl, rfl, rfl, rfl, rfl, rfl, rfl, rfl⟩, rfl, rfl, hmem⟩
  · simp [hv86]
  · simp [hv86]

/-- Settles O15: the frame that the entry as a trap pushed. -/
theorem softwareInterruptSavesTheNextInstruction : Obligations.SoftwareInterruptSavesTheNextInstruction := by
  intro i s t v h hv hf hg hp hm he
  cases (exec_softInt hv hf).symm.trans he
  rw [softIntEntry_procedure hg]
  exact SavedFrame.congr (s := enterProcedure h .trap s.nip none s) ⟨rfl, rfl, rfl, rfl, rfl⟩ rfl
    (enterProcedure_frame hp hm h .trap s.nip none)

/-- Settles O16: with OF = 0 INTO retires. -/
theorem intoWithoutOverflowOnlyAdvances : Obligations.IntoWithoutOverflowOnlyAdvances := by
  intro s ho
  refine ⟨retire [] s, by simp [exec, execInto, ho], rfl, ⟨rfl, rfl, rfl, rfl, rfl, rfl, rfl, rfl, rfl, rfl⟩,
    rfl, rfl, rfl⟩

theorem isV86_eq_false {c : Cpu} (h : c.flags.vm = false) : c.isV86 = false := by simp [Cpu.isV86, h]

/-- Past its gate a software interrupt takes the faults of its handler. -/
theorem softIntFault_of_gate {s : State} {v : Byte} {b : Bool} {g : Gate} (hf : gateFault s.cpu v b = none)
    (hg : gateOf s.cpu s.mem v = g) : softIntFault s v b = handlerFault s.cpu g := by
  rw [softIntFault, hf, hg]

/-- Settles O17: each fault by its place in the checks of the gate and of the handler. -/
theorem softwareInterruptChecksItsGate : Obligations.SoftwareInterruptChecksItsGate := by
  refine ⟨fun i s v e hv he hp hvm hd => ?_, fun i s v h hv hf hg hp hvm hl => ?_,
    fun i s v h f hv hf hg hl ha => ⟨accessesFault_vec ha, ?_⟩, fun i s v e f hv hf hg ha => ⟨accessesFault_vec ha, ?_⟩⟩
  · have hpriv : s.cpu.privilege = s.cpu.cpl := by simp [Cpu.privilege, hp, hvm]
    refine exec_softInt_fault hv ?_
    simp [softIntFault, gateFault, isV86_eq_false hvm, he, hp, hpriv, hd]
  · refine exec_softInt_fault hv ((softIntFault_of_gate hf hg).trans ?_)
    simp [handlerFault, hp, hvm, hl]
  · refine exec_softInt_fault hv ((softIntFault_of_gate hf hg).trans ?_)
    have hlevel : (s.cpu.protectedMode &&
        (if s.cpu.flags.vm then h.cpl != 0 else decide (s.cpu.cpl < h.cpl))) = false := by
      rcases hl with ⟨hvm, hle⟩ | ⟨hvm, h0⟩
      · simp [hvm, hle]
      · simp [hvm, h0]
    simp only [handlerFault, hlevel, Bool.false_eq_true, if_false, ha]
  · exact exec_softInt_fault hv ((softIntFault_of_gate hf hg).trans ha)

end Sys2Proof.Machine
end

section
/-! PROOFS. Flag-loading instructions, far transfers and task switches of an instruction (42), and RF at completion
(R116). -/

namespace Sys2Proof.Machine

theorem attempt_of_none {s : State} {l : List Access} (h : accessesFault s.cpu l = none) (t : State) :
    attempt l s t = t := by
  rw [attempt, h]

/-! ## Which meaning an instruction has -/

theorem exec_return {i : Instr} {k : Nat} (h : returnWidth i = some k) (s : State) :
    exec i s = .next (interruptReturn k s) := by
  cases i <;> simp [returnWidth] at h <;> subst h <;> rfl

theorem exec_popFlags {i : Instr} {k : Nat} (h : popWidth i = some k) (s : State) :
    exec i s = .next (popFlags k s) := by
  cases i <;> simp [popWidth] at h <;> subst h <;> rfl

theorem exec_far {i : Instr} {s : State} {o : FarOperand} (h : farOperand i s = some o) :
    exec i s = .next (if o.isCall then farCall o.os o.accesses o.sel o.off s
      else farJump o.accesses o.sel o.off s) := by
  cases i <;> simp [farOperand] at h <;> subst h <;> rfl

theorem exec_farCall {i : Instr} {s : State} {o : FarOperand} (h : farOperand i s = some o) (hc : o.isCall = true) :
    exec i s = .next (farCall o.os o.accesses o.sel o.off s) := by
  rw [exec_far h, if_pos hc]

theorem exec_farJump {i : Instr} {s : State} {o : FarOperand} (h : farOperand i s = some o) (hc : o.isCall = false) :
    exec i s = .next (farJump o.accesses o.sel o.off s) := by
  rw [exec_far h, hc, if_neg Bool.false_ne_true]

/-! ## Loading a flags image -/

theorem loadFlags_rf (c : Cpu) (k : Nat) (new : Flags) :
    (loadFlags c (k == 4) new).rf = if k = 4 then new.rf else c.flags.rf := by
  by_cases h : k = 4 <;> simp [loadFlags, h]

theorem regsSameButESP_popBytes (c : Cpu) (n : Nat) : RegsSameButESP c.regs (popBytes c n).regs :=
  regsSameButESP_withESP _ _

theorem stackTop_popBytes (c : Cpu) (n : Nat) :
    stackTop (popBytes c n) = wrapStack c (stackTop c + BitVec.ofNat 32 n) := stackTop_setStackTop _ _

/-- Settles O21: the pop of the image, in a mode that allows it. -/
theorem popFlagsLoadsTheImage : Obligations.PopFlagsLoadsTheImage := by
  intro i k s hi hmode ha
  have hv : (s.cpu.isV86 && s.cpu.flags.iopl != 3) = false := by
    rcases hmode with h | h <;> simp [h]
  have he : popFlags k s = popFlagsDone k s := by
    rw [popFlags, hv, if_neg Bool.false_ne_true, attempt_of_none ha]
  refine ⟨_, (exec_popFlags hi s).trans (congrArg _ he), rfl, rfl, rfl, stackTop_popBytes s.cpu k,
    regsSameButESP_popBytes s.cpu k, rfl, loadFlags_rf s.cpu k (Flags.ofImage (stackValue s 0 k)), rfl, rfl,
    ⟨rfl, rfl, rfl, rfl, rfl⟩, ⟨rfl, rfl, rfl, rfl, rfl, rfl, rfl, rfl⟩,
    ⟨rfl, rfl, rfl, rfl, rfl, rfl, rfl, rfl, rfl, rfl⟩, rfl, rfl, rfl⟩

/-! ## What a return does -/

/-- A link names a TSS, or the return faults. -/
theorem taskLink_cases (s : State) : (∃ t, taskLink s = .taskReturn t) ∨ ∃ f, taskLink s = .faults f := by
  unfold taskLink
  dsimp only
  split
  · exact Or.inl ⟨_, rfl⟩
  · exact Or.inr ⟨_, rfl⟩

theorem protectedReturn_cases (s : State) (sel : W16) : (∃ cs, protectedReturn s sel = .same cs) ∨
    (∃ cs, protectedReturn s sel = .outer cs) ∨ ∃ f, protectedReturn s sel = .faults f := by
  unfold protectedReturn
  split
  · split
    · exact Or.inr (Or.inr ⟨_, rfl⟩)
    · split
      · exact Or.inl ⟨_, rfl⟩
      · split
        · exact Or.inr (Or.inl ⟨_, rfl⟩)
        · exact Or.inr (Or.inr ⟨_, rfl⟩)
  · exact Or.inr (Or.inr ⟨_, rfl⟩)

/-- The mode decides what a return reads (log 25): nothing in virtual-8086 mode with IOPL below 3, the link in a nested
task, and the frame else. -/
inductive ReturnMode (s : State) (k : Nat) : Prop where
  | unprivileged (v86 : s.cpu.isV86 = true) (iopl : s.cpu.flags.iopl ≠ 3) (kind : returnKind s k = .faults (gpFault 0))
  | linked (protectedMode : s.cpu.protectedMode = true) (vm : s.cpu.flags.vm = false) (nt : s.cpu.flags.nt = true)
      (kind : returnKind s k = taskLink s)
  | frame (privileged : (s.cpu.isV86 && s.cpu.flags.iopl != 3) = false)
      (unlinked : (s.cpu.protectedMode && !s.cpu.flags.vm && s.cpu.flags.nt) = false)
      (kind : returnKind s k = .real ∨ k = 4 ∧ returnKind s k = .toV86 ∨
        returnKind s k = protectedReturn s (frameCS s k))

theorem returnMode (s : State) (k : Nat) : ReturnMode s k := by
  cases hp : s.cpu.protectedMode
  · exact .frame (by simp [Cpu.isV86, hp]) (by simp [hp]) (Or.inl (by simp [returnKind, hp]))
  cases hv : s.cpu.flags.vm
  · cases hn : s.cpu.flags.nt
    · refine .frame (by simp [Cpu.isV86, hv]) (by simp [hn]) (Or.inr ?_)
      by_cases h : (k = 4 && (frameFlags s k).vm && s.cpu.cpl == 0) = true
      · refine Or.inl ⟨by simp at h; exact h.1.1, ?_⟩
        simp only [returnKind, hp, hv, hn, Bool.not_true, Bool.false_eq_true, if_false, if_pos h]
      · refine Or.inr ?_
        simp only [returnKind, hp, hv, hn, Bool.not_true, Bool.false_eq_true, if_false, if_neg h]
    · exact .linked hp hv hn (by simp [returnKind, hp, hv, hn])
  · by_cases hi : s.cpu.flags.iopl = 3
    · exact .frame (by simp [hi]) (by simp [hv]) (Or.inl (by simp [returnKind, hp, hv, hi]))
    · exact .unprivileged (by simp [Cpu.isV86, hp, hv]) hi (by
        simp only [returnKind, hp, hv, Bool.not_true, Bool.false_eq_true, if_false, if_true, if_neg hi])

/-- A return that neither faults nor goes to a linked task reads the frame. -/
theorem returnKind_frame {s : State} {k : Nat} (hf : ∀ f, returnKind s k ≠ .faults f)
    (ht : ∀ t, returnKind s k ≠ .taskReturn t) :
    (s.cpu.isV86 && s.cpu.flags.iopl != 3) = false ∧
      (s.cpu.protectedMode && !s.cpu.flags.vm && s.cpu.flags.nt) = false := by
  cases returnMode s k with
  | unprivileged _ _ kind => exact absurd kind (hf _)
  | linked _ _ _ kind =>
    rcases taskLink_cases s with ⟨t, h⟩ | ⟨f, h⟩
    · exact absurd (kind.trans h) (ht t)
    · exact absurd (kind.trans h) (hf f)
  | frame privileged unlinked => exact ⟨privileged, unlinked⟩

/-- A return to a linked task is made in protected mode with NT = 1. -/
theorem returnKind_taskReturn {s : State} {k : Nat} {t : TssRef} (h : returnKind s k = .taskReturn t) :
    s.cpu.protectedMode = true ∧ s.cpu.flags.vm = false ∧ s.cpu.flags.nt = true := by
  cases returnMode s k with
  | unprivileged _ _ kind => rw [kind] at h; cases h
  | linked hp hv hn _ => exact ⟨hp, hv, hn⟩
  | frame _ _ kind =>
    rcases kind with kind | ⟨_, kind⟩ | kind
    · rw [kind] at h; cases h
    · rw [kind] at h; cases h
    · rcases protectedReturn_cases s (frameCS s k) with ⟨cs, he⟩ | ⟨cs, he⟩ | ⟨f, he⟩ <;>
        rw [kind, he] at h <;> cases h

/-- Only an IRETD returns to virtual-8086 mode. -/
theorem returnKind_toV86 {s : State} {k : Nat} (h : returnKind s k = .toV86) : k = 4 := by
  cases returnMode s k with
  | unprivileged _ _ kind => rw [kind] at h; cases h
  | linked _ _ _ kind =>
    rcases taskLink_cases s with ⟨t, he⟩ | ⟨f, he⟩ <;> rw [kind, he] at h <;> cases h
  | frame _ _ kind =>
    rcases kind with kind | ⟨hk, _⟩ | kind
    · rw [kind] at h; cases h
    · exact hk
    · rcases protectedReturn_cases s (frameCS s k) with ⟨cs, he⟩ | ⟨cs, he⟩ | ⟨f, he⟩ <;>
        rw [kind, he] at h <;> cases h

section
variable {s : State} {k : Nat} {cs : Seg} (ha : accessesFault s.cpu (frameReads s.cpu k) = none)
include ha

theorem interruptReturn_real (h : returnKind s k = .real) : interruptReturn k s =
    complete (frameReads s.cpu k) { s with cpu := loadFrame s k (segReal (frameCS s k)) } := by
  obtain ⟨h1, h2⟩ := returnKind_frame (s := s) (k := k) (by simp [h]) (by simp [h])
  simp only [interruptReturn, returnFault, h1, h2, ha, h, returnDone, Bool.false_eq_true, if_false]

theorem interruptReturn_same (h : returnKind s k = .same cs) : interruptReturn k s =
    complete (frameReads s.cpu k) { s with cpu := loadFrame s k cs } := by
  obtain ⟨h1, h2⟩ := returnKind_frame (s := s) (k := k) (by simp [h]) (by simp [h])
  simp only [interruptReturn, returnFault, h1, h2, ha, h, returnDone, Bool.false_eq_true, if_false]

theorem interruptReturn_outer (h : returnKind s k = .outer cs)
    (hb : accessesFault s.cpu [stackRead s.cpu (3 * k) k, stackRead s.cpu (4 * k) k] = none) :
    interruptReturn k s = complete (frameReads s.cpu k ++ [stackRead s.cpu (3 * k) k, stackRead s.cpu (4 * k) k])
      { s with cpu := loadOuterFrame s k cs } := by
  obtain ⟨h1, h2⟩ := returnKind_frame (s := s) (k := k) (by simp [h]) (by simp [h])
  simp only [interruptReturn, returnFault, h1, h2, ha, hb, h, returnDone, Bool.false_eq_true, if_false]

theorem interruptReturn_toV86 (h : returnKind s k = .toV86)
    (hb : accessesFault s.cpu ([3, 4, 5, 6, 7, 8].map fun i => stackRead s.cpu (4 * i) 4) = none) :
    interruptReturn k s =
      complete (frameReads s.cpu 4 ++ [3, 4, 5, 6, 7, 8].map fun i => stackRead s.cpu (4 * i) 4)
        { s with cpu := loadV86Frame s } := by
  obtain ⟨h1, h2⟩ := returnKind_frame (s := s) (k := k) (by simp [h]) (by simp [h])
  simp only [interruptReturn, returnFault, h1, h2, ha, hb, h, returnDone, Bool.false_eq_true, if_false]

end

/-- Settles O18: the frame is loaded, in real mode with its CS as a real-mode segment. -/
theorem interruptReturnLoadsTheFrame : Obligations.InterruptReturnLoadsTheFrame := by
  intro i k s cs hi hk ha
  have he : interruptReturn k s = complete (frameReads s.cpu k) { s with cpu := loadFrame s k cs } := by
    rcases hk with ⟨h, rfl⟩ | h
    · exact interruptReturn_real ha h
    · exact interruptReturn_same ha h
  exact ⟨_, (exec_return hi s).trans (congrArg _ he), rfl, rfl, rfl,
    stackTop_popBytes s.cpu (3 * k), regsSameButESP_popBytes s.cpu (3 * k), rfl, loadFlags_rf s.cpu k (frameFlags s k),
    rfl, rfl, ⟨rfl, rfl, rfl, rfl, rfl⟩,
    ⟨rfl, rfl, rfl, rfl, rfl, rfl, rfl, rfl⟩, ⟨rfl, rfl, rfl, rfl, rfl, rfl, rfl, rfl, rfl, rfl⟩, rfl, rfl, rfl⟩

/-- Settles O19: the longer frame is loaded. -/
theorem interruptReturnToAnOuterLevel : Obligations.InterruptReturnToAnOuterLevel := by
  intro i k s cs hi hk ha hb
  exact ⟨_, (exec_return hi s).trans (congrArg _ (interruptReturn_outer ha hk hb)), rfl, rfl, rfl, rfl, rfl,
    regsSameButESP_withESP _ _, rfl, loadFlags_rf s.cpu k (frameFlags s k), rfl, rfl, rfl, rfl, rfl, rfl,
    ⟨rfl, rfl, rfl, rfl, rfl, rfl, rfl, rfl⟩, ⟨rfl, rfl, rfl, rfl, rfl, rfl, rfl, rfl, rfl, rfl⟩, rfl, rfl, rfl⟩

/-- Settles O20: the frame of a return to virtual-8086 mode is loaded. -/
theorem interruptReturnToVirtual8086Mode : Obligations.InterruptReturnToVirtual8086Mode := by
  intro s hk ha hb
  exact ⟨_, (exec_return rfl s).trans (congrArg _ (interruptReturn_toV86 ha hk hb)), rfl, rfl, rfl, rfl, rfl,
    regsSameButESP_withESP _ _, rfl, rfl, rfl, rfl, rfl,
    ⟨rfl, rfl, rfl, rfl, rfl, rfl, rfl, rfl⟩, ⟨rfl, rfl, rfl, rfl, rfl, rfl, rfl, rfl, rfl, rfl⟩, rfl, rfl⟩

/-- Settles O22: IOPL is the first check of both. -/
theorem flagLoadsInV86NeedIOPL : Obligations.FlagLoadsInV86NeedIOPL := by
  intro i s hi hv hio
  have h : (s.cpu.isV86 && s.cpu.flags.iopl != 3) = true := by
    rw [hv, Bool.true_and]
    exact bne_iff_ne.mpr hio
  have hpop (k : Nat) : popFlags k s = raise (gpFault 0) s := by rw [popFlags, if_pos h]
  have hret (k : Nat) : interruptReturn k s = raise (gpFault 0) s := by
    simp only [interruptReturn, returnFault, if_pos h]
  rcases hi with rfl | rfl | rfl | rfl
  · rw [exec_popFlags rfl, hpop]
  · rw [exec_popFlags rfl, hpop]
  · rw [exec_return rfl, hret]
  · rw [exec_return rfl, hret]

/-! ## Far transfers without a task switch -/

/-- Settles O23: each kind of far JMP enters its target. -/
theorem farJumpTransfersControl : Obligations.FarJumpTransfersControl := by
  intro i s o cs eip ho hc ha hk
  have he : jumpDone o.accesses o.sel o.off s =
      complete o.accesses { s with cpu := enterFar s.cpu cs eip s.cpu.cpl } := by
    rcases hk with ⟨hk, rfl, rfl⟩ | ⟨hk, rfl⟩ | ⟨h, hk, rfl, rfl⟩ <;> simp only [jumpDone, hk]
  exact ⟨_, (exec_farJump ho hc).trans (congrArg _ ((attempt_of_none ha _).trans he)), rfl,
    ⟨rfl, rfl, rfl, rfl, rfl, rfl, rfl, rfl, rfl, rfl⟩, rfl, rfl, rfl⟩

/-- A far CALL that can push is complete with the pushes made. -/
theorem callPush_of_none {l : List Access} {stack : Cpu} {k : Nat} {values : List W32} {s : State}
    (h : accessesFault s.cpu (l ++ pushAccesses stack k values.length) = none) (cs : Seg) (eip : W32)
    (cpl : BitVec 2) : callPush l stack k values cs eip cpl s =
      complete (l ++ pushAccesses stack k values.length)
        { s with
          cpu := enterFar (pushAll stack s.mem k values).1 cs eip cpl
          mem := (pushAll stack s.mem k values).2 } := attempt_of_none h _

/-- Without paging, the return offset and CS are the last two values that a far CALL pushed. -/
theorem callPush_readback {c : Cpu} {m : Memory} (hp : c.paging = false) (hm : m.wf = true) {k : Nat}
    (hk : k = 4 ∨ k = 2) {l : List W32} (hl : l.length ≤ 8) {sel : W16} {nip : W32} {t : State}
    (hc : StackSame (pushAll c m k (l ++ [sel.setWidth 32, nip])).1 t.cpu)
    (ht : t.mem = (pushAll c m k (l ++ [sel.setWidth 32, nip])).2) :
    stackValue t 0 k = lowBytes k nip ∧ stackValue t k k = sel.setWidth 32 := by
  have hlen : (l ++ [sel.setWidth 32, nip]).length ≤ 10 := by simpa using hl
  have h0 := stackValue_pushAll (i := 0) (v := nip) hp hm hk hlen (by simp) hc ht
  have h1 := stackValue_pushAll (i := 1) (v := sel.setWidth 32) hp hm hk hlen (by simp) hc ht
  rw [Nat.mul_one, lowLE_selector hk] at h1
  exact ⟨h0.trans (lowLE_eq_lowBytes hk _), h1⟩

/-- Settles O24: the far CALL pushes and enters its target. -/
theorem farCallPushesTheReturnAddress : Obligations.FarCallPushesTheReturnAddress := by
  intro i s o cs ho hc ha hb hk
  obtain ⟨esp, hesp⟩ := pushAll_cpu s.cpu s.mem (opBytes o.os) [s.cpu.cs.sel.setWidth 32, s.nip]
  have he : callDone o.os o.accesses o.sel o.off s =
      callPush o.accesses s.cpu (opBytes o.os) [s.cpu.cs.sel.setWidth 32, s.nip] cs o.off s.cpu.cpl s := by
    rcases hk with ⟨hk, rfl⟩ | hk <;> simp only [callDone, hk]
  have hx := (exec_farCall ho hc).trans
    (congrArg _ ((attempt_of_none ha _).trans (he.trans (callPush_of_none hb _ _ _))))
  refine ⟨_, hx, rfl, rfl, rfl, ?_, ?_, ?_, ?_, ⟨rfl, rfl, rfl, rfl, rfl, rfl, rfl, rfl, rfl, rfl⟩, rfl, rfl,
    pushAll_sameBut _ _ _ _, fun hp hm => callPush_readback (l := []) hp hm (opBytes_eq _) (by simp)
      ⟨rfl, rfl, rfl, rfl, rfl⟩ rfl⟩
  · rw [complete_cpu, enterFar_flags, hesp]
  · rw [complete_cpu, enterFar_regs, hesp]; exact regsSameButESP_withESP _ _
  · rw [complete_cpu, hesp]; exact ⟨rfl, rfl, rfl, rfl, rfl⟩
  · rw [complete_cpu, hesp]; exact ⟨rfl, rfl, rfl, rfl, rfl, rfl, rfl, rfl⟩

/-- Settles O25: the CALL through a gate pushes on the stack of the gate's level and enters it. -/
theorem callThroughAGateKeepsTF : Obligations.CallThroughAGateKeepsTF := by
  intro i s o h n ho hc hk hn ha hb
  set front : List W32 := if switchesStack s.cpu h then [s.cpu.ss.sel.setWidth 32, s.cpu.regs.esp] else [] with hfront
  have hlen : (front ++ [s.cpu.cs.sel.setWidth 32, s.nip]).length = n := by
    rw [hn, hfront]; split <;> rfl
  obtain ⟨esp, hesp⟩ := pushAll_entryStack s.cpu h s.mem (frameWidth h) (front ++ [s.cpu.cs.sel.setWidth 32, s.nip])
  have he : callDone o.os o.accesses o.sel o.off s = callPush o.accesses (entryStack s.cpu h) (frameWidth h)
      (front ++ [s.cpu.cs.sel.setWidth 32, s.nip]) h.cs h.eip h.cpl s := by
    simp only [callDone, hk, hfront]
  rw [← hlen] at hb ⊢
  have hx := (exec_farCall ho hc).trans
    (congrArg _ ((attempt_of_none ha _).trans (he.trans (callPush_of_none hb _ _ _))))
  refine ⟨_, hx, rfl, rfl, rfl, ?_, ?_, ?_, ?_, ?_, ?_, ?_, ?_, ⟨rfl, rfl, rfl, rfl, rfl, rfl, rfl, rfl, rfl, rfl⟩,
    rfl, rfl, pushAll_sameBut _ _ _ _, fun hp hm => callPush_readback ((entryStack_paging _ _).trans hp) hm
      (frameWidth_eq h) (by rw [hfront]; split <;> simp) ⟨rfl, rfl, rfl, rfl, rfl⟩ rfl⟩
  · rw [complete_cpu, hesp]; rfl
  · rw [complete_cpu, enterFar_flags, hesp]
  · rw [complete_cpu, enterFar_regs, hesp]; exact regsSameButESP_withESP _ _
  · rw [complete_cpu, hesp]; rfl
  · rw [complete_cpu, hesp]; rfl
  · rw [complete_cpu, hesp]; rfl
  · rw [complete_cpu, hesp]; rfl
  · rw [complete_cpu, hesp]; exact ⟨rfl, rfl, rfl, rfl, rfl, rfl, rfl, rfl⟩

end Sys2Proof.Machine
end

section
/-! PROOFS. Task switches made by instructions (R102), RF at completion (R116), the flags image (R24, R25), and the return
from a debug fault (R118). -/

namespace Sys2Proof.Machine

/-! ## Which instruction switches tasks -/

theorem taskTarget_far {i : Instr} {s : State} {o : FarOperand} (h : farOperand i s = some o) (e : TssRef) :
    taskTarget i s = some e ↔ farKind s.cpu o.sel o.isCall = .task e := by
  cases i <;> simp [farOperand] at h <;> subst h <;> simp only [taskTarget] <;> split <;> simp_all

theorem taskTarget_return {i : Instr} {k : Nat} (h : returnWidth i = some k) (s : State) (e : TssRef) :
    taskTarget i s = some e ↔ returnKind s k = .taskReturn e := by
  cases i <;> simp [returnWidth] at h <;> subst h <;> simp only [taskTarget] <;> split <;> simp_all

theorem taskTarget_soft {i : Instr} {s : State} {v : Byte} (h : softVector i s = some v) (e : TssRef) :
    taskTarget i s = some e ↔ gateOf s.cpu s.mem v = .task e := by
  cases i <;> simp [softVector] at h
  case into => simp only [taskTarget, softVector, h.1, if_true]; split <;> simp_all
  all_goals subst h; simp only [taskTarget, softVector]; split <;> simp_all

/-- Only far transfers, returns and software interrupts switch tasks. -/
theorem taskTarget_cases {i : Instr} {s : State} {e : TssRef} (h : taskTarget i s = some e) :
    (∃ o, farOperand i s = some o) ∨ (∃ k, returnWidth i = some k) ∨ ∃ v, softVector i s = some v := by
  cases i with
  | jmpPtr p => exact Or.inl ⟨_, rfl⟩
  | jmpMem os g m => exact Or.inl ⟨_, rfl⟩
  | callPtr p => exact Or.inl ⟨_, rfl⟩
  | callMem os g m => exact Or.inl ⟨_, rfl⟩
  | iret => exact Or.inr (Or.inl ⟨_, rfl⟩)
  | iretd => exact Or.inr (Or.inl ⟨_, rfl⟩)
  | int3 => exact Or.inr (Or.inr ⟨_, rfl⟩)
  | intN v => exact Or.inr (Or.inr ⟨_, rfl⟩)
  | into =>
    cases ho : s.cpu.flags.ovf
    · simp [taskTarget, softVector, ho] at h
    · exact Or.inr (Or.inr ⟨4, by simp [softVector, ho]⟩)
  | movFromDR r n => simp [taskTarget, softVector] at h
  | movToDR n r => simp [taskTarget, softVector] at h
  | popf => simp [taskTarget, softVector] at h
  | popfd => simp [taskTarget, softVector] at h

/-- The instruction completed by a switch to the task `e`. -/
def SwitchedTo (i : Instr) (s t : State) (e : TssRef) : Prop :=
  ∃ image b, t = { switchTask e (nestsTask i) image s.nip s with boundary := some b }

theorem nestsTask_far {i : Instr} {s : State} {o : FarOperand} (h : farOperand i s = some o) :
    nestsTask i = o.isCall := by
  cases i <;> simp [farOperand] at h <;> subst h <;> rfl

theorem nestsTask_return {i : Instr} {k : Nat} (h : returnWidth i = some k) : nestsTask i = false := by
  cases i <;> simp [returnWidth] at h <;> rfl

theorem nestsTask_soft {i : Instr} {s : State} {v : Byte} (h : softVector i s = some v) : nestsTask i = true := by
  cases i <;> simp [softVector] at h <;> rfl

/-- The base fault, if any, that an instruction takes instead of the switch to the task `e`. -/
def switchFault (i : Instr) (s : State) (e : TssRef) : Option BaseFault :=
  match farOperand i s, returnWidth i, softVector i s with
  | some o, _, _ => (accessesFault s.cpu o.accesses).or (accessesFault s.cpu (switchAccesses s.cpu e o.isCall))
  | none, some k, _ => returnFault s k
  | none, none, some v => softIntFault s v (needsIOPL i)
  | none, none, none => none

theorem switchFault_far {i : Instr} {s : State} {o : FarOperand} (h : farOperand i s = some o) (e : TssRef) :
    switchFault i s e =
      (accessesFault s.cpu o.accesses).or (accessesFault s.cpu (switchAccesses s.cpu e o.isCall)) := by
  simp only [switchFault, h]

theorem switchFault_return {i : Instr} {k : Nat} (h : returnWidth i = some k) (s : State) (e : TssRef) :
    switchFault i s e = returnFault s k := by
  cases i <;> simp [returnWidth] at h <;> subst h <;> rfl

theorem switchFault_soft {i : Instr} {s : State} {v : Byte} (h : softVector i s = some v) (e : TssRef) :
    switchFault i s e = softIntFault s v (needsIOPL i) := by
  cases i <;> simp [softVector] at h
  case into => obtain ⟨ho, rfl⟩ := h; simp [switchFault, farOperand, returnWidth, softVector, ho]
  all_goals subst h; rfl

theorem attempt_eq (l : List Access) (s t : State) :
    attempt l s t = (accessesFault s.cpu l).elim t (raise · s) := by
  rcases attempt_cases l s t with ⟨h, he⟩ | ⟨f, h, he⟩ <;> rw [he, h] <;> rfl

/-- An instruction that switches tasks takes a base fault or completes by the switch. -/
theorem exec_taskTarget {i : Instr} {s : State} {e : TssRef} (h : taskTarget i s = some e) :
    ∃ t, SwitchedTo i s t e ∧ exec i s = .next ((switchFault i s e).elim t (raise · s)) := by
  rcases taskTarget_cases h with ⟨o, ho⟩ | ⟨k, hk⟩ | ⟨v, hv⟩
  · have hkind := (taskTarget_far ho e).mp h
    refine ⟨complete o.accesses (switchTask e o.isCall s.cpu.flags.image s.nip s),
      ⟨_, _, by rw [nestsTask_far ho]; rfl⟩, (exec_far ho).trans (congrArg _ ?_)⟩
    have hfar : (if o.isCall then farCall o.os o.accesses o.sel o.off s else farJump o.accesses o.sel o.off s) =
        attempt o.accesses s (farTaskSwitch o.accesses e o.isCall s) := by
      cases hc : o.isCall <;> simp only [hc] at hkind <;> simp [farCall, farJump, callDone, jumpDone, hkind]
    rw [hfar, switchFault_far ho, attempt_eq, farTaskSwitch, attempt_eq]
    cases accessesFault s.cpu o.accesses <;> rfl
  · have hkind := (taskTarget_return hk s e).mp h
    refine ⟨complete [] (switchTask e false { s.cpu.flags with nt := false }.image s.nip s),
      ⟨_, _, by rw [nestsTask_return hk]; rfl⟩, (exec_return hk s).trans (congrArg _ ?_)⟩
    rw [switchFault_return hk, interruptReturn]
    cases hf : returnFault s k
    · simp only [returnDone, hkind, Option.elim_none]
    · rfl
  · have hg := (taskTarget_soft hv e).mp h
    refine ⟨softIntEntry v s, ⟨s.cpu.flags.image, ⟨[], true⟩, ?_⟩, (exec_softVector hv).trans (congrArg _ ?_)⟩
    · simp only [softIntEntry, deliver_task hg, hg, nestsTask_soft hv]
      rfl
    · rw [switchFault_soft hv, softInt]
      cases softIntFault s v (needsIOPL i) <;> rfl

/-- Settles O26: without a fault the instruction completes by the switch. -/
theorem taskSwitchOfAnInstruction : Obligations.TaskSwitchOfAnInstruction := by
  intro i s e h hfar hsoft hret hsw
  have hf : switchFault i s e = none := by
    rcases taskTarget_cases h with ⟨o, ho⟩ | ⟨k, hk⟩ | ⟨v, hv⟩
    · rw [switchFault_far ho, hfar o ho, ← nestsTask_far ho, hsw]
      rfl
    · have hkind := (taskTarget_return hk s e).mp h
      obtain ⟨hp, hvm, hn⟩ := returnKind_taskReturn hkind
      rw [nestsTask_return hk] at hsw
      rw [switchFault_return hk]
      simp [returnFault, isV86_eq_false hvm, hp, hvm, hn, hret k hk, hkind, hsw]
    · rw [switchFault_soft hv, hsoft v hv]
  obtain ⟨t, ⟨image, b, rfl⟩, he⟩ := exec_taskTarget h
  rw [hf] at he
  obtain ⟨heip, hcs, hcpl, hflags⟩ := loadTask_entry s.cpu
    (taskSwitchMemory s.cpu s.mem e (nestsTask i) image s.nip) e (nestsTask i)
  exact ⟨_, he, rfl, heip, hcs, hcpl, hflags, rfl, rfl, rfl, rfl, rfl, rfl, rfl, rfl, rfl, rfl, rfl, rfl, rfl, rfl, rfl,
    taskSwitchMemory_sameBut _ _ _ _ _ _⟩

/-! ## RF at completion -/

/-- An attempt that completed made its accesses. -/
theorem attempt_completed {l : List Access} {s t : State} (h : (attempt l s t).boundary ≠ none) :
    attempt l s t = t := by
  rcases attempt_cases l s t with ⟨_, he⟩ | ⟨f, _, he⟩
  · exact he
  · exact absurd (by rw [he, raise_boundary]) h

theorem farJump_rf {l : List Access} {sel : W16} {off : W32} {s : State}
    (hk : ∀ e, farKind s.cpu sel false ≠ .task e) (h : (farJump l sel off s).boundary ≠ none) :
    (farJump l sel off s).cpu.flags.rf = false := by
  have he : farJump l sel off s = jumpDone l sel off s := attempt_completed h
  rw [he] at h ⊢
  unfold jumpDone at h ⊢
  cases hf : farKind s.cpu sel false with
  | faults f => simp [hf, raise_boundary] at h
  | task t => exact absurd hf (hk t)
  | real => rfl
  | direct cs => rfl
  | gate g => rfl

theorem callPush_rf {l : List Access} {stack : Cpu} {k : Nat} {values : List W32} {cs : Seg} {eip : W32}
    {cpl : BitVec 2} {s : State} (h : (callPush l stack k values cs eip cpl s).boundary ≠ none) :
    (callPush l stack k values cs eip cpl s).cpu.flags.rf = false := by
  rw [callPush] at h ⊢
  rw [attempt_completed h]
  rfl

theorem farCall_rf {os : OpSize} {l : List Access} {sel : W16} {off : W32} {s : State}
    (hk : ∀ e, farKind s.cpu sel true ≠ .task e) (h : (farCall os l sel off s).boundary ≠ none) :
    (farCall os l sel off s).cpu.flags.rf = false := by
  have he : farCall os l sel off s = callDone os l sel off s := attempt_completed h
  rw [he] at h ⊢
  unfold callDone at h ⊢
  cases hf : farKind s.cpu sel true with
  | faults f => simp [hf, raise_boundary] at h
  | task t => exact absurd hf (hk t)
  | real => rw [hf] at h; exact callPush_rf h
  | direct cs => rw [hf] at h; exact callPush_rf h
  | gate g => rw [hf] at h; exact callPush_rf h

/-- A far transfer that completes without a task switch clears RF. -/
theorem exec_far_rf {i : Instr} {s t : State} {o : FarOperand} (ho : farOperand i s = some o)
    (hk : ∀ e, farKind s.cpu o.sel o.isCall ≠ .task e) (he : exec i s = .next t) (h : t.boundary ≠ none) :
    t.cpu.flags.rf = false := by
  cases hc : o.isCall <;> rw [hc] at hk
  · cases (exec_farJump ho hc).symm.trans he
    exact farJump_rf hk h
  · cases (exec_farCall ho hc).symm.trans he
    exact farCall_rf hk h

/-- A return without a task switch loads RF from a 32-bit image alone. -/
theorem interruptReturn_rf {s : State} {k : Nat} (hk : ∀ e, returnKind s k ≠ .taskReturn e)
    (h : (interruptReturn k s).boundary ≠ none) :
    (interruptReturn k s).cpu.flags.rf = if k = 4 then (frameFlags s k).rf else s.cpu.flags.rf := by
  unfold interruptReturn at h ⊢
  cases hf : returnFault s k with
  | some f => simp [hf, raise_boundary] at h
  | none =>
    simp only [hf, returnDone] at h ⊢
    cases hr : returnKind s k with
    | faults f => simp [hr, raise_boundary] at h
    | taskReturn t => exact absurd hr (hk t)
    | real => exact loadFlags_rf s.cpu k (frameFlags s k)
    | same cs => exact loadFlags_rf s.cpu k (frameFlags s k)
    | outer cs => exact loadFlags_rf s.cpu k (frameFlags s k)
    | toV86 => rw [returnKind_toV86 hr]; rfl

/-- A pop of the flags loads RF from a 32-bit image alone. -/
theorem popFlags_rf {s : State} {k : Nat} (h : (popFlags k s).boundary ≠ none) :
    (popFlags k s).cpu.flags.rf = if k = 4 then (Flags.ofImage (stackValue s 0 k)).rf else s.cpu.flags.rf := by
  unfold popFlags at h ⊢
  split at h
  · exact absurd (raise_boundary _ _) h
  · rename_i hv
    rw [if_neg hv, attempt_completed h]
    exact loadFlags_rf s.cpu k (Flags.ofImage (stackValue s 0 k))

/-- A software interrupt that enters a procedure clears RF. -/
theorem exec_soft_rf {i : Instr} {s t : State} {v : Byte} (hv : softVector i s = some v)
    (hg : ∀ e, gateOf s.cpu s.mem v ≠ .task e) (he : exec i s = .next t) (h : t.boundary ≠ none) :
    t.cpu.flags.rf = false := by
  cases hf : softIntFault s v (needsIOPL i) with
  | some f =>
    cases (exec_softInt_fault hv hf).symm.trans he
    exact absurd (raise_boundary _ _) h
  | none =>
    cases (exec_softInt hv hf).symm.trans he
    cases hp : gateOf s.cpu s.mem v with
    | procedure p => rw [softIntEntry_procedure hp]; rfl
    | task e => exact absurd hp (hg e)

/-- A MOV to or from a debug register clears RF when it completes. -/
theorem exec_movDebug_rf {s t : State} {r : Reg} {n : DReg} (h : t.boundary ≠ none) :
    (exec (.movFromDR r n) s = .next t → t.cpu.flags.rf = false) ∧
      (exec (.movToDR n r) s = .next t → t.cpu.flags.rf = false) := by
  by_cases hp : s.cpu.privilege = 0
  · constructor <;> intro he
    · cases hv : readDebug s n with
      | none => simp [exec, execMovFromDR, hp, hv] at he
      | some v => cases (exec_movFromDR hp hv r).symm.trans he; rfl
    · cases hd : writeDebug s.dbg n (s.cpu.regs.get r) with
      | none => simp [exec, execMovToDR, hp, hd] at he
      | some d => cases (exec_movToDR hp hd).symm.trans he; rfl
  · constructor <;> intro he
    · cases (exec_movDebug_unprivileged hp r n).1.symm.trans he
      exact absurd (raise_boundary _ _) h
    · cases (exec_movDebug_unprivileged hp r n).2.symm.trans he
      exact absurd (raise_boundary _ _) h

/-- Settles O28: by the task switch where the instruction makes one, else instruction by instruction. -/
theorem resumeFlagAtCompletion : Obligations.ResumeFlagAtCompletion := by
  intro i s t b he hb
  have hne : t.boundary ≠ none := by simp [hb]
  cases ht : taskTarget i s with
  | some e =>
    obtain ⟨u, ⟨image, b', rfl⟩, hu⟩ := exec_taskTarget ht
    cases hf : switchFault i s e with
    | some f =>
      rw [hf] at hu
      cases hu.symm.trans he
      exact absurd (raise_boundary _ _) hne
    | none =>
      rw [hf] at hu
      cases hu.symm.trans he
      rfl
  | none =>
    have hfar {o : FarOperand} (ho : farOperand i s = some o) : t.cpu.flags.rf = false :=
      exec_far_rf ho (fun e hk => by rw [(taskTarget_far ho e).mpr hk] at ht; cases ht) he hne
    have hsoft {v : Byte} (hv : softVector i s = some v) : t.cpu.flags.rf = false :=
      exec_soft_rf hv (fun e hg => by rw [(taskTarget_soft hv e).mpr hg] at ht; cases ht) he hne
    have hret {k : Nat} (hk : returnWidth i = some k) :
        t.cpu.flags.rf = if k = 4 then (frameFlags s k).rf else s.cpu.flags.rf := by
      cases (exec_return hk s).symm.trans he
      exact interruptReturn_rf (fun e h => by rw [(taskTarget_return hk s e).mpr h] at ht; cases ht) hne
    have hpop {k : Nat} (hk : popWidth i = some k) :
        t.cpu.flags.rf = if k = 4 then (Flags.ofImage (stackValue s 0 k)).rf else s.cpu.flags.rf := by
      cases (exec_popFlags hk s).symm.trans he
      exact popFlags_rf hne
    cases i with
    | movFromDR r n => exact (exec_movDebug_rf hne).1 he
    | movToDR n r => exact (exec_movDebug_rf hne).2 he
    | int3 => exact hsoft rfl
    | intN v => exact hsoft rfl
    | into =>
      cases ho : s.cpu.flags.ovf
      · simp only [exec, execInto, ho, Bool.false_eq_true, if_false, Host.Outcome.next.injEq] at he
        subst he
        rfl
      · exact hsoft (v := 4) (by simp [softVector, ho])
    | iret => exact hret rfl
    | iretd => exact hret rfl
    | popf => exact hpop rfl
    | popfd => exact hpop rfl
    | jmpPtr p => exact hfar rfl
    | jmpMem os g m => exact hfar rfl
    | callPtr p => exact hfar rfl
    | callMem os g m => exact hfar rfl

/-! ## The flags image -/

/-- Every bit of the flags image. -/
theorem Flags.getLsbD_image (f : Flags) {b : Nat} (hb : b < 32) : f.image.getLsbD b =
    (decide (b = 1) || f.cf && decide (b = 0) || f.pf && decide (b = 2) || f.af && decide (b = 4) ||
      f.zf && decide (b = 6) || f.sf && decide (b = 7) || f.tf && decide (b = 8) || f.intf && decide (b = 9) ||
      f.df && decide (b = 10) || f.ovf && decide (b = 11) || (decide (12 ≤ b) && f.iopl.getLsbD (b - 12)) ||
      f.nt && decide (b = 14) || f.rf && decide (b = 16) || f.vm && decide (b = 17)) := by
  have h2 : (2#32).getLsbD b = decide (b = 1) := by
    rw [show (2#32 : W32) = bitAt true 1 by decide, getLsbD_bitAt _ _ hb, Bool.true_and]
  have hi : (f.iopl.setWidth 32 <<< 12).getLsbD b = (decide (12 ≤ b) && f.iopl.getLsbD (b - 12)) := by
    rw [BitVec.getLsbD_shiftLeft, BitVec.getLsbD_setWidth]
    by_cases h : 12 ≤ b
    · simp [h, hb, show b - 12 < 32 by omega, show ¬b < 12 by omega]
    · simp [h, hb, show b < 12 by omega]
  simp only [Flags.image, Config.layout, BitVec.getLsbD_or, h2, hi, getLsbD_bitAt _ _ hb]

/-- The flags are read back from their image. -/
theorem Flags.ofImage_image (f : Flags) : Flags.ofImage f.image = f := by
  have hio : f.image.extractLsb' 12 2 = f.iopl := by
    apply BitVec.eq_of_getLsbD_eq
    intro i hi
    rw [BitVec.getLsbD_extractLsb', f.getLsbD_image (by omega)]
    interval_cases i <;> simp
  have key (b : Nat) (hb : b < 32) := f.getLsbD_image hb
  simp only [Flags.ofImage, hio, Config.layout, key 0 (by decide), key 2 (by decide), key 4 (by decide),
    key 6 (by decide), key 7 (by decide), key 8 (by decide), key 9 (by decide), key 10 (by decide), key 11 (by decide),
    key 14 (by decide), key 16 (by decide), key 17 (by decide)]
  simp

/-- Settles O35: the image bit by bit. -/
theorem flagsImageRoundTrip : Obligations.FlagsImageRoundTrip := by
  intro f
  refine ⟨f.ofImage_image, ?_, ?_, ?_⟩ <;> rw [f.getLsbD_image (by decide)] <;> simp

/-! ## The return from a debug fault -/

theorem and_ffff_toNat (x : W32) : (x &&& 0xFFFF).toNat = x.toNat % 65536 := by
  rw [BitVec.toNat_and]
  simpa using Nat.and_two_pow_sub_one_eq_mod x.toNat 16

/-- Setting the top of a 16-bit stack leaves the high half of ESP. -/
theorem setStackTop_high {c : Cpu} (h : c.ss.big = false) (off : W32) :
    (setStackTop c off).regs.esp &&& 0xFFFF0000 = c.regs.esp &&& 0xFFFF0000 := by
  have hlow : (0xFFFF : W32) &&& 0xFFFF0000 = 0 := by decide
  simp only [setStackTop, h, Bool.false_eq_true, if_false]
  ext i
  have hi := congrArg (fun w : W32 => w[i]) hlow
  simp only [BitVec.getElem_and, BitVec.getElem_or] at hi ⊢
  cases h1 : (0xFFFF0000#32)[i] <;> simp_all

theorem pushAll_high {c : Cpu} (h : c.ss.big = false) (m : Memory) (k : Nat) (l : List W32) :
    (pushAll c m k l).1.regs.esp &&& 0xFFFF0000 = c.regs.esp &&& 0xFFFF0000 := by
  induction l generalizing c m with
  | nil => rfl
  | cons v l ih => exact (ih (c := setStackTop c _) h _).trans (setStackTop_high h _)

/-- Popping what was pushed gives ESP back. -/
theorem popBytes_pushAll_esp (c : Cpu) (m : Memory) (k : Nat) (l : List W32) :
    (popBytes (pushAll c m k l).1 (k * l.length)).regs.esp = c.regs.esp := by
  obtain ⟨e, he⟩ := pushAll_cpu c m k l
  have hss : (pushAll c m k l).1.ss = c.ss := by rw [he]
  have htop : stackTop (pushAll c m k l).1 + BitVec.ofNat 32 (k * l.length) =
      wrapStack c (stackTop c - BitVec.ofNat 32 (k * l.length)) + BitVec.ofNat 32 (k * l.length) := by
    rw [stackTop_pushAll]
  rw [popBytes, htop]
  cases hb : c.ss.big
  · have hh := pushAll_high hb m k l
    simp only [setStackTop, hss, hb, Bool.false_eq_true, if_false, hh]
    have hlow : (wrapStack c (stackTop c - BitVec.ofNat 32 (k * l.length)) + BitVec.ofNat 32 (k * l.length)) &&& 0xFFFF =
        c.regs.esp &&& 0xFFFF := by
      apply BitVec.eq_of_toNat_eq
      simp only [and_ffff_toNat, BitVec.toNat_add, toNat_wrapStack, hb, Bool.false_eq_true, if_false, BitVec.toNat_sub,
        stackTop]
      omega
    rw [hlow, ← BitVec.and_or_distrib_left, show (0xFFFF0000 ||| 0xFFFF : W32) = BitVec.allOnes 32 by decide,
      BitVec.and_allOnes]
  · simp [setStackTop, hss, hb, wrapStack, stackTop]

/-- At level 0 a load of a 32-bit image that keeps VM takes all of it. -/
theorem loadFlags_level0 {c : Cpu} {new : Flags} (hc : c.privilege = 0) (hv : c.flags.vm = new.vm) :
    loadFlags c true new = new := by
  have hio : (0#2 : BitVec 2) ≤ c.flags.iopl := Nat.zero_le _
  simp [loadFlags, hc, hv, hio]

theorem popBytes_eq (c : Cpu) (n : Nat) :
    popBytes c n = { c with regs := { c.regs with esp := (popBytes c n).regs.esp } } := rfl

section
variable {s : State} {h : Handler} {k : Delivery} {ret : W32} (hv : s.cpu.isV86 = false)
  (hs : switchesStack s.cpu h = false)
include hv hs

/-- An entry at the same level pushes the three values of the frame on the stack in use. -/
theorem entryFrame_sameLevel (image : W32) :
    entryFrame s.cpu h image ret none = [image, s.cpu.cs.sel.setWidth 32, ret] := by
  simp [entryFrame, hv, hs]

/-- Popping the frame of an entry at the same level gives ESP back. -/
theorem popBytes_enterProcedure_esp :
    (popBytes (enterProcedure h k ret none s).cpu (frameWidth h * 3)).regs.esp = s.cpu.regs.esp := by
  have hstack : entryStack s.cpu h = s.cpu := by simp [entryStack, hs]
  have hpop := popBytes_pushAll_esp s.cpu s.mem (frameWidth h)
    (entryFrame s.cpu h (savedFlags k s.cpu.flags).image ret none)
  rw [entryFrame_sameLevel hv hs] at hpop
  rw [← hpop]
  simp only [enterProcedure, hstack, entryFrame_sameLevel hv hs]
  rfl

/-- Popping that frame leaves nothing of the entry but CS:EIP and the flags. -/
theorem popBytes_enterProcedure : popBytes (enterProcedure h k ret none s).cpu (frameWidth h * 3) =
    { s.cpu with cs := h.cs, eip := h.eip, flags := entryFlags s.cpu h } := by
  rw [popBytes_eq, popBytes_enterProcedure_esp hv hs]
  obtain ⟨esp, hc⟩ := enterProcedure_cpu h k ret none s
  rw [hc]
  simp only [hs, hv, Bool.false_eq_true, if_false]

end

/-- Settles O34: the frame of the fault is that of a return at the same level, and it was pushed on the stack in use. -/
theorem iretdResumesAfterADebugFault : Obligations.IretdResumesAfterADebugFault := by
  intro s h x hp hvm hcpl hpg hm hg hwide hsel hlev hdesc
  have hv86 := isV86_eq_false hvm
  have hsw : switchesStack s.cpu h = false := by simp [switchesStack, hvm, hcpl]
  have hw : frameWidth h = 4 := by simp [frameWidth, hwide]
  obtain ⟨hcpu, hmem, hdbg⟩ := deliver_procedure_cpu (k := .fault) (ret := s.cpu.eip) (code := none) hg
  have hframe : SavedFrame (deliver 1 .fault s.cpu.eip none s) 4 0 s.cpu.eip s.cpu.cs.sel
      { s.cpu.flags with rf := true }.image := hw ▸ deliver_procedure_frame (code := none) hg hpg hm
  have hpop := popBytes_enterProcedure (k := .fault) (ret := s.cpu.eip) hv86 hsw
  have hread := deliver_procedure_read_other (k := .fault) (ret := s.cpu.eip) hg
  rw [hw, ← hcpu] at hpop
  obtain ⟨esp, hc⟩ := enterProcedure_cpu h .fault s.cpu.eip none s
  rw [← hcpu] at hc
  clear hcpu
  set d := deliver 1 .fault s.cpu.eip none s with hd
  have hflags : frameFlags d 4 = { s.cpu.flags with rf := true } := by
    rw [frameFlags, show 2 * 4 = 0 + 2 * 4 from rfl, hframe.flags]
    exact Flags.ofImage_image _
  have hcs : frameCS d 4 = s.cpu.cs.sel := by
    rw [frameCS, show stackValue d 4 4 = _ from hframe.cs]
    simp
  have hpm : d.cpu.protectedMode = true := by rw [hc]; exact hp
  have hvm' : d.cpu.flags.vm = false := by rw [hc]; rfl
  have hcpl' : d.cpu.cpl = 0 := by rw [hc]; simp [hsw, hcpl]
  have hkind : returnKind d 4 = .same s.cpu.cs := by
    have hnt : d.cpu.flags.nt = false := by rw [hc]; simp [entryFlags, hp]
    have hdesc' : findDesc d.cpu s.cpu.cs.sel = some ⟨x, 0, .code s.cpu.cs.base s.cpu.cs.big⟩ := by
      rw [hc]; exact hdesc
    simp only [returnKind, hpm, hvm', hnt, hflags, hvm, hcs, protectedReturn, hdesc', if_neg hsel, hlev, hcpl']
    simp
  have ha : accessesFault d.cpu (frameReads d.cpu 4) = none := accessesFault_of_not_paging (by rw [hc]; exact hpg) _
  have hcpu' : loadFrame d 4 s.cpu.cs = { s.cpu with flags := { s.cpu.flags with rf := true } } := by
    have hload : loadFlags d.cpu (4 == 4) (frameFlags d 4) = { s.cpu.flags with rf := true } := by
      rw [hflags]
      exact loadFlags_level0 (by simp [Cpu.privilege, hpm, hvm', hcpl']) (by rw [hvm', hvm])
    simp only [loadFrame, hload, show 3 * 4 = 4 * 3 from rfl, hpop, hframe.eip]
    rfl
  refine ⟨_, (exec_return rfl d).trans (congrArg _ (interruptReturn_same ha hkind)), hcpu', hdbg, ?_, ?_⟩
  · simp [breakpointFault, hcpu']
  · rw [entryFrame_sameLevel hv86 hsw, hw] at hread
    simpa [entryStack, hsw] using hread

end Sys2Proof.Machine
end

section
/-! PROOFS. Breakpoint fields and matches (20), as arithmetic on addresses. -/

namespace Sys2Proof.Machine

/-! ## Fields (R42) -/

/-- The LEN codes of 1, 2 and 4 bytes. -/
def IsLength (code : BitVec 2) (size : Nat) : Prop :=
  code = 0 ∧ size = 1 ∨ code = 1 ∧ size = 2 ∨ code = 3 ∧ size = 4

/-- A length is a power of two, and its mask is one less. -/
theorem IsLength.mask {code : BitVec 2} {size : Nat} (h : IsLength code size) :
    ∃ k ≤ 2, size = 2 ^ k ∧ lenMask code = BitVec.ofNat 32 (size - 1) := by
  rcases h with ⟨rfl, rfl⟩ | ⟨rfl, rfl⟩ | ⟨rfl, rfl⟩
  · exact ⟨0, by decide, rfl, rfl⟩
  · exact ⟨1, by decide, rfl, rfl⟩
  · exact ⟨2, by decide, rfl, rfl⟩

/-- Masking the low bits rounds down to a multiple. -/
theorem and_not_low_toNat (x : W32) (k : Nat) :
    (x &&& ~~~BitVec.ofNat 32 (2 ^ k - 1)).toNat = x.toNat / 2 ^ k * 2 ^ k := by
  have h : x &&& ~~~BitVec.ofNat 32 (2 ^ k - 1) = (x >>> k) <<< k := by
    apply BitVec.eq_of_getLsbD_eq
    intro i hi
    simp only [BitVec.getLsbD_and, BitVec.getLsbD_not, BitVec.getLsbD_ofNat, Nat.testBit_two_pow_sub_one,
      BitVec.getLsbD_shiftLeft, BitVec.getLsbD_ushiftRight, hi, decide_true, Bool.true_and]
    by_cases h : i < k
    · simp [h]
    · simp [h, show k + (i - k) = i by omega]
  rw [h, BitVec.toNat_shiftLeft, BitVec.toNat_ushiftRight, Nat.shiftLeft_eq, Nat.shiftRight_eq_div_pow]
  exact Nat.mod_eq_of_lt (lt_of_le_of_lt (Nat.div_mul_le_self _ _) x.isLt)

section
variable {d : Debug} {n : Fin 4} {size : Nat} (h : IsLength (d.len n) size)
include h

theorem Debug.base_eq : d.base n = d.addr n &&& ~~~BitVec.ofNat 32 (size - 1) := by
  obtain ⟨k, -, -, hm⟩ := h.mask
  rw [Debug.base, hm]

theorem Debug.base_toNat : (d.base n).toNat = (d.addr n).toNat / size * size := by
  rw [Debug.base_eq h]
  obtain ⟨k, -, rfl, -⟩ := h.mask
  exact and_not_low_toNat _ k

/-- A field ends below the top of the address space: its length divides 2^32. -/
theorem Debug.base_add_le : (d.base n).toNat + size ≤ 2 ^ 32 := by
  have hb := Debug.base_toNat h
  have hlt := (d.addr n).isLt
  rcases h with ⟨-, rfl⟩ | ⟨-, rfl⟩ | ⟨-, rfl⟩ <;> omega

theorem Debug.inField_iff (a : W32) :
    d.inField n a = true ↔ (d.base n).toNat ≤ a.toNat ∧ a.toNat < (d.base n).toNat + size := by
  have hle := Debug.base_add_le h
  have hpos : 1 ≤ size := by rcases h with ⟨-, rfl⟩ | ⟨-, rfl⟩ | ⟨-, rfl⟩ <;> omega
  obtain ⟨k, -, -, hm⟩ := h.mask
  have hend : (d.base n + lenMask (d.len n)).toNat = (d.base n).toNat + (size - 1) := by
    rw [hm, BitVec.toNat_add, BitVec.toNat_ofNat]
    omega
  rw [Debug.inField, Bool.and_eq_true, decide_eq_true_eq, decide_eq_true_eq, BitVec.le_def, BitVec.le_def, hend]
  omega

/-- An access overlaps the field by the bytes it touches, modulo 2^32 (R43, D22). -/
theorem Debug.overlaps_iff (a : Access) : d.overlaps n a = true ↔
    ∃ i < a.size, (d.base n).toNat ≤ (a.addr.toNat + i) % 2 ^ 32 ∧
      (a.addr.toNat + i) % 2 ^ 32 < (d.base n).toNat + size := by
  have hbyte (i : Nat) : (a.addr + BitVec.ofNat 32 i).toNat = (a.addr.toNat + i) % 2 ^ 32 := by
    rw [BitVec.toNat_add, BitVec.toNat_ofNat, Nat.add_mod_mod]
  simp only [Debug.overlaps, List.any_eq_true, List.mem_range, Debug.inField_iff h, hbyte]

end

/-- Settles O53: the base, its end and the membership by the mask of the length. -/
theorem fieldOfACondition : Obligations.FieldOfACondition :=
  fun _ _ _ h => ⟨Debug.base_toNat h, Debug.base_add_le h, Debug.inField_iff h⟩

/-- Settles O54: the byte common to both is the higher of the two first ones. -/
theorem overlapIsIntervalOverlap : Obligations.OverlapIsIntervalOverlap := by
  intro d n size a h h1 htop
  rw [Debug.overlaps_iff h]
  have hpos : 1 ≤ size := by rcases h with ⟨-, rfl⟩ | ⟨-, rfl⟩ | ⟨-, rfl⟩ <;> omega
  constructor
  · rintro ⟨i, hi, hl, hr⟩
    omega
  · rintro ⟨hl, hr⟩
    refine ⟨(d.base n).toNat - a.addr.toNat, ?_, ?_, ?_⟩ <;> omega

/-- The kinds of access a defined RW code breaks on (R44). -/
theorem Debug.kindOk_iff {d : Debug} {n : Fin 4} (a : Access) :
    d.kindOk n a = true ↔ d.rw n = 1 ∧ a.kind = .write ∨ d.rw n = 3 := by
  unfold Debug.kindOk
  by_cases h : d.rw n = 1#2
  · simp [h]
  · simp [h]

/-- Settles O55: the bytes by the overlap, the kind by the RW code. -/
theorem dataMatchIsByBytesAndKind : Obligations.DataMatchIsByBytesAndKind := by
  intro d n size a h _
  have hpos : 1 ≤ size := by rcases h with ⟨-, rfl⟩ | ⟨-, rfl⟩ | ⟨-, rfl⟩ <;> omega
  refine ⟨?_, Debug.base_eq h⟩
  rw [Debug.dataMatch, Bool.and_eq_true, Debug.overlaps_iff h, Debug.kindOk_iff]
  simp only [Nat.lt_iff_le_pred (show 0 < (d.base n).toNat + size by omega)]

/-- Settles O57: none of them reads a page. -/
theorem matchingIsOnLinearAddresses : Obligations.MatchingIsOnLinearAddresses :=
  ⟨fun _ _ _ _ => rfl, fun _ _ _ _ _ => ⟨rfl, rfl⟩, fun _ a hc => physical_of_not_paging hc a⟩

end Sys2Proof.Machine
end

section
/-! PROOFS. Debug faults before an instruction, the traps and the external interrupt after it (60), and instructions of
class Other. -/

namespace Sys2Proof.Machine

/-! ## DR6 through deliveries -/

theorem deliver_dr6 (v : Byte) (k : Delivery) (ret : W32) (code : Option W32) (s : State) :
    (deliver v k ret code s).dbg.dr6 = s.dbg.dr6 := by
  rcases deliver_dbg v k ret code s with h | h <;> rw [h]
  rfl

theorem bitAt_or (a b : Bool) (n : Nat) : bitAt (a || b) n = bitAt a n ||| bitAt b n := by
  cases a <;> cases b <;> simp [bitAt]

/-- Both causes' bits are set. -/
theorem Cause.mask_merge (k l : Cause) : (k.merge l).mask = k.mask ||| l.mask := by
  simp only [Cause.mask, Cause.merge, CondSet.union, CondSet.collect, CondSet.has, bitAt_or]
  ac_rfl

/-! ## Debug faults -/

/-- A step that a debug fault precedes takes it. -/
theorem step_of_debugFault {s : State} (hp : s.pendingBT = false) (hc : s.dbg.undefinedCode = none)
    (hf : debugFault s = true) :
    step s = .next { sampleInputs (takeDebugFault s) with tick := s.tick + 1 } := by
  have ht : (sampleInputs (takeDebugFault s)).tick = s.tick := by
    rw [sampleInputs_tick]; exact (deliver_env _ _ _ _ _).tick
  simp only [step, cycle, hp, hc, hf, if_true, Bool.false_eq_true, if_false,
    finish_faulted (takeDebugFault_boundary s), countStep, ht]

theorem takeDebugFault_dr6 (s : State) : (takeDebugFault s).dbg.dr6 = s.dbg.dr6 ||| (faultCause s).mask :=
  deliver_dr6 _ _ _ _ _

/-- A debug fault delivered to a procedure, with RF set in the image (R114). -/
theorem takeDebugFault_delivered {s : State} {h : Handler} (hg : gateOf s.cpu s.mem 1 = .procedure h) :
    TrapDelivered s (takeDebugFault s) h true ∧ (takeDebugFault s).dbg = s.dbg.report (faultCause s) := by
  have hd := deliver_trapDelivered (s := { s with dbg := s.dbg.report (faultCause s), boundary := none }) hg .fault
  exact ⟨hd.congr rfl rfl rfl rfl, (deliver_procedure_cpu (s := { s with
    dbg := s.dbg.report (faultCause s), boundary := none }) hg).2.2⟩

/-- A report keeps every set bit of DR6. -/
theorem or_mask_and (x m : W32) : (x ||| m) &&& x = x := by
  ext i
  simp only [BitVec.getElem_and, BitVec.getElem_or]
  cases x[i] <;> simp

/-- Settles O29: the breakpoint is a debug fault, and its cause has every match. -/
theorem instructionBreakpointFaults : Obligations.InstructionBreakpointFaults := by
  intro s n hp hc hen hm hrf
  have hf : debugFault s = true := by
    rw [debugFault, (breakpointFault_iff s).mpr ⟨hrf, n, hen, hm⟩, Bool.true_or]
  have h6 := takeDebugFault_dr6 s
  refine ⟨_, step_of_debugFault hp hc hf, rfl, ?_, fun m hm' => ?_, ?_, fun h hg => ?_⟩
  · rw [sampleInputs_deferred]
    exact deliver_fault_deferred _ _ _ _
  · rw [sampleInputs_dbg, h6, BitVec.getLsbD_or, Cause.mask_b]
    simp [faultCause, hrf, hm']
  · rw [sampleInputs_dbg, h6, or_mask_and]
  · obtain ⟨hd, hdbg⟩ := takeDebugFault_delivered hg
    have hd' := hd.congr (v := { sampleInputs (takeDebugFault s) with tick := s.tick + 1 }) rfl rfl
      (sampleInputs_cpu _) (sampleInputs_mem _)
    exact ⟨hd'.cs, hd'.eip, hd'.tf, hd'.regs, by simp [hdbg, Debug.report], hd'.mem, hd'.frame⟩

/-- Settles O30: neither debug fault precedes the instruction. -/
theorem resumeFlagSuppressesTheBreakpoint : Obligations.ResumeFlagSuppressesTheBreakpoint := by
  intro s hrf hp hc hi
  refine ReadyToRun.step ⟨hp, hc, ?_⟩
  simp [debugFault, breakpointFault, generalDetect, hrf, hi]

theorem lowBytes_zero (k : Nat) : lowBytes k 0 = 0 := by
  unfold lowBytes
  split <;> rfl

/-- A base fault delivered to a procedure, the error code at the top of its stack in protected mode. -/
structure RaisedTo (f : BaseFault) (s t : State) (h : Handler) : Prop where
  cs : t.cpu.cs = h.cs
  eip : t.cpu.eip = h.eip
  regs : RegsSameButESP s.cpu.regs t.cpu.regs
  dbg : t.dbg = s.dbg
  frame : s.cpu.paging = false → s.mem.wf = true → s.cpu.protectedMode = true → f.code.isSome = true →
    SavedFrame t (frameWidth h) (frameWidth h) s.cpu.eip s.cpu.cs.sel { s.cpu.flags with rf := true }.image
  code : s.cpu.paging = false → s.mem.wf = true → s.cpu.protectedMode = true →
    ∀ x, f.code = some x → stackValue t 0 (frameWidth h) = lowBytes (frameWidth h) x

theorem raise_procedure {v : Byte} {code : Option W32} {s t : State} {h : Handler}
    (hg : gateOf s.cpu s.mem v = .procedure h) (hc : t.cpu = (raise ⟨v, code, none⟩ s).cpu)
    (hm : t.mem = (raise ⟨v, code, none⟩ s).mem) (hd : t.dbg = (raise ⟨v, code, none⟩ s).dbg) :
    RaisedTo ⟨v, code, none⟩ s t h := by
  change t.cpu = (deliver v .fault s.cpu.eip code { s with boundary := none }).cpu at hc
  change t.mem = (deliver v .fault s.cpu.eip code { s with boundary := none }).mem at hm
  change t.dbg = (deliver v .fault s.cpu.eip code { s with boundary := none }).dbg at hd
  obtain ⟨hcpu, hmem, hdbg⟩ := deliver_procedure_cpu (k := .fault) (ret := s.cpu.eip) (code := code)
    (s := { s with boundary := none }) hg
  rw [hcpu] at hc
  rw [hmem] at hm
  rw [hdbg] at hd
  refine ⟨by rw [hc]; rfl, by rw [hc]; rfl, ?_, hd, fun hp hw hpm hx => ?_, fun hp hw hpm x hx => ?_⟩
  · rw [hc]
    exact enterProcedure_regs h .fault s.cpu.eip code { s with boundary := none }
  · have hf := enterProcedure_frame (s := { s with boundary := none }) hp hw h .fault s.cpu.eip code
    simp only [show code.isSome = true from hx, hpm] at hf
    exact SavedFrame.congr (.of_eq hc) hm hf
  · obtain rfl : code = some x := hx
    exact (stackValue_congr (.of_eq hc) hm 0 _).trans
      (enterProcedure_code (s := { s with boundary := none }) hp hw h _ _ x hpm)

/-- Without a debug fault before it, a MOV to or from a debug register off level 0 raises general protection. -/
theorem step_movDebug_unprivileged {s : State} {i : Instr} {len : Nat} (h : ReadyToRun s) (hf : fetch s = .instr i len)
    (hi : ∃ r n, i = .movFromDR r n ∨ i = .movToDR n r) (hp : s.cpu.privilege ≠ 0) :
    step s = countStep (.next (sampleInputs (raise (gpFault 0) (begin len s)))) := by
  have he : exec i (begin len s) = .next (raise (gpFault 0) (begin len s)) := by
    obtain ⟨r, n, rfl | rfl⟩ := hi
    · exact (exec_movDebug_unprivileged (s := begin len s) hp r n).1
    · exact (exec_movDebug_unprivileged (s := begin len s) hp r n).2
  simp only [h.step, runInstruction, hf, he, finish_faulted (raise_boundary _ _)]

/-- Settles O31: general detect is a debug fault with BD where it comes first, and general protection else. -/
theorem generalDetectFaults : Obligations.GeneralDetectFaults := by
  intro s i len hpd hc hf hi hice
  have hmov : (fetch s).isMovDebug = true := by
    rw [hf]
    obtain ⟨r, n, rfl | rfl⟩ := hi <;> rfl
  have hgd : generalDetect s = (s.cpu.privilege == 0 || Config.gdFirst) := by
    simp [generalDetect, hice, hmov]
  by_cases hdf : debugFault s = true
  · refine ⟨_, step_of_debugFault hpd hc hdf, fun hfirst => ?_, fun hp hg hb => ?_⟩
    · have hgd' : generalDetect s = true := by
        rw [hgd]
        rcases hfirst with h | h <;> simp [h]
      have h6 := takeDebugFault_dr6 s
      rw [sampleInputs_dbg, h6]
      refine ⟨by rw [BitVec.getLsbD_or, Cause.mask_bd]; simp [faultCause, hgd'], or_mask_and _ _, fun h hg => ?_⟩
      obtain ⟨hd, hdbg⟩ := takeDebugFault_delivered hg
      have hd' := hd.congr (v := { sampleInputs (takeDebugFault s) with tick := s.tick + 1 }) rfl rfl
        (sampleInputs_cpu _) (sampleInputs_mem _)
      exact ⟨hd'.cs, hd'.eip, hd'.regs, by simp [hdbg, Debug.report], hd'.frame⟩
    · have hp0 : s.cpu.privilege = 0 := by simpa [debugFault, hb, hgd, hg] using hdf
      exact absurd hp0 hp
  · have hnf : debugFault s = false := by simpa using hdf
    have hnot : ¬(s.cpu.privilege = 0 ∨ Config.gdFirst = true) := by
      intro h
      simp [debugFault, hgd] at hnf
      rcases h with h | h
      · exact hnf.2.1 h
      · simp [h] at hnf
    have hp : s.cpu.privilege ≠ 0 := fun h => hnot (Or.inl h)
    refine ⟨_, step_movDebug_unprivileged ⟨hpd, hc, hnf⟩ hf hi hp, fun h => absurd h hnot, fun _ _ _ => ?_⟩
    refine ⟨?_, fun h hg => ?_⟩
    · rw [sampleInputs_dbg]
      exact deliver_dr6 _ _ _ _ _
    · have hpm : s.cpu.protectedMode = true := by
        by_contra h
        simp [Cpu.privilege, h] at hp
      have hr := raise_procedure (code := some 0) (s := begin len s)
        (t := { sampleInputs (raise (gpFault 0) (begin len s)) with
          tick := (sampleInputs (raise (gpFault 0) (begin len s))).tick + 1 })
        hg (sampleInputs_cpu _) (sampleInputs_mem _) (sampleInputs_dbg _)
      exact ⟨hr.cs, hr.eip, hr.regs, hr.dbg, fun hpg hw =>
        ⟨hr.frame hpg hw hpm rfl, (hr.code hpg hw hpm 0 rfl).trans (lowBytes_zero _)⟩⟩

end Sys2Proof.Machine
end

section
/-! PROOFS. The traps after an instruction (R119 to R121, R124, R130, R134), the external interrupt after them (R129), and
the look at the data conditions (R31, R121). -/

namespace Sys2Proof.Machine

/-! ## The delivery of traps -/

/-- What the report of the traps `k` leaves: their delivery, with the debug faults of the next instruction where
REPORT_BOTH merges them (R134). -/
def reported (k : Cause) (s : State) : State :=
  if mergesFaults s then takeTrap (k.merge (faultCause s)) .merged s else takeTrap k .trap s

theorem deliverTrap_eq_reported {s : State} (h : s.dbg.undefinedCode = none) (k : Cause) :
    deliverTrap k s = .next (reported k s) := deliverTrap_defined h k

theorem report_merge (d : Debug) (k l : Cause) : d.report (k.merge l) = (d.report k).report l := by
  simp [Debug.report, Cause.mask_merge, BitVec.or_assoc]

/-- The machine with the traps `k`, and the merged faults, recorded in DR6 (R132). -/
def recorded (k : Cause) (s : State) : State :=
  { s with dbg := if mergesFaults s then (s.dbg.report k).report (faultCause s) else s.dbg.report k }

/-- What a report leaves is a delivery of interrupt 1 after the record in DR6. -/
theorem reported_eq (k : Cause) (s : State) : ∃ d, d ≠ .fault ∧
    d.imageRF s.cpu.flags.rf = (s.cpu.flags.rf || mergesFaults s) ∧
    reported k s = deliver 1 d s.cpu.eip none (recorded k s) := by
  unfold reported recorded
  cases mergesFaults s
  · exact ⟨.trap, by decide, by simp [Delivery.imageRF], rfl⟩
  · exact ⟨.merged, by decide, by simp [Delivery.imageRF], by simp only [if_true, takeTrap, report_merge]⟩

theorem reported_env (k : Cause) (s : State) : EnvSame s (reported k s) := by
  obtain ⟨d, -, -, he⟩ := reported_eq k s
  have e := deliver_env 1 d s.cpu.eip none (recorded k s)
  rw [he]
  exact ⟨e.tf0, e.iceActive, e.extInt, e.inputs, e.coherentFetch, e.reservedAsWritten, e.nip, e.tick⟩

theorem reported_deferred (k : Cause) (s : State) : (reported k s).deferred = s.deferred := by
  obtain ⟨d, hd, -, he⟩ := reported_eq k s
  rw [he, deliver_deferred hd]
  rfl

/-- DR6 takes the bits of the traps, and of the merged faults (R132, R134). -/
theorem reported_dr6 (k : Cause) (s : State) : (reported k s).dbg.dr6 =
    s.dbg.dr6 ||| k.mask ||| (if mergesFaults s then (faultCause s).mask else 0) := by
  obtain ⟨d, -, -, he⟩ := reported_eq k s
  rw [he, deliver_dr6]
  cases h : mergesFaults s <;> simp [recorded, h]

/-- The report of traps to a procedure handler. -/
structure ReportedTo (k : Cause) (s u : State) (h : Handler) : Prop where
  delivered : TrapDelivered s u h (s.cpu.flags.rf || mergesFaults s)
  dbg : u.dbg = if mergesFaults s then (s.dbg.report k).report (faultCause s) else s.dbg.report k
  pendingBT : u.pendingBT = s.pendingBT
  flags : u.cpu.flags = entryFlags s.cpu h

theorem reported_procedure {k : Cause} {s : State} {h : Handler} (hg : gateOf s.cpu s.mem 1 = .procedure h) :
    ReportedTo k s (reported k s) h := by
  have hg' : gateOf (recorded k s).cpu (recorded k s).mem 1 = .procedure h := hg
  obtain ⟨d, -, hrf, he⟩ := reported_eq k s
  rw [he]
  refine ⟨?_, (deliver_procedure_cpu hg').2.2, deliver_procedure_pendingBT hg', ?_⟩
  · rw [← hrf]
    exact (deliver_trapDelivered hg' d).congr rfl rfl rfl rfl
  · rw [(deliver_procedure_cpu hg').1]
    rfl

/-! ## The report of an instruction's traps -/

/-- What the examination of the interrupt input after a report leaves. -/
def afterInterrupt (u : State) : State := if u.pendingBT then u else takeInterrupt u

theorem takeInterrupt_dr6 (u : State) : (takeInterrupt u).dbg.dr6 = u.dbg.dr6 := by
  rcases takeInterrupt_cases u with ⟨he, -⟩ | ⟨v, -, -, he⟩ <;> rw [he]
  exact deliver_dr6 _ _ _ _ _

theorem takeInterrupt_deferred (u : State) : (takeInterrupt u).deferred = u.deferred := by
  rcases takeInterrupt_cases u with ⟨he, -⟩ | ⟨v, -, -, he⟩ <;> rw [he]
  exact deliver_deferred (by decide) _ _ _ _

theorem afterInterrupt_dr6 (u : State) : (afterInterrupt u).dbg.dr6 = u.dbg.dr6 := by
  unfold afterInterrupt
  split
  · rfl
  · exact takeInterrupt_dr6 u

theorem afterInterrupt_deferred (u : State) : (afterInterrupt u).deferred = u.deferred := by
  unfold afterInterrupt
  split
  · rfl
  · exact takeInterrupt_deferred u

theorem afterInterrupt_of_pendingBT_false {u : State} (h : u.pendingBT = false) :
    afterInterrupt u = takeInterrupt u := by simp [afterInterrupt, h]

theorem afterInterrupt_quiet {u : State} (h : u.extInt = none) : afterInterrupt u = u := by
  simp [afterInterrupt, takeInterrupt_quiet h]

/-- The inputs do not bear on the traps. -/
theorem sampleInputs_traps (t : State) (b : Boundary) :
    trapPending (sampleInputs t) b = trapPending t b ∧ trapCause (sampleInputs t) b = trapCause t b ∧
      reportedNext (sampleInputs t) b.accesses = reportedNext t b.accesses := by
  simp [trapPending, trapCause, reportedNow, reportedNext, singleStep]

/-- The look at the instruction does not bear on the debug faults of the next one. -/
theorem afterLook_faults (t : State) (b : Boundary) :
    mergesFaults (afterLook t b) = mergesFaults t ∧ faultCause (afterLook t b) = faultCause t := by
  obtain ⟨hf, hc⟩ := debugFault_congr (s := t) (t := afterLook t b) rfl rfl rfl rfl rfl rfl
  exact ⟨by simp only [mergesFaults, hf, afterLook_tick], hc⟩

/-- An instruction with a trap to report is followed by its delivery. -/
theorem finish_trap {t : State} {b : Boundary} (hb : t.boundary = some b) (hp : trapPending t b = true)
    (hc : t.dbg.undefinedCode = none) :
    finish (.next t) = .next (afterInterrupt (reported (trapCause t b) (afterLook (sampleInputs t) b))) := by
  have hc' : (afterLook (sampleInputs t) b).dbg.undefinedCode = none := by simpa using hc
  obtain ⟨hp', hk, -⟩ := sampleInputs_traps t b
  simp only [finish, hb, reportTraps, hp', hp, hk, if_true, deliverTrap_eq_reported hc', afterReport, afterInterrupt]

/-- With no input left, only the interrupt input is examined. -/
theorem finish_trap_noInput {t : State} {b : Boundary} (hb : t.boundary = some b) (hp : trapPending t b = true)
    (hc : t.dbg.undefinedCode = none) (hi : t.inputs = []) :
    finish (.next t) = .next (afterInterrupt (reported (trapCause t b) (afterLook t b))) := by
  rw [finish_trap hb hp hc, sampleInputs_quiet hi]

/-- An instruction without a trap to report, with no input left, is followed by the look and the interrupt input. -/
theorem finish_untrapped {t : State} {b : Boundary} (hb : t.boundary = some b) (hp : trapPending t b = false)
    (hi : t.inputs = []) : finish (.next t) = .next (takeInterrupt (afterLook t b)) := by
  simp [finish, hb, sampleInputs_quiet hi, reportTraps_of_trapPending_false hp, afterReport]

/-- The traps of `t` were reported, with `u` the state after the instruction. -/
structure TrapsReported (t : State) (b : Boundary) (u : State) : Prop where
  finished : finish (.next t) = .next u
  /-- Every bit of the cause is set. -/
  bits : ∀ i, (trapCause t b).mask.getLsbD i = true → u.dbg.dr6.getLsbD i = true
  deferred : u.deferred = reportedNext t b.accesses
  quiet_dr6 : t.extInt = none → t.inputs = [] →
    u.dbg.dr6 = t.dbg.dr6 ||| (trapCause t b).mask ||| (if mergesFaults t then (faultCause t).mask else 0)
  delivered : ∀ h, gateOf t.cpu t.mem 1 = .procedure h → t.extInt = none → t.inputs = [] →
    TrapDelivered t u h (t.cpu.flags.rf || mergesFaults t) ∧ u.pendingBT = false ∧
      u.dbg = if mergesFaults t then (t.dbg.report (trapCause t b)).report (faultCause t)
        else t.dbg.report (trapCause t b)

theorem trapDelivered_afterLook {t u : State} {b : Boundary} {h : Handler} {rf : Bool}
    (hd : TrapDelivered (afterLook t b) u h rf) : TrapDelivered t u h rf := hd.congr rfl rfl rfl rfl

theorem reported_afterLook_procedure {t : State} {b : Boundary} {h : Handler}
    (hg : gateOf t.cpu t.mem 1 = .procedure h) :
    ReportedTo (trapCause t b) (afterLook t b) (reported (trapCause t b) (afterLook t b)) h :=
  reported_procedure hg

/-- A trap condition is reported while DR7 holds no undefined code. -/
theorem finish_trapsReported {t : State} {b : Boundary} (hb : t.boundary = some b) (hp : trapPending t b = true)
    (hc : t.dbg.undefinedCode = none) : ∃ u, TrapsReported t b u := by
  obtain ⟨hm, hfc⟩ := afterLook_faults t b
  have hq (he : t.extInt = none) (hi : t.inputs = []) :
      afterInterrupt (reported (trapCause t b) (afterLook (sampleInputs t) b)) =
        reported (trapCause t b) (afterLook t b) := by
    rw [sampleInputs_quiet hi]
    exact afterInterrupt_quiet ((reported_env _ _).extInt.trans he)
  refine ⟨_, finish_trap hb hp hc, fun i hbit => ?_, ?_, fun he hi => ?_, fun h hg he hi => ?_⟩
  · rw [afterInterrupt_dr6, reported_dr6]
    simp [hbit]
  · rw [afterInterrupt_deferred, reported_deferred]
    exact (sampleInputs_traps t b).2.2
  · rw [hq he hi, reported_dr6, hm, hfc]
    rfl
  · obtain ⟨hd, hdbg, hbt, -⟩ := reported_afterLook_procedure (b := b) hg
    rw [hm] at hd hdbg
    rw [hfc] at hdbg
    rw [hq he hi]
    exact ⟨trapDelivered_afterLook hd, hbt, hdbg⟩

/-! ## Single step -/

/-- TF is latched when the instruction begins, and no instruction writes the latch. -/
theorem InstructionRan.tf0 {s t : State} (h : InstructionRan s t) : t.tf0 = s.cpu.flags.tf := by
  have other {n : Nat} {u : State} (hr : RanOther (begin n s) u) : u.tf0 = s.cpu.flags.tf := by
    rcases hr with ⟨f, -, rfl⟩ | ⟨l, c, m, rfl, -⟩
    · exact (raise_env f _).tf0
    · rfl
  cases h with
  | table i len fetched ran => exact (exec_executed ran).env.tf0
  | ordinary o len fetched ran => exact ran ▸ other (runOrdinary_ran o _)
  | other fetched ran => exact ran ▸ other (runOther_ran _)

/-- The step of an instruction that ran is what follows it. -/
theorem InstructionRan.step {s t : State} (h : InstructionRan s t) (hr : ReadyToRun s) :
    step s = countStep (finish (.next t)) := by
  cases h with
  | table i len fetched ran => simp only [hr.step, runInstruction, fetched, ran]
  | ordinary o len fetched ran => simp only [hr.step, runInstruction, fetched, ran]
  | other fetched ran => simp only [hr.step, runInstruction, fetched, ran]

theorem singleStep_of_tf0 {t : State} {b : Boundary} (htf : t.tf0 = true) (hint : b.isInt = false) :
    singleStep t b.isInt = true := by
  simp [singleStep, htf, hint]

theorem trapPending_of_singleStep {t : State} {b : Boundary} (h : singleStep t b.isInt = true) :
    trapPending t b = true := by simp [trapPending, h]

theorem trapPending_of_pendingBT {t : State} {b : Boundary} (h : t.pendingBT = true) : trapPending t b = true := by
  simp [trapPending, h]

/-- Settles O36: TF was latched as 1, so a single step is to be reported. -/
theorem singleStepTrapFollows : Obligations.SingleStepTrapFollows := by
  intro s t b hr hran htf hb hint hc
  have hss := singleStep_of_tf0 (hran.tf0.trans htf) hint
  obtain ⟨u, hu⟩ := finish_trapsReported hb (trapPending_of_singleStep hss) hc
  refine ⟨{ u with tick := u.tick + 1 }, by rw [hran.step hr, hu.finished]; rfl, ?_, fun h hg he hi => ?_⟩
  · exact hu.bits 14 ((Cause.mask_bs _).trans hss)
  · exact (hu.delivered h hg he hi).1.congr rfl rfl rfl rfl

/-- Settles O37: by what a trap's delivery leaves. -/
theorem singleStepHandlerRunsWithTFClear : Obligations.SingleStepHandlerRunsWithTFClear := by
  intro t b h hb htf hint hc he hi hg hpg hm
  obtain ⟨u, hu⟩ := finish_trapsReported hb (trapPending_of_singleStep (singleStep_of_tf0 htf hint)) hc
  have hd := (hu.delivered h hg he hi).1
  exact ⟨u, hu.finished, hd.tf, hd.cs, hd.eip, hd.frame hpg hm⟩

/-- Settles O38: the two cases of a report. -/
theorem trapReportsAreSeparateOrMerged : Obligations.TrapReportsAreSeparateOrMerged := by
  intro t b h hb hp hc he hi hg
  obtain ⟨u, hu⟩ := finish_trapsReported hb hp hc
  obtain ⟨hd, -, hdbg⟩ := hu.delivered h hg he hi
  refine ⟨u, hu.finished, fun hm => ?_, fun hm => ?_⟩
  · rw [hm, Bool.or_false] at hd
    exact ⟨by simpa [hm] using hdbg, hd⟩
  · rw [hm, Bool.or_true] at hd
    exact ⟨by simpa [hm] using hdbg, hd⟩

/-! ## Data breakpoints -/

/-- With `exact` every match is reported at once (R120). -/
theorem reportedNow_exact {t : State} (h : t.dbg.exact = true) (a : List Access) :
    reportedNow t a = (t.dbg.dataMatches a).union t.deferred := by simp [reportedNow, h]

theorem reportedNext_exact {t : State} (h : t.dbg.exact = true) (a : List Access) :
    reportedNext t a = CondSet.empty := by simp [reportedNext, h]

/-- Settles O39: the match is reported now, and enabled. -/
theorem exactDataBreakpointIsReported : Obligations.ExactDataBreakpointIsReported := by
  intro t b n hb hx hc hen hn
  have hnow (m : Fin 4) (hm : (t.dbg.dataMatches b.accesses).has m = true) :
      (reportedNow t b.accesses).has m = true := by
    rw [reportedNow_exact hx, CondSet.has_union, hm, Bool.true_or]
  have hp : trapPending t b = true := by
    simp [trapPending, (Debug.anyEnabled_iff _ _).mpr ⟨n, hnow n hn, hen⟩]
  obtain ⟨u, hu⟩ := finish_trapsReported hb hp hc
  exact ⟨u, hu.finished, fun m hm => hu.bits m ((Cause.mask_b _ m).trans (hnow m hm)),
    hu.deferred.trans (reportedNext_exact hx _), fun h hg he hi => (hu.delivered h hg he hi).1⟩

/-- Settles O40: no trap condition holds, so nothing follows the look. -/
theorem disabledConditionsReportNothing : Obligations.DisabledConditionsReportNothing := by
  intro t b hb hdis htf hbt he hi
  have hany : t.dbg.anyEnabled (reportedNow t b.accesses) = false := by
    rw [← Bool.not_eq_true, Debug.anyEnabled_iff]
    rintro ⟨n, hn, hen⟩
    exact Bool.false_ne_true ((hdis n hn).symm.trans hen)
  have hp : trapPending t b = false := by simp [trapPending, singleStep, htf, hbt, hany]
  exact ⟨_, finish_quiet hb hp he hi, rfl, rfl, rfl⟩

/-- After an instruction the deferred reports are those put off at it. -/
theorem finish_deferred {t u : State} {b : Boundary} (hb : t.boundary = some b) (h : finish (.next t) = .next u) :
    u.deferred = reportedNext t b.accesses := by
  rcases finish_cases h with ⟨hn, -⟩ | ⟨b', v, hb', hv, rfl⟩
  · rw [hb] at hn; cases hn
  · obtain rfl : b = b' := Option.some.inj (hb.symm.trans hb')
    rw [← (sampleInputs_traps t b).2.2]
    refine (afterInterrupt_deferred v).trans ?_
    rcases reportTraps_cases hv with ⟨-, rfl⟩ | ⟨-, rfl⟩ | ⟨-, -, rfl⟩
    · rfl
    · exact deliver_deferred (by decide) _ _ _ _
    · exact deliver_deferred (by decide) _ _ _ _

/-- Settles O46: nothing is put off with `exact`. -/
theorem nothingStaysDeferred : Obligations.NothingStaysDeferred :=
  ⟨fun _ _ _ hb hx h => (finish_deferred hb h).trans (reportedNext_exact hx _), deliver_fault_deferred⟩

/-- Settles O45: the free choice is one of three. -/
theorem inexactReportsAreNowNextOrNever : Obligations.InexactReportsAreNowNextOrNever := by
  intro t a n hx
  simp only [reportedNow, reportedNext, hx, Bool.false_eq_true, if_false, CondSet.has_collect, Bool.or_eq_true,
    Bool.and_eq_true, beq_iff_eq]
  refine ⟨Or.imp And.left And.left, fun ⟨hm, hnext⟩ => ⟨hm, ?_⟩⟩
  rintro (⟨-, hnow⟩ | ⟨hd, -⟩)
  · rw [hnext] at hnow; cases hnow
  · exact hd

/-! ## Task switches -/

/-- The report of a task switch that a delivery made. -/
theorem step_taskSwitch {s : State} (hbt : s.pendingBT = true) (hc : s.dbg.undefinedCode = none) :
    step s = countStep (.next (afterInterrupt
      (reported taskSwitchCause (sampleInputs { s with pendingBT := false, boundary := none })))) := by
  have hc' : (sampleInputs { s with pendingBT := false, boundary := none }).dbg.undefinedCode = none := by
    simpa using hc
  simp only [step, cycle, hbt, if_true, reportTaskSwitch, deliverTrap_eq_reported hc', afterReport, afterInterrupt]

/-- Settles O41: a task switch is a trap condition at both report points. -/
theorem taskSwitchTrapIsReported : Obligations.TaskSwitchTrapIsReported := by
  refine ⟨fun t b hb hbt hc => ?_, fun s hbt hc => ?_⟩
  · obtain ⟨u, hu⟩ := finish_trapsReported hb (trapPending_of_pendingBT hbt) hc
    refine ⟨u, hu.finished, hu.bits 15 ((Cause.mask_bt _).trans hbt), fun h hg he hi => ?_⟩
    obtain ⟨hd, hbt', -⟩ := hu.delivered h hg he hi
    exact ⟨hd, hbt'⟩
  · refine ⟨_, step_taskSwitch hbt hc, ?_, fun h hg he hi => ?_⟩
    · rw [afterInterrupt_dr6, reported_dr6, BitVec.getLsbD_or, BitVec.getLsbD_or, Cause.mask_bt]
      simp [taskSwitchCause]
    · obtain ⟨hf, hfc⟩ := debugFault_congr (s := s) (t := { s with pendingBT := false, boundary := none })
        rfl rfl rfl rfl rfl rfl
      have hm : mergesFaults { s with pendingBT := false, boundary := none } = mergesFaults s := by
        simp only [mergesFaults, hf]
      have hr := reported_procedure (k := taskSwitchCause) (s := { s with pendingBT := false, boundary := none }) hg
      have hx := afterInterrupt_quiet (u := reported taskSwitchCause { s with pendingBT := false, boundary := none })
        ((reported_env _ _).extInt.trans he)
      rw [sampleInputs_quiet (s := { s with pendingBT := false, boundary := none }) hi, hx]
      have hd := hr.delivered
      rw [hm] at hd
      exact ⟨hd.congr rfl rfl rfl rfl, hr.pendingBT⟩

/-! ## The external interrupt -/

theorem takeInterrupt_of_deliverable {u : State} {x : Byte} (he : u.extInt = some x) (hif : u.cpu.flags.intf = true) :
    takeInterrupt u = deliver x .interrupt u.cpu.eip none { u with extInt := none } := by
  simp [takeInterrupt, deliverable, hif, he]

theorem takeInterrupt_of_if_clear {u : State} (hif : u.cpu.flags.intf = false) : takeInterrupt u = u := by
  simp [takeInterrupt, deliverable, hif]

/-- Settles O43: the interrupt input is examined in the instruction's end state, or in the trap handler's first. -/
theorem singleStepComesBeforeExternalInterrupts : Obligations.SingleStepComesBeforeExternalInterrupts := by
  intro t b x hb hi he
  refine ⟨fun hp hif => ?_, fun hp hif => ?_, fun h hp hc hg => ?_⟩
  · refine ⟨_, (finish_untrapped hb hp hi).trans (congrArg _ (takeInterrupt_of_deliverable he hif)),
      (deliver_env _ _ _ _ _).extInt, fun h hg => ?_⟩
    exact ⟨(deliver_trapDelivered (s := { afterLook t b with extInt := none }) hg .interrupt).congr rfl rfl rfl rfl,
      (deliver_procedure_cpu (s := { afterLook t b with extInt := none }) hg).2.2⟩
  · refine ⟨_, (finish_untrapped hb hp hi).trans (congrArg _ (takeInterrupt_of_if_clear hif)), he, rfl, rfl, rfl⟩
  · obtain ⟨hm, hfc⟩ := afterLook_faults t b
    obtain ⟨hd, -, hbt, hfl⟩ := reported_afterLook_procedure (b := b) hg
    have hx : (reported (trapCause t b) (afterLook t b)).extInt = some x := (reported_env _ _).extInt.trans he
    have hintf : (reported (trapCause t b) (afterLook t b)).cpu.flags.intf = !(h.clearsIF || !t.cpu.flags.intf) := by
      rw [hfl]
      cases hcl : h.clearsIF <;> simp [entryFlags, hcl]
    refine ⟨reported (trapCause t b) (afterLook t b), ?_, ?_, hx, ?_⟩
    · rw [← hm]
      exact trapDelivered_afterLook hd
    · rw [reported_dr6, hm, hfc]
      rfl
    · rw [finish_trap_noInput hb hp hc hi, afterInterrupt_of_pendingBT_false hbt]
      cases hcase : (h.clearsIF || !t.cpu.flags.intf) <;> rw [hcase] at hintf
      · rw [takeInterrupt_of_deliverable hx hintf, hd.eip, if_neg Bool.false_ne_true]
      · rw [takeInterrupt_of_if_clear hintf, if_pos rfl]

/-! ## After a software interrupt -/

/-- Without accesses and deferred reports there is no data breakpoint to report or to put off. -/
theorem reported_noAccess {t : State} (hdef : t.deferred = CondSet.empty) :
    reportedNow t [] = CondSet.empty ∧ reportedNext t [] = CondSet.empty := by
  have hm : t.dbg.dataMatches [] = CondSet.empty := rfl
  cases hx : t.dbg.exact
  · simp only [reportedNow, reportedNext, hx, hm, hdef, Bool.false_eq_true, if_false, CondSet.has_empty,
      Bool.false_and, Bool.or_false]
    exact ⟨rfl, rfl⟩
  · exact ⟨by rw [reportedNow_exact hx, hm, hdef]; rfl, reportedNext_exact hx _⟩

/-- Settles O44: the entry of the handler, and the report of a single step alone. -/
theorem singleStepAfterASoftwareInterrupt : Obligations.SingleStepAfterASoftwareInterrupt := by
  refine ⟨fun i s t v h hv hf hg he => ?_, fun t hb htf hbt hdef hc he hi => ?_⟩
  · cases (exec_softInt hv hf).symm.trans he
    rw [softIntEntry_procedure hg]
    exact ⟨rfl, rfl, rfl, rfl, rfl, rfl⟩
  obtain ⟨hnow, hnext⟩ := reported_noAccess hdef
  have hss : singleStep t true = Config.ssAfterInt := by simp [singleStep, htf]
  cases hcfg : Config.ssAfterInt <;> rw [hcfg] at hss
  · have hp : trapPending t ⟨[], true⟩ = false := by
      simp [trapPending, hss, hbt, hnow, Debug.anyEnabled]
    refine ⟨_, finish_quiet hb hp he hi, fun _ => ?_, fun h => absurd h Bool.false_ne_true⟩
    rw [afterLook_of_pendingBT_false hbt, hnext, ← hdef]
  · have hmask : (trapCause t ⟨[], true⟩).mask = 0x4000 := by
      rw [trapCause, hnow, hss, hbt]
      decide
    obtain ⟨u, hu⟩ := finish_trapsReported hb (trapPending_of_singleStep hss) hc
    refine ⟨u, hu.finished, fun h => absurd h.symm Bool.false_ne_true, fun _ => ⟨?_, fun h hg => ?_⟩⟩
    · rw [hu.quiet_dr6 he hi, hmask]
    · exact (hu.delivered h hg he hi).1

/-! ## Instructions of class Other -/

theorem RanOther.keepsDebugState {s t : State} (h : RanOther s t) : KeepsDebugState s t := by
  rcases h with h | ⟨l, c, m, rfl, -, hrf, htf, htask⟩
  · exact Or.inl h
  · exact Or.inr ⟨rfl, hrf, htf, htask, rfl, rfl, rfl, rfl, rfl, rfl, rfl, rfl, rfl, rfl, rfl⟩

/-- Settles O60: by what an instruction of class Other can do. -/
theorem otherInstructionsKeepTheDebugState : Obligations.OtherInstructionsKeepTheDebugState :=
  fun s => ⟨(runOther_ran s).keepsDebugState, fun o => (runOrdinary_ran o s).keepsDebugState⟩

/-! ## Undefined codes -/

/-- A condition with an undefined code is found (R81). -/
theorem Debug.undefinedCode_of_code {d : Debug} {n : Fin 4} (h : d.rw n = 2 ∨ d.len n = 2 ∨ d.rw n = 0 ∧ d.len n ≠ 0) :
    ∃ r, d.undefinedCode = some r ∧ (r = .undefinedRW ∨ r = .undefinedLEN ∨ r = .undefinedExecuteLEN) := by
  unfold Debug.undefinedCode
  split
  · exact ⟨_, rfl, Or.inl rfl⟩
  split
  · exact ⟨_, rfl, Or.inr (Or.inl rfl)⟩
  split
  · exact ⟨_, rfl, Or.inr (Or.inr rfl)⟩
  rename_i hrw hlen hx
  have found {f : Fin 4 → Bool} (hf : f n = true) : conditions.any f = true :=
    List.any_eq_true.mpr ⟨n, mem_conditions n, hf⟩
  rcases h with h | h | ⟨h0, h1⟩
  · exact absurd (found (by simpa using h)) hrw
  · exact absurd (found (by simpa using h)) hlen
  · exact absurd (found (by simpa [h0] using h1)) hx

/-- Settles O32: the step looks for an undefined code before anything but a task switch. -/
theorem undefinedCodesAreRefused : Obligations.UndefinedCodesAreRefused := by
  intro s n hbt h
  obtain ⟨r, hr, hcase⟩ := Debug.undefinedCode_of_code h
  refine ⟨r, ?_, hcase⟩
  simp only [step, cycle, hbt, hr, Bool.false_eq_true, if_false, countStep]

/-! ## Reset -/

/-- Settles O1: the values of the reset state. -/
theorem resetMeetsTheLaunchPremises : Obligations.ResetMeetsTheLaunchPremises := by
  unfold Obligations.ResetMeetsTheLaunchPremises
  decide

end Sys2Proof.Machine
end
